-- ==== Sys2Proof/Word.lean ====
section
/-! DEFINITION. The word types of the machine (00_scope.md R9, R12; 30_encoding.md R58, R68). -/

namespace Sys2Proof

/-- A word of the machine: register contents, data words, addresses, instruction words (R9: `W = AW = 32`). -/
abbrev Word := BitVec 32

/-- One byte of a memory word as the model holds it; no access of the machine moves a byte (R38, R39). -/
abbrev Byte := BitVec 8

/-- A 3-bit register number (R68: `f0`, `f1`). -/
abbrev RegNum := BitVec 3

/-- The 16-bit immediate field (R68). -/
abbrev Imm := BitVec 16

/-- The opcode field: 10 bits under the default layout, and at most 10 beside fields of 3, 3 and 16 bits (R68, R70). -/
abbrev Opcode := BitVec 10

/-- The 2-bit operation code of a request (R58). -/
abbrev ReqOp := BitVec 2

/-- The 66-bit request pattern (R58). -/
abbrev RequestBits := BitVec 66

end Sys2Proof
end

