-- ==== Sys2Proof/Config.lean ====
section
/-! DEFINITION. What the configuration provider and the reader of the spec choose: the cache geometry and memory
capacity (00_scope.md R6, R10, R11), the bit positions of the instruction fields (30_encoding.md R70) and the opcode
numbers (30_encoding.md R71). -/

namespace Sys2Proof

/-- The latched configuration: `SETS`, `WAYS`, `WPB` (R6) and `MEM_WORDS` (R10), as integers. -/
structure Geometry where
  sets : Nat
  ways : Nat
  wpb : Nat
  memWords : Nat
  deriving DecidableEq, Repr

/-- The four configuration inputs, unsigned 32-bit integers sampled when reset is released (R65). -/
structure ConfigInputs where
  cfgSets : Word
  cfgWays : Word
  cfgWpb : Word
  cfgMemWords : Word
  deriving DecidableEq, Repr

/-- `ILAYOUT`: where the fields of an instruction word lie (R70). The opcode field is `word[opcodeHi:opcodeLo]`; the
other three fields have the widths 3, 3 and 16 of R68 and start at the bit named. -/
structure ILayout where
  opcodeHi : Nat
  opcodeLo : Nat
  f0Lo : Nat
  f1Lo : Nat
  immLo : Nat
  deriving DecidableEq, Repr

/-- `OPC_*`: the values of the opcode field that name the eight instructions (R71). -/
structure OpcodeNumbers where
  add : Opcode
  nand : Opcode
  lw : Opcode
  sw : Opcode
  beq : Opcode
  jalr : Opcode
  halt : Opcode
  noop : Opcode
  deriving DecidableEq, Repr

/-- An encoding of the instruction set: a layout and eight opcode numbers, both open parameters (R70, R71). -/
structure Encoding where
  layout : ILayout
  opc : OpcodeNumbers
  deriving DecidableEq, Repr

/-- The configuration inputs in `State.reset`. DESIGN CHOICE, log entry 3 (unsafe): the spec leaves the four integers to
the configuration provider (R20, D3); a geometry with several sets, ways and words exercises every field. -/
def Config.inputs : ConfigInputs := { cfgSets := 4, cfgWays := 2, cfgWpb := 4, cfgMemWords := 65536 }

/-- The geometry sampled from `Config.inputs`. DESIGN CHOICE, log entry 3 (unsafe). -/
def Config.geometry : Geometry := { sets := 4, ways := 2, wpb := 4, memWords := 65536 }

end Sys2Proof
end

