-- ==== Sys2Proof/Syntax.lean ====
section
/-! DEFINITION. The instructions: one constructor per row of spec/opcode_table.json, with every field its encoding
carries, the ignored ones too (30_encoding.md R58, R59, R68). -/

namespace Sys2Proof

/-- The block's four request operations (R59) and the requester's instruction words (R140). -/
inductive Instr where
  /-- `READ`: the request `(0b00, addr, wdata)`, `wdata` ignored (R117, R118). -/
  | read (addr wdata : Word)
  /-- `WRITE`: the request `(0b01, addr, wdata)` (R119, R120). -/
  | write (addr wdata : Word)
  /-- The reserved operation code `0b10` (R60, R165). -/
  | reservedOp10 (addr wdata : Word)
  /-- The reserved operation code `0b11` (R60, R165). -/
  | reservedOp11 (addr wdata : Word)
  /-- `add f0 f1 imm` (R141). -/
  | add (f0 f1 : RegNum) (imm : Imm)
  /-- `nand f0 f1 imm` (R142). -/
  | nand (f0 f1 : RegNum) (imm : Imm)
  /-- `lw f0 f1 imm` (R143). -/
  | lw (f0 f1 : RegNum) (imm : Imm)
  /-- `sw f0 f1 imm` (R144). -/
  | sw (f0 f1 : RegNum) (imm : Imm)
  /-- `beq f0 f1 imm` (R145). -/
  | beq (f0 f1 : RegNum) (imm : Imm)
  /-- `jalr f0 f1`, `imm` ignored (R146). -/
  | jalr (f0 f1 : RegNum) (imm : Imm)
  /-- `halt`, fields ignored (R147). -/
  | halt (f0 f1 : RegNum) (imm : Imm)
  /-- `noop`, fields ignored (R148). -/
  | noop (f0 f1 : RegNum) (imm : Imm)
  /-- Any opcode value that is none of the eight (R149). -/
  | otherOpcode (opcode : Opcode) (f0 f1 : RegNum) (imm : Imm)
  deriving DecidableEq, Repr

/-- What carries an instruction into the machine: a request on the request interface (R58) or a fetched instruction
word (R68). -/
inductive Packet where
  | request (bits : RequestBits)
  | word (bits : Word)
  deriving DecidableEq, Repr

end Sys2Proof
end

