-- ==== Sys2Proof/Decode.lean ====
section
/-! DEFINITION. Decoding of requests (30_encoding.md R58, R59) and of instruction words (30_encoding.md R68 to R72), the
default encoding, and the encoder. -/

namespace Sys2Proof

/-- The default bit positions (R70). PRESUMED, log entry 8 (unsafe): the spec marks them as general knowledge (G2). -/
def defaultLayout : ILayout := { opcodeHi := 31, opcodeLo := 22, f0Lo := 19, f1Lo := 16, immLo := 0 }

/-- The default opcode numbers (R71). PRESUMED, log entry 9 (unsafe): the spec marks them as general knowledge (G3). -/
def defaultOpcodes : OpcodeNumbers :=
  { add := 0, nand := 1, lw := 2, sw := 3, beq := 4, jalr := 5, halt := 6, noop := 7 }

/-- The spec's marked default encoding, which `State.reset` holds. PRESUMED, log entries 8 and 9 (unsafe). -/
def defaultEncoding : Encoding := { layout := defaultLayout, opc := defaultOpcodes }

/-! ### Fields of an instruction word (R68 to R70) -/

/-- The opcode field `word[opcodeHi:opcodeLo]` (R70). -/
def opcodeField (L : ILayout) (w : Word) : Opcode :=
  BitVec.ofNat 10 ((w.toNat >>> L.opcodeLo) % 2 ^ (L.opcodeHi + 1 - L.opcodeLo))

/-- The register field `f0` (R68, R70). -/
def f0Field (L : ILayout) (w : Word) : RegNum := w.extractLsb' L.f0Lo 3

/-- The register field `f1` (R68, R70). -/
def f1Field (L : ILayout) (w : Word) : RegNum := w.extractLsb' L.f1Lo 3

/-- The immediate field, 16 contiguous bits (R69, R70). -/
def immField (L : ILayout) (w : Word) : Imm := w.extractLsb' L.immLo 16

/-! ### The decoders -/

/-- The instruction an opcode and its operand fields name: one of the eight, else the inert row (R71, R72, R140). -/
def ofFields (N : OpcodeNumbers) (op : Opcode) (f0 f1 : RegNum) (imm : Imm) : Instr :=
  if op = N.add then .add f0 f1 imm
  else if op = N.nand then .nand f0 f1 imm
  else if op = N.lw then .lw f0 f1 imm
  else if op = N.sw then .sw f0 f1 imm
  else if op = N.beq then .beq f0 f1 imm
  else if op = N.jalr then .jalr f0 f1 imm
  else if op = N.halt then .halt f0 f1 imm
  else if op = N.noop then .noop f0 f1 imm
  else .otherOpcode op f0 f1 imm

/-- Decoding an instruction word under an encoding (R139, R70, R71). Bits in no field are ignored (R68). Under an encoding that
is not legal, where two instructions share a number or two fields a bit, the first match counts: DESIGN CHOICE, log entry 35
(unsafe). -/
def decodeWordWith (E : Encoding) (w : Word) : Instr :=
  ofFields E.opc (opcodeField E.layout w) (f0Field E.layout w) (f1Field E.layout w) (immField E.layout w)

/-- Decoding an instruction word under the default encoding: every word has a meaning as an instruction (R72, R74). -/
def decodeWord (w : Word) : Instr := decodeWordWith defaultEncoding w

/-- `req[65:64]` (R58). -/
def requestOp (r : RequestBits) : ReqOp := r.extractLsb' 64 2

/-- `req[63:32]` (R58). -/
def requestAddr (r : RequestBits) : Word := r.extractLsb' 32 32

/-- `req[31:0]` (R58). -/
def requestData (r : RequestBits) : Word := r.extractLsb' 0 32

/-- Decoding a request: the four operation codes of R59. -/
def decodeRequest (r : RequestBits) : Instr :=
  if requestOp r = 0b00#2 then .read (requestAddr r) (requestData r)
  else if requestOp r = 0b01#2 then .write (requestAddr r) (requestData r)
  else if requestOp r = 0b10#2 then .reservedOp10 (requestAddr r) (requestData r)
  else .reservedOp11 (requestAddr r) (requestData r)

/-- Decoding under a given encoding of the instruction words. -/
def decodeWith (E : Encoding) : Packet → Instr
  | .request r => decodeRequest r
  | .word w => decodeWordWith E w

/-- Decoding under the default encoding. -/
def decode (p : Packet) : Instr := decodeWith defaultEncoding p

/-- Why a number of bits is no instruction at all. -/
inductive DecodeError where
  /-- More than 32 bits set in what should be one instruction word (R68, R74). -/
  | wordTooLong
  /-- More than 66 bits set in what should be one request (R58, R74). -/
  | requestTooLong
  deriving DecidableEq, Repr

/-- The packet a number stands for: up to 32 bits an instruction word, more than 32 bits a request. Numbers with bits
above the format are rejected by name. -/
def packetOf (nbits w : Nat) : Except DecodeError Packet :=
  if nbits ≤ 32 then
    if w < 2 ^ 32 then .ok (.word (BitVec.ofNat 32 w)) else .error .wordTooLong
  else
    if w < 2 ^ 66 then .ok (.request (BitVec.ofNat 66 w)) else .error .requestTooLong

/-- What the decoder reads, under the default encoding, from an instruction whose bits are `w`, numbered as
spec/opcode_table.json numbers them. -/
def decodeTableWord (nbits w : Nat) : Option Instr :=
  match packetOf nbits w with
  | .ok p => some (decode p)
  | .error _ => none

/-! ### The encoders -/

/-- The instruction word with the given fields; bits in no field are 0 (R68, R70). -/
def encodeFields (L : ILayout) (op : Opcode) (f0 f1 : RegNum) (imm : Imm) : Word :=
  op.setWidth 32 <<< L.opcodeLo ||| f0.setWidth 32 <<< L.f0Lo ||| f1.setWidth 32 <<< L.f1Lo |||
    imm.setWidth 32 <<< L.immLo

/-- The request pattern `op, addr, wdata`, most significant first (R58). -/
def encodeRequest (op : ReqOp) (addr wdata : Word) : RequestBits :=
  op.setWidth 66 <<< 64 ||| addr.setWidth 66 <<< 32 ||| wdata.setWidth 66

/-- The encoding of an instruction: a request for the block's operations (R59), a word for the rest (R70, R71). -/
def encodeWith (E : Encoding) : Instr → Packet
  | .read a d => .request (encodeRequest 0b00#2 a d)
  | .write a d => .request (encodeRequest 0b01#2 a d)
  | .reservedOp10 a d => .request (encodeRequest 0b10#2 a d)
  | .reservedOp11 a d => .request (encodeRequest 0b11#2 a d)
  | .add f0 f1 imm => .word (encodeFields E.layout E.opc.add f0 f1 imm)
  | .nand f0 f1 imm => .word (encodeFields E.layout E.opc.nand f0 f1 imm)
  | .lw f0 f1 imm => .word (encodeFields E.layout E.opc.lw f0 f1 imm)
  | .sw f0 f1 imm => .word (encodeFields E.layout E.opc.sw f0 f1 imm)
  | .beq f0 f1 imm => .word (encodeFields E.layout E.opc.beq f0 f1 imm)
  | .jalr f0 f1 imm => .word (encodeFields E.layout E.opc.jalr f0 f1 imm)
  | .halt f0 f1 imm => .word (encodeFields E.layout E.opc.halt f0 f1 imm)
  | .noop f0 f1 imm => .word (encodeFields E.layout E.opc.noop f0 f1 imm)
  | .otherOpcode op f0 f1 imm => .word (encodeFields E.layout op f0 f1 imm)

/-- The encoding under the default parameters. -/
def encode (i : Instr) : Packet := encodeWith defaultEncoding i

end Sys2Proof
end

