-- ==== Sys2Proof/Machine/State.lean ====
section
/-! DEFINITION. The state of the composed machine: the block `MH`, the Backing Memory and the reference requester, as
10_state.md gives them, with the inputs and outputs of the block's interfaces (30_encoding.md R57). -/

namespace Sys2Proof.Machine

/-- One cache line: the five fields of R14 to R18 and no other. -/
structure Line where
  valid : Bool
  dirty : Bool
  tag : Nat
  rc : Nat
  data : List Word
  deriving DecidableEq, Repr

/-- The Backing Memory as (address, byte) pairs in one canonical form: byte `k` (0 to 3) of word `a` has the key
`4 * a + k`. DESIGN CHOICE, log entry 6 (safe): the machine moves whole words only and no byte order can be observed (R39). -/
abbrev Memory := List Host.Cell

/-- The closed set of transfer kinds (R63). -/
inductive EventKind where
  /-- cache to processor: `C2P` -/
  | c2p
  /-- processor to cache: `P2C` -/
  | p2c
  /-- memory to cache: `M2C` -/
  | m2c
  /-- cache to memory: `C2M` -/
  | c2m
  /-- cache to nowhere: `C2N` -/
  | c2n
  deriving DecidableEq, Repr

/-- One transfer event: kind, first word address, number of words (R62). -/
structure Event where
  kind : EventKind
  addr : Nat
  size : Nat
  deriving DecidableEq, Repr

/-- Which check of the configuration failed: the recorded info of a `ConfigError` (R161, R163). -/
inductive ConfigParam where
  | sets
  | ways
  | wpb
  | memWords
  /-- `OFFB + SETB > 31`, a bound on `SETS` and `WPB` together (R10). -/
  | setsAndWpb
  deriving DecidableEq, Repr

/-- A fatal condition with its recorded info (R161). -/
inductive Fatal where
  /-- Raised at the end of reset (R163). -/
  | configError (which : ConfigParam)
  /-- Raised by `ACCESS` on an address outside the memory (R164). -/
  | outOfBounds (addr : Word)
  /-- Raised by `ACCESS` on a reserved operation code (R165). -/
  | invalidMode (op : ReqOp)
  deriving DecidableEq, Repr

/-- The block's status value (R21). -/
inductive Status where
  /-- Reset is held. -/
  | inReset
  /-- Requests are served. -/
  | ready
  /-- A fatal condition has occurred; only reset leaves this value. -/
  | faulted (why : Fatal)
  deriving DecidableEq, Repr

/-- The response to one request (R61): `hit` and the word read for a served read, `hit` alone for a served write, the
fatal condition otherwise. What R61 leaves unspecified is not carried (U8). -/
inductive Response where
  | readOk (hit : Bool) (rdata : Word)
  | writeOk (hit : Bool)
  | fatal (why : Fatal)
  deriving DecidableEq, Repr

/-- The run state of the requester (R26). -/
inductive RunState where
  | running
  | halted
  | faulted
  deriving DecidableEq, Repr

/-- A command on the memory-side interface (R64). -/
inductive MemCommand where
  | blockRead (base : Nat)
  | blockWrite (base : Nat) (wblock : List Word)
  deriving DecidableEq, Repr

/-- The state of the composed machine. -/
structure State where
  /-- The latched configuration (R20). -/
  cfg : Geometry
  /-- `ILAYOUT` and `OPC_*`, the open parameters of the requester's instruction word (R11, R70, R71): every step decodes under
  this encoding and none changes it (log entries 8, 9 and 35). -/
  enc : Encoding
  /-- The configuration inputs (R65). -/
  cfgIn : ConfigInputs
  /-- The reset input: true while reset is held (R181). -/
  resetIn : Bool
  /-- The block's status (R21). -/
  status : Status
  /-- The Cache Store: `lines[s][w]` (R13). -/
  lines : List (List Line)
  /-- The Backing Memory (R22). -/
  mem : Memory
  /-- The trace, oldest event first (R27). -/
  trace : List Event
  /-- The request stream of an external requester, next request first (R28, R58). -/
  requests : List RequestBits
  /-- The last response the block gave, if any (R61). -/
  resp : Option Response
  /-- The requester's program counter (R24). -/
  pc : Word
  /-- The requester's registers `x[0] .. x[7]` (R25). -/
  regs : Vector Word 8
  /-- The requester's run state (R26). -/
  run : RunState
  deriving DecidableEq, Repr

/-- Why the machine has no step: each is a stuck state the spec describes, not a fatal condition (a fatal condition is
entered as a next state). -/
inductive Fault where
  /-- Raised by `step` and by every meaning that issues an access, when the block is not `Ready`: `ACCESS` has no step
  (R168, U13). Safe: the model stops where the spec says no step exists. -/
  | blockNotReady
  /-- Raised by `step` when no request is offered and the requester is `Halted`: it has no further step (R147). Safe. -/
  | requesterHalted
  /-- Raised by `step` when no request is offered and the requester is `Faulted`: no further instruction executes
  (R153, R155). Safe. -/
  | requesterFaulted
  deriving DecidableEq, Repr

/-- Why an instruction has no meaning. -/
inductive Refusal where
  /-- Raised by `exec` alone, for an instruction the model does not cover yet. Safe. -/
  | notModelled (mnemonic : String)
  /-- Raised by `add` and `nand` whose immediate field, read as the destination register number, is above 7: the spec
  refuses the instruction (R154, U7). Safe. -/
  | destinationNamesNoRegister (field : Imm)
  deriving DecidableEq, Repr

/-- A line as reset creates it: invalid, clean, tag 0, counter 0, `wpb` zero words (R29, R181). -/
def freshLine (wpb : Nat) : Line :=
  { valid := false, dirty := false, tag := 0, rc := 0, data := List.replicate wpb 0 }

/-- The Cache Store as reset creates it (R29, R181). -/
def freshLines (c : Geometry) : List (List Line) :=
  List.replicate c.sets (List.replicate c.ways (freshLine c.wpb))

/-- The machine right after reset was released with the configuration inputs `Config.inputs` (R29): every line invalid,
the trace empty, the block `Ready`, the requester `Running` at 0 with registers 0, memory with nothing listed. The values the
spec chose itself (D6, D15, D20) are log entries 7 and 10, the configuration is log entry 3, the encoding is the spec's
marked default (log entries 8 and 9), the idle inputs are log entries 2 and 5. -/
def State.reset : State :=
  { cfg := Config.geometry
    enc := defaultEncoding
    cfgIn := Config.inputs
    resetIn := false
    status := .ready
    lines := freshLines Config.geometry
    mem := []
    trace := []
    requests := []
    resp := none
    pc := 0
    regs := Vector.replicate 8 0
    run := .running }

end Sys2Proof.Machine
end

