-- ==== Sys2Proof/Machine/Ops.lean ====
section
/-! DEFINITION. The named operations over memory, registers, the trace and the status: words of the Backing Memory
(20_memory.md R38, R50, R51), the memory-side interface (30_encoding.md R64), the requester's registers (10_state.md R24 to
R26), events (30_encoding.md R62, R63) and the one entry into a fatal condition (60_exceptions.md R166). -/

namespace Sys2Proof.Machine

/-! ### The Backing Memory, byte by byte -/

/-- What an address that is not listed reads as: 0. R29 gives 0 above the loader's image by the spec's own decision D15
(log entry 7, unsafe). -/
def Memory.unlisted : Byte := 0

/-- The canonical form: addresses strictly rising, no entry equal to what an unlisted address reads as. -/
def Memory.wf : Memory → Bool
  | [] => true
  | [c] => decide (c.2 ≠ Memory.unlisted)
  | c :: d :: m => decide (c.2 ≠ Memory.unlisted) && decide (c.1 < d.1) && Memory.wf (d :: m)

/-- The byte at a key. -/
def Memory.readByte (k : Nat) : Memory → Byte
  | [] => Memory.unlisted
  | c :: m => if c.1 = k then c.2 else Memory.readByte k m

/-- Put a listed byte at its place among rising keys. -/
def Memory.insertCell (k : Nat) (v : Byte) : Memory → Memory
  | [] => [(k, v)]
  | c :: m => if k < c.1 then (k, v) :: c :: m else c :: Memory.insertCell k v m

/-- Write one byte, keeping the canonical form. -/
def Memory.writeByte (k : Nat) (v : Byte) (m : Memory) : Memory :=
  if v = Memory.unlisted then m.filter (fun c => c.1 ≠ k)
  else Memory.insertCell k v (m.filter (fun c => c.1 ≠ k))

/-! ### Words (R22, R38) -/

/-- Byte `k` of a word, byte 0 holding the least significant bits. -/
def wordByte (w : Word) (k : Nat) : Byte := w.extractLsb' (8 * k) 8

/-- The word with the given bytes, least significant first. -/
def wordOfBytes (b0 b1 b2 b3 : Byte) : Word := b3 ++ b2 ++ b1 ++ b0

/-- `mem[a]` (R12, R22). R22 gives `mem` the words below `MEM_WORDS` only; that a word at or above it reads as what is listed
there, and as 0 where nothing is, is a DESIGN CHOICE, log entry 36 (unsafe). -/
def Memory.readWord (a : Nat) (m : Memory) : Word :=
  wordOfBytes (m.readByte (4 * a)) (m.readByte (4 * a + 1)) (m.readByte (4 * a + 2)) (m.readByte (4 * a + 3))

/-- `mem[a] <- w` (R12, R22); total as `Memory.readWord` is (log entry 36). -/
def Memory.writeWord (a : Nat) (w : Word) (m : Memory) : Memory :=
  (((m.writeByte (4 * a) (wordByte w 0)).writeByte (4 * a + 1) (wordByte w 1)).writeByte (4 * a + 2)
    (wordByte w 2)).writeByte (4 * a + 3) (wordByte w 3)

/-! ### Block transfers (R50, R51) and the memory-side interface (R64) -/

/-- `MEM_BLOCK_READ(b)`: the `n` words from `b` in ascending order (R50). -/
def Memory.readBlock (b n : Nat) (m : Memory) : List Word :=
  (List.range n).map fun i => m.readWord (b + i)

/-- `MEM_BLOCK_WRITE(b, d)`: `mem[b+i] <- d[i]` (R51). -/
def Memory.writeBlock (b : Nat) : List Word → Memory → Memory
  | [], m => m
  | w :: d, m => Memory.writeBlock (b + 1) d (m.writeWord b w)

/-- The memory's answer to a command: the memory after it and the reply, `n` words for a block read and none for a block
write (R64; `n` is `WPB`). -/
def Memory.serve (n : Nat) (m : Memory) : MemCommand → Memory × List Word
  | .blockRead b => (m, m.readBlock b n)
  | .blockWrite b d => (m.writeBlock b d, [])

/-- The `cmd` bit of a memory-side command (R64). -/
def memCommandBit : MemCommand → BitVec 1
  | .blockRead _ => 0
  | .blockWrite _ _ => 1

/-! ### The requester's registers (R24, R25, R26) -/

/-- `x[r]` (R12). -/
def State.reg (s : State) (r : RegNum) : Word := s.regs[r.toNat]'r.isLt

/-- `x[r] <- v` (R12). No register is hard-wired (R25). -/
def State.setReg (s : State) (r : RegNum) (v : Word) : State := { s with regs := s.regs.set r.toNat v r.isLt }

/-- `pc <- v` (R12). -/
def State.setPc (s : State) (v : Word) : State := { s with pc := v }

/-- Step 3 of the loop: `pc <- pc + 1`, modulo `2^32` (R137, R150). -/
def State.advancePc (s : State) : State := s.setPc (s.pc + 1)

/-- The run state becomes `r` (R26). -/
def State.setRun (s : State) (r : RunState) : State := { s with run := r }

/-! ### The trace and the response -/

/-- `emit(kind, addr, size)`: append one event (R12, R27). -/
def State.emit (s : State) (k : EventKind) (addr size : Nat) : State :=
  { s with trace := s.trace ++ [{ kind := k, addr := addr, size := size }] }

/-- Give a response on the request interface (R61, R66). -/
def State.respond (s : State) (r : Response) : State := { s with resp := some r }

/-- The numbers of the event kinds (R63). -/
def eventCode : EventKind → BitVec 3
  | .c2p => 0
  | .p2c => 1
  | .m2c => 2
  | .c2m => 3
  | .c2n => 4

/-- An event as bits: `kind[2:0]`, `addr[31:0]`, `size[31:0]` (R62). -/
def eventBits (e : Event) : BitVec 67 :=
  eventCode e.kind ++ BitVec.ofNat 32 e.addr ++ BitVec.ofNat 32 e.size

/-- The numbers of the fatal conditions (R161). -/
def fatalCode : Fatal → BitVec 2
  | .configError _ => 1
  | .outOfBounds _ => 2
  | .invalidMode _ => 3

/-- The `status` field of a response (R61, R161). -/
def responseStatus : Response → BitVec 2
  | .readOk _ _ => 0
  | .writeOk _ => 0
  | .fatal f => fatalCode f

/-- The `hit` field of a response, where it has a meaning (R61). -/
def responseHit : Response → Option Bool
  | .readOk h _ => some h
  | .writeOk h => some h
  | .fatal _ => none

/-- The `rdata` field of a response, where it has a meaning (R61). -/
def responseData : Response → Option Word
  | .readOk _ v => some v
  | .writeOk _ => none
  | .fatal _ => none

/-! ### Taking a fatal condition (R166) -/

/-- `raise Fatal(code, info)` inside an access: `status <- Faulted(code, info)` and the response carries the code; lines,
counters, `mem` and the trace stay as they were, nothing else is saved, and control goes nowhere (R166, R167). There is no
return (R170): only reset leaves `Faulted` (`State.holdReset`, `State.releaseReset`). -/
def State.raiseFatal (s : State) (f : Fatal) : State := { s with status := .faulted f }.respond (.fatal f)

end Sys2Proof.Machine
end

