-- ==== Sys2Proof/Machine/AddressDecoder.lean ====
section
/-! DEFINITION. The derived constants of a geometry (00_scope.md R8) and the Address Decoder (40_address_decoder.md). -/

namespace Sys2Proof.Machine

/-- `OFFB = log2(WPB)`, the document's `offsetBits` (R8, R75). Where `WPB` is no power of two the spec calls the decomposition
undefined (R83, U1) and rejects the configuration before any access: DESIGN CHOICE, log entry 34 (unsafe): the model's value there
is the exponent rounded down, 0 for `WPB = 0`, for totality alone. -/
def offBits (c : Geometry) : Nat := c.wpb.log2

/-- `SETB = log2(SETS)`, the document's `setBits` (R8, R75). Where `SETS` is no power of two: DESIGN CHOICE, log entry 34
(unsafe), as for `offBits`. -/
def setBits (c : Geometry) : Nat := c.sets.log2

/-- `LINES = SETS * WAYS` (R8). -/
def lineCount (c : Geometry) : Nat := c.sets * c.ways

/-- `TAGB = AW - OFFB - SETB` with `AW = 32` (R8). -/
def tagBits (c : Geometry) : Nat := 32 - offBits c - setBits c

/-- The word offset of an address within its block (R75). -/
def blockOffset (c : Geometry) (a : Nat) : Nat := a &&& ((1 <<< offBits c) - 1)

/-- The set of an address (R75). -/
def setIndex (c : Geometry) (a : Nat) : Nat := (a >>> offBits c) &&& ((1 <<< setBits c) - 1)

/-- The tag of an address (R75). -/
def tagOf (c : Geometry) (a : Nat) : Nat := a >>> (offBits c + setBits c)

/-- `DECODE(A) -> (tag, setIndex, blockOffset)` (R75). The three fields are a partition of the bits of `A`, from which `blockBase`
reconstructs the base of its block (R78, R79). Beyond `2^31 - 1`, where R80 gives none: DESIGN CHOICE, log entry 36 (unsafe). -/
def decodeAddress (c : Geometry) (a : Nat) : Nat × Nat × Nat := (tagOf c a, setIndex c a, blockOffset c a)

/-- `BASE(tag, setIndex)`: the base of the block with that tag in that set (R76), which lies at most `WPB - 1` words below every
address it is the base of (R78, R79). R76 gives it for `tag < 2^TAGB` and `setIndex < SETS` only; that the formula has a value
for every two numbers is a DESIGN CHOICE, log entry 37 (unsafe). -/
def blockBase (c : Geometry) (tag set : Nat) : Nat := ((tag <<< setBits c) ||| set) <<< offBits c

/-- `BLOCKBASE(A)`: the base of the block that contains `A`, clearing only the offset bits (R77, C4). -/
def blockBaseOf (c : Geometry) (a : Nat) : Nat := (a >>> offBits c) <<< offBits c

/-- An address is in bounds when `0 <= sext_32(A) < MEM_WORDS` (R45). -/
def inBounds (c : Geometry) (a : Word) : Bool := decide (0 ≤ a.toInt) && decide (a.toInt < (c.memWords : Int))

end Sys2Proof.Machine
end

