-- ==== Sys2Proof/Machine/Flags.lean ====
section
/-! DEFINITION. The flags. The block has two, both per line: `valid` and `dirty`; the requester has none, and no
instruction reads or writes a condition code (10_state.md R36). -/

namespace Sys2Proof.Machine

/-- A fill marks its line clean and valid (R14, R15, R109). -/
def markFilled (l : Line) : Line := { l with valid := true, dirty := false }

/-- A write marks its line dirty, whatever the value written (R15, R89). -/
def markDirty (l : Line) : Line := { l with dirty := true }

/-- A valid line whose block must be written back before the line is reused (R105). -/
def needsWriteback (l : Line) : Bool := l.valid && l.dirty

end Sys2Proof.Machine
end

