-- ==== Sys2Proof/Machine/CacheStore.lean ====
section
/-! DEFINITION. The Cache Store: direct access to a line, `LOOKUP`, `READ_WORD`, `WRITE_WORD`, `RESIDENT`
(41_cache_store.md). -/

namespace Sys2Proof.Machine

/-- What a line outside the store reads as; no operation of a reachable state reads it (R87; log entry 25). -/
def noLine : Line := freshLine 0

/-- The ways of set `i`, way 0 first (R13). A set outside the store has none (log entry 25). -/
def State.ways (s : State) (i : Nat) : List Line := s.lines.getD i []

/-- `line[i][w]` (R12, R87). -/
def State.line (s : State) (i w : Nat) : Line := (s.ways i).getD w noLine

/-- Replace `line[i][w]`; every other line stays (R87). An index outside the store changes nothing (log entry 25). -/
def State.setLine (s : State) (i w : Nat) (l : Line) : State :=
  { s with lines := s.lines.set i ((s.ways i).set w l) }

/-- A line matches a tag when it is valid and holds that tag (R85). -/
def lineMatches (t : Nat) (l : Line) : Bool := l.valid && decide (l.tag = t)

/-- `LOOKUP(s, t)`: the lowest way of set `i` that matches, or none (R85, R86). -/
def State.lookup (s : State) (i t : Nat) : Option Nat := (s.ways i).findIdx? (lineMatches t)

/-- `READ_WORD(s, w, o)` (R88). An offset outside the line, which R87 says cannot arise, reads as 0 (log entry 25). -/
def State.readWord (s : State) (i w o : Nat) : Word := (s.line i w).data.getD o 0

/-- `WRITE_WORD(s, w, o, V)`: one data word, and the line becomes dirty (R89). An offset outside the line cannot arise
(R87); there the model changes no word and still sets the dirty flag: DESIGN CHOICE, log entry 25 (safe). -/
def State.writeWord (s : State) (i w o : Nat) (v : Word) : State :=
  s.setLine i w (markDirty { s.line i w with data := (s.line i w).data.set o v })

/-- `RESIDENT(A)`: the block of `A` is in the cache (R90); at an address that is not in bounds, log entry 36. -/
def State.resident (s : State) (a : Nat) : Bool := (s.lookup (setIndex s.cfg a) (tagOf s.cfg a)).isSome

end Sys2Proof.Machine
end

