-- ==== Sys2Proof/Machine/Replacement.lean ====
section
/-! DEFINITION. The Replacement Engine: `AGE_ALL`, `TOUCH`, `SELECT_VICTIM` (42_replacement_engine.md). -/

namespace Sys2Proof.Machine

/-- One increment of a line's recency counter, exact and without bound (R93, R94). -/
def ageLine (l : Line) : Line := { l with rc := l.rc + 1 }

/-- `AGE_ALL()`: every counter of the whole cache, of valid and invalid lines alike (R93). -/
def State.ageAll (s : State) : State := { s with lines := s.lines.map fun ls => ls.map ageLine }

/-- `TOUCH(s, w)`: the touched line's counter becomes 0 (R95). -/
def State.touch (s : State) (i w : Nat) : State := s.setLine i w { s.line i w with rc := 0 }

/-- The running maximum of the left-to-right scan: way `v` with counter `m` so far, `w` the next way; only a strictly
larger counter moves it (R96, R98). -/
def oldestFrom (v m w : Nat) : List Line → Nat
  | [] => v
  | l :: ls => if m < l.rc then oldestFrom w l.rc (w + 1) ls else oldestFrom v m (w + 1) ls

/-- The way with the largest counter, lowest way on a tie (R98). Of no ways at all, which R96 excludes (`WAYS >= 1`), it answers
way 0 for totality: DESIGN CHOICE, log entry 25 (safe). -/
def oldestWay : List Line → Nat
  | [] => 0
  | l :: ls => oldestFrom 0 l.rc 1 ls

/-- The choice of a victim among the ways of one set: the lowest invalid way, else the oldest (R96, R97, R98). -/
def victimOf (ls : List Line) : Nat :=
  match ls.findIdx? (fun l => !l.valid) with
  | some w => w
  | none => oldestWay ls

/-- `SELECT_VICTIM(s)` (R96). For a set outside the store, where R96 gives none, way 0: DESIGN CHOICE, log entry 25 (safe). -/
def State.selectVictim (s : State) (i : Nat) : Nat := victimOf (s.ways i)

end Sys2Proof.Machine
end

