-- ==== Sys2Proof/Machine/WriteBack.lean ====
section
/-! DEFINITION. The write-back controller: `WRITEBACK`, `EVICT`, `FILL`, and the miss service built from them
(43_writeback_controller.md; 44_access_controller.md R121). -/

namespace Sys2Proof.Machine

/-- Issue one memory-side command and take its effect on the Backing Memory (R64). -/
def State.memSide (s : State) (c : MemCommand) : State := { s with mem := (s.mem.serve s.cfg.wpb c).1 }

/-- The reply to a memory-side command (R64). -/
def State.memReply (s : State) (c : MemCommand) : List Word := (s.mem.serve s.cfg.wpb c).2

/-- `WRITEBACK(s, v, vb)`: the whole block to memory, and one `C2M` event (R106). The dirty flag stays. -/
def State.writeback (s : State) (i v vb : Nat) : State :=
  (s.memSide (.blockWrite vb (s.line i v).data)).emit .c2m vb s.cfg.wpb

/-- The base of the block a line of set `i` holds: not a stored field but `BASE(line.tag, s)` (R76, R105).
For a set or a tag outside the ranges of R76: log entry 37. -/
def State.lineBase (s : State) (i w : Nat) : Nat := blockBase s.cfg (s.line i w).tag i

/-- `EVICT(s, v)`: a dirty valid victim is written back, a clean valid one is discarded with a `C2N` event, an invalid one
is left alone (R105, R107, R108). -/
def State.evict (s : State) (i v : Nat) : State :=
  if (s.line i v).valid then
    if (s.line i v).dirty then s.writeback i v (s.lineBase i v)
    else s.emit .c2n (s.lineBase i v) s.cfg.wpb
  else s

/-- `FILL(s, v, t)`: all five fields of the line, and one `M2C` event (R109). -/
def State.fill (s : State) (i v t : Nat) : State :=
  (s.setLine i v (markFilled { s.line i v with
    data := s.memReply (.blockRead (blockBase s.cfg t i)), tag := t, rc := 0 })).emit .m2c (blockBase s.cfg t i) s.cfg.wpb

/-- `MISS_SERVICE(s, t)`: choose a victim, evict it, fill it; the way is the victim's (R110, R121). -/
def State.missService (s : State) (i t : Nat) : State × Nat :=
  ((s.evict i (s.selectVictim i)).fill i (s.selectVictim i) t, s.selectVictim i)

end Sys2Proof.Machine
end

