-- ==== Sys2Proof/Machine/Access.lean ====
section
/-! DEFINITION. The Memory Hierarchy Controller: `ACCESS`, hit and miss (44_access_controller.md R115 to R123), and the
requester's two memory primitives over it (00_scope.md R12). -/

namespace Sys2Proof.Machine

/-- The operation code `READ` (R59). -/
def opRead : ReqOp := 0b00

/-- The operation code `WRITE` (R59). -/
def opWrite : ReqOp := 0b01

/-- What `LOOKUP` and, on a miss, the miss service find for address `a` after ageing: the state, the way that now holds
the block, and whether it was a hit (R115, steps 1 and 2). -/
def State.locate (s : State) (a : Nat) : State × Nat × Bool :=
  match s.ageAll.lookup (setIndex s.cfg a) (tagOf s.cfg a) with
  | some w => (s.ageAll, w, true)
  | none =>
    let m := s.ageAll.missService (setIndex s.cfg a) (tagOf s.cfg a)
    (m.1, m.2, false)

/-- The read arm of `ACCESS` on the line that holds the block: the word, the event, the touch (R115, R117, R118). -/
def State.finishRead (s : State) (a w : Nat) : State × Word :=
  let i := setIndex s.cfg a
  ((s.emit .c2p a 1).touch i w, s.readWord i w (blockOffset s.cfg a))

/-- The write arm of `ACCESS` on the line that holds the block: the word, the event, the touch (R115, R119, R120). -/
def State.finishWrite (s : State) (a w : Nat) (v : Word) : State :=
  let i := setIndex s.cfg a
  ((s.writeWord i w (blockOffset s.cfg a) v).emit .p2c a 1).touch i w

/-- A served read of the in-bounds address `a` (R117, R118). -/
def State.serveRead (s : State) (a : Nat) : State × Response :=
  let l := s.locate a
  let f := l.1.finishRead a l.2.1
  (f.1.respond (.readOk l.2.2 f.2), .readOk l.2.2 f.2)

/-- A served write to the in-bounds address `a` (R119, R120). -/
def State.serveWrite (s : State) (a : Nat) (v : Word) : State × Response :=
  let l := s.locate a
  ((l.1.finishWrite a l.2.1 v).respond (.writeOk l.2.2), .writeOk l.2.2)

/-- An access that ends in a fatal condition (R116, R166). -/
def State.refuseAccess (s : State) (f : Fatal) : State × Response := (s.raiseFatal f, .fatal f)

/-- `ACCESS(op, A, V)` (R115). `none`: the block is not `Ready` and takes no request (R116 a, R168). Then, before any
effect: the operation code, then the bounds (R116, R169). -/
def State.access (s : State) (op : ReqOp) (a v : Word) : Option (State × Response) :=
  if s.status ≠ .ready then none
  else if op ≠ opRead ∧ op ≠ opWrite then some (s.refuseAccess (.invalidMode op))
  else if inBounds s.cfg a = false then some (s.refuseAccess (.outOfBounds a))
  else if op = opRead then some (s.serveRead a.toNat)
  else some (s.serveWrite a.toNat v)

/-- What a memory primitive gives the requester: the state after the access with what it returned, the state after a fatal
condition, or nothing, where the block takes no request. -/
inductive MemResult (α : Type) where
  | done (s : State) (v : α)
  | fatal (s : State)
  | notTaken

/-- `MemRead(addr, 1)`, which is `ACCESS(READ, addr)` (R12). The write value is ignored (R58). -/
def State.memRead (s : State) (a : Word) : MemResult Word :=
  match s.access opRead a 0 with
  | none => .notTaken
  | some (t, .readOk _ v) => .done t v
  | some (t, _) => .fatal t

/-- `MemWrite(addr, 1, v)`, which is `ACCESS(WRITE, addr, v)` (R12). -/
def State.memWrite (s : State) (a v : Word) : MemResult Unit :=
  match s.access opWrite a v with
  | none => .notTaken
  | some (t, .writeOk _) => .done t ()
  | some (t, _) => .fatal t

end Sys2Proof.Machine
end

