-- ==== Sys2Proof/Machine/Operands.lean ====
section
/-! DEFINITION. The operand forms of the requester's instructions (30_encoding.md R69; 45_execution_engine.md R139). -/

namespace Sys2Proof.Machine

/-- `off = sext_16(imm)`: if bit 15 is set, subtract `2^16` (R69). -/
def offsetOf (imm : Imm) : Word := imm.signExtend 32

/-- `regA = x[f0]` (R139, log entry 12). -/
def regA (s : State) (f0 : RegNum) : Word := s.reg f0

/-- `regB = x[f1]` (R139, log entry 12). -/
def regB (s : State) (f1 : RegNum) : Word := s.reg f1

/-- `regB + offset` modulo `2^32`: the address of `lw` and `sw` (R143, R144, R150). -/
def dataAddress (s : State) (f1 : RegNum) (imm : Imm) : Word := regB s f1 + offsetOf imm

/-- The target of a taken branch, from the already advanced pc, modulo `2^32` (R145, R150). -/
def branchTarget (s : State) (imm : Imm) : Word := s.pc + offsetOf imm

/-- The destination register of `add` and `nand`: the raw immediate field as a number, where it names a register (R69, R141,
R154). -/
def destination (imm : Imm) : Option RegNum := if imm.toNat < 8 then some (imm.setWidth 3) else none

/-- Write a result into the register the immediate field names; a field above 7 names none and the instruction has no
meaning (R141, R142, R154). -/
def writeDestination (imm : Imm) (v : Word) (s : State) : Host.Outcome State Fault Refusal :=
  match destination imm with
  | some d => .next (s.setReg d v)
  | none => .refused (.destinationNamesNoRegister imm)

end Sys2Proof.Machine
end

