-- ==== Sys2Proof/Machine/Arith.lean ====
section
/-! DEFINITION. `add` and `nand` (45_execution_engine.md R141, R142, R154). The state they run on is the one after the
fetch; each advances the pc itself (R137). -/

namespace Sys2Proof.Machine

/-- `add f0 f1 imm`: the sum modulo `2^32` into the register named by the immediate field (R141). -/
def execAdd (f0 f1 : RegNum) (imm : Imm) (s : State) : Host.Outcome State Fault Refusal :=
  writeDestination imm (regA s f0 + regB s f1) s.advancePc

/-- `nand f0 f1 imm`: the bitwise complement of the conjunction, into the same place (R142). -/
def execNand (f0 f1 : RegNum) (imm : Imm) (s : State) : Host.Outcome State Fault Refusal :=
  writeDestination imm (~~~(regA s f0 &&& regB s f1)) s.advancePc

end Sys2Proof.Machine
end

