-- ==== Sys2Proof/Machine/Control.lean ====
section
/-! DEFINITION. `beq`, `jalr`, `halt`, `noop` and every other opcode (45_execution_engine.md R145 to R149). The state they
run on is the one after the fetch; all but `halt` advance the pc themselves (R137). -/

namespace Sys2Proof.Machine

/-- `beq f0 f1 imm`: if the two registers are equal, the offset on top of the advanced pc (R145). -/
def execBeq (f0 f1 : RegNum) (imm : Imm) (s : State) : Host.Outcome State Fault Refusal :=
  if regA s f0 = regB s f1 then .next (s.advancePc.setPc (branchTarget s.advancePc imm)) else .next s.advancePc

/-- `jalr f0 f1`: link the advanced pc into `f0` and jump to the register `f1`, unless the two fields are equal (R146). -/
def execJalr (f0 f1 : RegNum) (_imm : Imm) (s : State) : Host.Outcome State Fault Refusal :=
  if f0 ≠ f1 then .next ((s.advancePc.setReg f0 s.advancePc.pc).setPc (regB s f1)) else .next s.advancePc

/-- `halt`: the run state becomes `Halted`, before the pc is advanced (R137, R147). -/
def execHalt (_f0 _f1 : RegNum) (_imm : Imm) (s : State) : Host.Outcome State Fault Refusal := .next (s.setRun .halted)

/-- `noop`: nothing beyond the pc's advance (R148). -/
def execNoop (_f0 _f1 : RegNum) (_imm : Imm) (s : State) : Host.Outcome State Fault Refusal := .next s.advancePc

/-- Any other opcode: inert, as `noop`; the pc advances (R149, C3). -/
def execOtherOpcode (_op : Opcode) (_f0 _f1 : RegNum) (_imm : Imm) (s : State) : Host.Outcome State Fault Refusal :=
  .next s.advancePc

end Sys2Proof.Machine
end

