-- ==== Sys2Proof/Machine/LoadStore.lean ====
section
/-! DEFINITION. `lw` and `sw` (45_execution_engine.md R143, R144, R153). The state they run on is the one after the fetch;
each advances the pc itself before its data access (R137, R153). -/

namespace Sys2Proof.Machine

/-- `lw f0 f1 imm`: the word at `regB + offset` into the register named by `f0` (R143). A fatal access leaves the register
unwritten and the requester `Faulted`, the pc already advanced (R153). -/
def execLw (f0 f1 : RegNum) (imm : Imm) (s : State) : Host.Outcome State Fault Refusal :=
  match s.advancePc.memRead (dataAddress s f1 imm) with
  | .done t v => .next (t.setReg f0 v)
  | .fatal t => .next (t.setRun .faulted)
  | .notTaken => .fault .blockNotReady

/-- `sw f0 f1 imm`: the register named by `f0` to the address `regB + offset` (R144). A fatal access leaves the requester
`Faulted`, the pc already advanced (R153). -/
def execSw (f0 f1 : RegNum) (imm : Imm) (s : State) : Host.Outcome State Fault Refusal :=
  match s.advancePc.memWrite (dataAddress s f1 imm) (regA s f0) with
  | .done t _ => .next t
  | .fatal t => .next (t.setRun .faulted)
  | .notTaken => .fault .blockNotReady

end Sys2Proof.Machine
end

