-- ==== Sys2Proof/Machine/Requests.lean ====
section
/-! DEFINITION. The block's request operations as instructions: `READ`, `WRITE` and the two reserved operation codes
(30_encoding.md R59, R60; 44_access_controller.md R117 to R120; 60_exceptions.md R165). -/

namespace Sys2Proof.Machine

/-- One request: `ACCESS` and its response, or no step where the block is not `Ready` (R66, R115, R168). A request of an external
source that ends in a fatal condition leaves the reference requester's run state, pc and registers as they were: DESIGN CHOICE, log
entry 32 (unsafe): R153 and R166 speak of the requester's own accesses only. -/
def runRequest (op : ReqOp) (a v : Word) (s : State) : Host.Outcome State Fault Refusal :=
  match s.access op a v with
  | some r => .next r.1
  | none => .fault .blockNotReady

/-- `READ` (R117, R118); out of bounds it takes the fatal condition `OutOfBounds` (R164). -/
def execRead (addr wdata : Word) (s : State) : Host.Outcome State Fault Refusal := runRequest 0b00 addr wdata s

/-- `WRITE` (R119, R120); out of bounds it takes the fatal condition `OutOfBounds` (R164). -/
def execWrite (addr wdata : Word) (s : State) : Host.Outcome State Fault Refusal := runRequest 0b01 addr wdata s

/-- The reserved code `0b10` takes the fatal condition `InvalidMode`, whatever the address (R60, R165, R169). -/
def execReservedOp10 (addr wdata : Word) (s : State) : Host.Outcome State Fault Refusal := runRequest 0b10 addr wdata s

/-- The reserved code `0b11` takes the fatal condition `InvalidMode`, whatever the address (R60, R165, R169). -/
def execReservedOp11 (addr wdata : Word) (s : State) : Host.Outcome State Fault Refusal := runRequest 0b11 addr wdata s

end Sys2Proof.Machine
end

