-- ==== Sys2Proof/Machine/Dispatch.lean ====
section
/-! DEFINITION. The dispatch on the instruction: one arm per constructor (45_execution_engine.md R140). -/

namespace Sys2Proof.Machine

def exec (i : Instr) (s : State) : Host.Outcome State Fault Refusal :=
  match i with
  -- the block's request operations
  | .read addr wdata => Sys2Proof.Machine.execRead addr wdata s
  | .write addr wdata => Sys2Proof.Machine.execWrite addr wdata s
  | .reservedOp10 addr wdata => Sys2Proof.Machine.execReservedOp10 addr wdata s
  | .reservedOp11 addr wdata => Sys2Proof.Machine.execReservedOp11 addr wdata s
  -- the requester's instructions
  | .add f0 f1 imm => Sys2Proof.Machine.execAdd f0 f1 imm s
  | .nand f0 f1 imm => Sys2Proof.Machine.execNand f0 f1 imm s
  | .lw f0 f1 imm => Sys2Proof.Machine.execLw f0 f1 imm s
  | .sw f0 f1 imm => Sys2Proof.Machine.execSw f0 f1 imm s
  | .beq f0 f1 imm => Sys2Proof.Machine.execBeq f0 f1 imm s
  | .jalr f0 f1 imm => Sys2Proof.Machine.execJalr f0 f1 imm s
  | .halt f0 f1 imm => Sys2Proof.Machine.execHalt f0 f1 imm s
  | .noop f0 f1 imm => Sys2Proof.Machine.execNoop f0 f1 imm s
  | .otherOpcode opcode f0 f1 imm => Sys2Proof.Machine.execOtherOpcode opcode f0 f1 imm s

end Sys2Proof.Machine
end

