-- ==== Sys2Proof/Machine/View.lean ====
section
/-! DEFINITION. `VIEW`, the memory the requester sees (20_memory.md R52), and the placing of one word into it. -/

namespace Sys2Proof.Machine

/-- `VIEW(A)`: the word of the valid line that holds `A`'s block, else `mem[A]` (R52). R52 gives a
`VIEW` to in-bounds addresses only; that this function has a value at or above `MEM_WORDS` as well, the one the same two cases
compute, is a DESIGN CHOICE, log entry 36 (unsafe); what it gives under an illegal geometry is log entry 34. -/
def State.view (s : State) (a : Nat) : Word :=
  match s.lookup (setIndex s.cfg a) (tagOf s.cfg a) with
  | some w => s.readWord (setIndex s.cfg a) w (blockOffset s.cfg a)
  | none => s.mem.readWord a

/-- Put a word where a read of `a` finds it: into the Backing Memory and, if the block of `a` is resident, into its line.
No operation of the machine does this: it stands for a load from outside before the run (R184, log entry 21). At an `a` that is
not in bounds it places a word that no step reads: log entry 36. -/
def State.placeWord (s : State) (a : Nat) (v : Word) : State :=
  let t := { s with mem := s.mem.writeWord a v }
  match s.lookup (setIndex s.cfg a) (tagOf s.cfg a) with
  | some w =>
    let l := s.line (setIndex s.cfg a) w
    t.setLine (setIndex s.cfg a) w { l with data := l.data.set (blockOffset s.cfg a) v }
  | none => t

end Sys2Proof.Machine
end

