-- ==== Sys2Proof/Machine/Reset.lean ====
section
/-! DEFINITION. Reset, the check of the configuration and the loading of the initial image (70_reset_and_hazards.md R181
to R186; 60_exceptions.md R163). -/

namespace Sys2Proof.Machine

/-- A power of two: `log2` is defined only for these (R12). -/
def isPowerOfTwo (n : Nat) : Bool := decide (2 ^ n.log2 = n)

/-- The first check of R163 that a configuration fails, if any. The order among several failing checks is a DESIGN CHOICE,
log entry 11 (unsafe): R163 lists the checks and R161 records one parameter. -/
def configFault (c : Geometry) : Option ConfigParam :=
  if c.sets = 0 then some .sets
  else if c.ways = 0 then some .ways
  else if c.wpb = 0 then some .wpb
  else if isPowerOfTwo c.sets = false then some .sets
  else if isPowerOfTwo c.wpb = false then some .wpb
  else if c.memWords = 0 then some .memWords
  else if 2 ^ 31 < c.memWords then some .memWords
  else if c.memWords % c.wpb ≠ 0 then some .memWords
  else if 31 < offBits c + setBits c then some .setsAndWpb
  else none

/-- The geometry the configuration inputs give, read as unsigned integers (R65). -/
def sampleConfig (n : ConfigInputs) : Geometry :=
  { sets := n.cfgSets.toNat, ways := n.cfgWays.toNat, wpb := n.cfgWpb.toNat, memWords := n.cfgMemWords.toNat }

/-- Every piece of state of the block and of the requester takes its reset value under geometry `c`; the Backing Memory and
the inputs are not touched (R29, R181, R182, R183). -/
def State.clearFor (s : State) (c : Geometry) (st : Status) : State :=
  { s with
    cfg := c
    status := st
    lines := freshLines c
    trace := []
    resp := none
    pc := 0
    regs := Vector.replicate 8 0
    run := .running }

/-- Reset while it is held: the reset values, status `InReset` (R181). The inputs are sampled only at release (R20, R65), and the
spec does not say which configuration the block holds until then: DESIGN CHOICE, log entry 33 (unsafe): it keeps the one it had,
and the fresh lines have that configuration's sizes. -/
def State.holdReset (s : State) : State := s.clearFor s.cfg .inReset

/-- The status a sampled configuration leads to (R163, R181). -/
def statusFor (c : Geometry) : Status :=
  match configFault c with
  | none => .ready
  | some p => .faulted (.configError p)

/-- Reset when it is released: the configuration inputs are sampled and checked, and the status becomes `Ready` or
`Faulted(ConfigError)` (R20, R163, R181). -/
def State.releaseReset (s : State) : State := s.clearFor (sampleConfig s.cfgIn) (statusFor (sampleConfig s.cfgIn))

/-- The number of words the program loader may place, where it may load at all. Loading is over with the first access, which
writes the trace (R184, R190, U17). Before reset is released the bound is the `MEM_WORDS` the provider presents (R184, steps 1 and
2), after it the latched one; a block that released reset into `Faulted` or took a fatal condition has no run to load for. DEDUCED
and DESIGN CHOICE, log entry 27 (unsafe). -/
def State.loadCapacity (s : State) : Option Nat :=
  if s.trace = [] then
    if s.resetIn = true ∨ s.status = .inReset then some s.cfgIn.cfgMemWords.toNat
    else if s.status = .ready then some s.cfg.memWords
    else none
  else none

/-- The program loader, before the first access: image word `i` goes to `mem[i]`, directly and not through the cache; words above
the image stay as they were, 0 where nothing was written (R184, D15; log entry 27). An image longer than the memory is a loader
error outside the machine, and after the first access the host has no such move: no state (R184, R190, U17). -/
def State.loadImage (s : State) (image : List Word) : Option State :=
  match s.loadCapacity with
  | some n => if image.length ≤ n then some { s with mem := s.mem.writeBlock 0 image } else none
  | none => none

end Sys2Proof.Machine
end

