-- ==== Sys2Proof/Machine/Fetch.lean ====
section
/-! DEFINITION. What comes before an instruction runs: reset, the next request of the stream, or the requester's fetch
(70_reset_and_hazards.md R181; 30_encoding.md R66; 45_execution_engine.md R136). -/

namespace Sys2Proof.Machine

/-- What the machine does next. -/
inductive Next where
  /-- Run an instruction on the state after its request was taken or its word was fetched. -/
  | run (i : Instr) (s : State)
  /-- The step ends here: reset, or a fetch that ended in a fatal condition. -/
  | settled (s : State)
  /-- No step exists. -/
  | stuck (f : Fault)

/-- Step 1 of the requester's loop: `instr <- MemRead(pc, 1)`, decoded under the machine's encoding (R70, R71). A fatal fetch
leaves the run state `Faulted`, the pc and the registers as before (R136, R153). -/
def State.fetchWord (s : State) : Next :=
  match s.memRead s.pc with
  | .done t w => .run (decodeWordWith s.enc w) t
  | .fatal t => .settled (t.setRun .faulted)
  | .notTaken => .stuck .blockNotReady

/-- One iteration of the requester, or none where it is `Halted` or `Faulted` (R26, R135, R155). -/
def State.nextOfRequester (s : State) : Next :=
  match s.run with
  | .running => s.fetchWord
  | .halted => .stuck .requesterHalted
  | .faulted => .stuck .requesterFaulted

/-- While the block is `Ready`: the next request of the stream if there is one, else the requester (R4, R28, log entry 1). -/
def State.nextWhenReady (s : State) : Next :=
  match s.requests with
  | r :: rest => .run (decodeRequest r) { s with requests := rest }
  | [] => s.nextOfRequester

/-- What happens next: reset while it is held, its release, no step while the block is `Faulted`, else service (R21, R168,
R181). -/
def State.nextAction (s : State) : Next :=
  if s.resetIn then .settled s.holdReset
  else
    match s.status with
    | .inReset => .settled s.releaseReset
    | .faulted _ => .stuck .blockNotReady
    | .ready => s.nextWhenReady

end Sys2Proof.Machine
end

