-- ==== Sys2Proof/Machine/Step.lean ====
section
/-! DEFINITION. One step of the composed machine, and the placing of an instruction where the next step fetches it. -/

namespace Sys2Proof.Machine

/-- One step: what `State.nextAction` finds, and `exec` of the instruction where there is one (R66, R135). -/
def step (s : State) : Host.Outcome State Fault Refusal :=
  match s.nextAction with
  | .run i t => exec i t
  | .settled t => .next t
  | .stuck f => .fault f

/-- `s` with the instruction whose bits are `w` placed where `step` fetches its next instruction: a request at the head of
the request stream; an instruction word at the pc, as a read there finds it, with no request waiting (log entry 21). -/
def State.withFetchWord (s : State) (nbits w : Nat) : State :=
  if nbits ≤ 32 then { s.placeWord s.pc.toNat (BitVec.ofNat 32 w) with requests := [] }
  else { s with requests := BitVec.ofNat 66 w :: s.requests }

end Sys2Proof.Machine
end

