-- ==== Sys2Proof/WellFormed.lean ====
section
/-! DEFINITION. Which encodings are usable (30_encoding.md R68, R70, R71) and which instruction terms have a word. -/

namespace Sys2Proof

/-- The width of the opcode field under a layout (R70). -/
abbrev ILayout.opcodeWidth (L : ILayout) : Nat := L.opcodeHi + 1 - L.opcodeLo

/-- `n` bits from `lo` and `m` bits from `lo'` share no bit. -/
abbrev rangesApart (lo n lo' m : Nat) : Prop := lo + n ≤ lo' ∨ lo' + m ≤ lo

/-- A layout is usable when its four fields lie in the word and share no bit (R68: widths 3, 3 and 16). -/
abbrev ILayout.Legal (L : ILayout) : Prop :=
  L.opcodeLo ≤ L.opcodeHi ∧ L.opcodeHi < 32 ∧ L.f0Lo + 3 ≤ 32 ∧ L.f1Lo + 3 ≤ 32 ∧ L.immLo + 16 ≤ 32 ∧
  rangesApart L.opcodeLo L.opcodeWidth L.f0Lo 3 ∧ rangesApart L.opcodeLo L.opcodeWidth L.f1Lo 3 ∧
  rangesApart L.opcodeLo L.opcodeWidth L.immLo 16 ∧ rangesApart L.f0Lo 3 L.f1Lo 3 ∧
  rangesApart L.f0Lo 3 L.immLo 16 ∧ rangesApart L.f1Lo 3 L.immLo 16

/-- The eight opcode numbers in the order of R71. -/
def OpcodeNumbers.all (N : OpcodeNumbers) : List Opcode :=
  [N.add, N.nand, N.lw, N.sw, N.beq, N.jalr, N.halt, N.noop]

/-- An encoding is usable when its layout is and its eight opcode numbers are pairwise different values of the opcode
field (R71). -/
abbrev Encoding.Legal (E : Encoding) : Prop :=
  E.layout.Legal ∧ E.opc.all.Nodup ∧ ∀ n ∈ E.opc.all, n.toNat < 2 ^ E.layout.opcodeWidth

/-- An instruction term is well-formed under an encoding when it has a word that names it: the opcode of the inert row
fits the opcode field and is none of the eight numbers (R149). Every other field fits by its type. -/
def Instr.wfWith (E : Encoding) : Instr → Bool
  | .otherOpcode op _ _ _ => decide (op.toNat < 2 ^ E.layout.opcodeWidth) && !(E.opc.all.contains op)
  | .read _ _ => true
  | .write _ _ => true
  | .reservedOp10 _ _ => true
  | .reservedOp11 _ _ => true
  | .add _ _ _ => true
  | .nand _ _ _ => true
  | .lw _ _ _ => true
  | .sw _ _ _ => true
  | .beq _ _ _ => true
  | .jalr _ _ _ => true
  | .halt _ _ _ => true
  | .noop _ _ _ => true

/-- Well-formed under the default encoding. -/
def Instr.wf (i : Instr) : Bool := i.wfWith defaultEncoding

end Sys2Proof
end

