-- ==== Sys2Proof/Safety.lean ====
section
/-! DEFINITION. What a legal configuration and a well-formed state are (00_scope.md R7, R10; 10_state.md R30 to R34), and
what of a state the values of a program can depend on (44_access_controller.md R129). -/

namespace Sys2Proof.Safety

open Sys2Proof.Machine

/-- A configuration that R7 and R10 accept. -/
structure LegalGeometry (c : Geometry) : Prop where
  sets : ∃ k, c.sets = 2 ^ k
  wpb : ∃ k, c.wpb = 2 ^ k
  ways : 0 < c.ways
  memPos : 0 < c.memWords
  memMax : c.memWords ≤ 2 ^ 31
  memBlocks : c.memWords % c.wpb = 0
  bits : offBits c + setBits c ≤ 31

/-- An event that ends a served access: `C2P` or `P2C` (R130). -/
def endsAccess (e : Event) : Bool := decide (e.kind = .c2p) || decide (e.kind = .p2c)

/-- The number of accesses served since reset, read off the trace (R130). -/
def served (s : State) : Nat := s.trace.countP endsAccess

/-- The Cache Store has the form and the relations of R13, R18 and R30 to R34, `n` being the number of accesses that have
aged it. -/
structure CacheOk (n : Nat) (s : State) : Prop where
  /-- There are `SETS` sets (R13). -/
  rows : s.lines.length = s.cfg.sets
  /-- Every set has `WAYS` lines (R13). -/
  ways : ∀ i < s.cfg.sets, (s.ways i).length = s.cfg.ways
  /-- Every line has `WPB` words (R18). -/
  words : ∀ i < s.cfg.sets, ∀ w < s.cfg.ways, (s.line i w).data.length = s.cfg.wpb
  /-- No two valid lines of a set share a tag (R30). -/
  unique : ∀ i < s.cfg.sets, ∀ w < s.cfg.ways, ∀ w' < s.cfg.ways, (s.line i w).valid = true →
    (s.line i w').valid = true → (s.line i w).tag = (s.line i w').tag → w = w'
  /-- An invalid line is clean (R31). -/
  invalidClean : ∀ i < s.cfg.sets, ∀ w < s.cfg.ways, (s.line i w).valid = false → (s.line i w).dirty = false
  /-- The valid lines of a set are a prefix of its ways (R32). -/
  validPrefix : ∀ i < s.cfg.sets, ∀ w < s.cfg.ways, ∀ w' < w, (s.line i w).valid = true → (s.line i w').valid = true
  /-- Every valid line holds an in-bounds block (R33). -/
  inside : ∀ i < s.cfg.sets, ∀ w < s.cfg.ways, (s.line i w).valid = true →
    s.lineBase i w + s.cfg.wpb ≤ s.cfg.memWords
  /-- An invalid line's counter is the number of accesses that aged it (R34, R100). -/
  invalidCounter : ∀ i < s.cfg.sets, ∀ w < s.cfg.ways, (s.line i w).valid = false → (s.line i w).rc = n
  /-- Every valid line's counter is smaller than that (R34). -/
  validCounter : ∀ i < s.cfg.sets, ∀ w < s.cfg.ways, (s.line i w).valid = true → (s.line i w).rc < n
  /-- The counters of valid lines are pairwise different across the cache (R34). -/
  countersApart : ∀ i < s.cfg.sets, ∀ w < s.cfg.ways, ∀ i' < s.cfg.sets, ∀ w' < s.cfg.ways, (s.line i w).valid = true →
    (s.line i' w').valid = true → (s.line i w).rc = (s.line i' w').rc → i = i' ∧ w = w'
  /-- A clean valid line equals its block in memory: its data have not been written since it was filled (R15). DEDUCED, log
  entry 22 (safe): R30 to R34 do not list it, and R53 rests on it. -/
  cleanMatches : ∀ i < s.cfg.sets, ∀ w < s.cfg.ways, (s.line i w).valid = true → (s.line i w).dirty = false →
    (s.line i w).data = s.mem.readBlock (s.lineBase i w) s.cfg.wpb

/-- The Cache Store between two accesses: the relations of `CacheOk` for the number of accesses served since reset (R34). -/
def CacheInv (s : State) : Prop := CacheOk (served s) s

/-- The invariant of the composed machine. -/
structure Inv (s : State) : Prop where
  /-- The Backing Memory is in its canonical form. -/
  memory : s.mem.wf = true
  /-- A block that serves requests has a legal configuration (R163). -/
  legal : s.status = .ready → LegalGeometry s.cfg
  /-- Under a legal configuration the Cache Store is well-formed (R30 to R34). -/
  cache : LegalGeometry s.cfg → CacheInv s
  /-- A requester that faulted did so because the block did (R153). -/
  faulted : s.run = .faulted → ∃ f, s.status = .faulted f
  /-- The encoding of the instruction words is a usable one (R68, R70, R71). -/
  encoding : s.enc.Legal

/-- Two states look the same to a program: they agree on the capacity, the encoding, the requester, the requests to come and
`VIEW` of every in-bounds address. Geometry, lines, counters, `mem` and the trace may differ (R35, R129). -/
structure SameView (s t : State) : Prop where
  capacity : s.cfg.memWords = t.cfg.memWords
  enc : s.enc = t.enc
  status : s.status = t.status
  requests : s.requests = t.requests
  pc : s.pc = t.pc
  regs : s.regs = t.regs
  run : s.run = t.run
  view : ∀ a < s.cfg.memWords, s.view a = t.view a

/-- The way of its set that an access to `a` touches: the matching one on a hit, the victim on a miss (R115). -/
def touchedWay (s : State) (a : Nat) : Nat :=
  (s.lookup (setIndex s.cfg a) (tagOf s.cfg a)).getD (s.selectVictim (setIndex s.cfg a))

/-- The event an eviction of `line[i][v]` emits: write-back of a valid dirty victim, discard of a valid clean one, nothing
for an invalid one (R122). -/
def victimEvents (s : State) (i v : Nat) : List Event :=
  if (s.line i v).valid then
    [{ kind := if (s.line i v).dirty then .c2m else .c2n, addr := s.lineBase i v, size := s.cfg.wpb }]
  else []

/-- The event ends an access to the block of `n` words from `b`. -/
def touchesBlock (b n : Nat) (e : Event) : Bool := endsAccess e && decide (b ≤ e.addr) && decide (e.addr < b + n)

/-- On a trace read newest event first: the number of accesses served since the last one that touched the block (R100). -/
def sinceTouch (b n : Nat) : List Event → Nat
  | [] => 0
  | e :: es => if touchesBlock b n e then 0 else (if endsAccess e then 1 else 0) + sinceTouch b n es

/-- The number of accesses served since the block of `line[i][w]` was last touched, read off the trace (R100). -/
def staleness (s : State) (i w : Nat) : Nat := sinceTouch (s.lineBase i w) s.cfg.wpb s.trace.reverse

/-- What the counter of a valid line means: the accesses served since the last one that touched the line, and there was one
(R100). -/
def CounterMeaning (s : State) : Prop :=
  ∀ i < s.cfg.sets, ∀ w < s.cfg.ways, (s.line i w).valid = true →
    (s.line i w).rc = staleness s i w ∧ ∃ e ∈ s.trace, touchesBlock (s.lineBase i w) s.cfg.wpb e = true

/-- The sign extension of the immediate field as R69 says it: if bit 15 is set, subtract `2^16`. -/
def signedOffset (imm : Imm) : Int := if imm.getLsbD 15 then (imm.toNat : Int) - 2 ^ 16 else (imm.toNat : Int)

/-- Running instructions one after another, each on the state the one before left, up to the first stop. -/
def execAll : List Instr → State → Host.Outcome State Fault Refusal
  | [], s => .next s
  | i :: is, s =>
    match exec i s with
    | .next t => execAll is t
    | .fault f => .fault f
    | .refused r => .refused r

/-- Two outcomes of a step are the same to a program: next states that look the same and responses with the same word, or the
same stop. -/
def SameOutcome : Host.Outcome State Fault Refusal → Host.Outcome State Fault Refusal → Prop
  | .next s, .next t => SameView s t ∧ s.resp.bind responseData = t.resp.bind responseData
  | .fault f, .fault g => f = g
  | .refused q, .refused r => q = r
  | _, _ => False

/-- No recency counter has reached the last value of an `RCW`-bit counter: what an implementation must ensure to agree with
this model's unbounded counters (R94, R194). -/
def CountersFit (rcw : Nat) (s : State) : Prop := ∀ ls ∈ s.lines, ∀ l ∈ ls, l.rc < 2 ^ rcw - 1

end Sys2Proof.Safety
end

