-- ==== Sys2Proof/Certificates/Slice0/Obligations.lean ====
section
/-! DEFINITION. The statements for the provers. Each docstring names the rules of spec/ the statement formalises, and the
decisions of the spec or the log entries of the model it rests on. -/

open Sys2Proof Sys2Proof.Machine Sys2Proof.Safety

/-! ### Encoding -/

/-- Words and requests written out in spec/95_test_vectors.md decode to what they stand for (R58, R59, R70 to R72; layout and
opcode numbers are log entries 8 and 9). -/
def Obligations.SpecWordsDecode : Prop :=
  decodeTableWord 32 0x00090002 = some (.add 1 1 2) ∧
  decodeTableWord 32 0x00520003 = some (.nand 2 2 3) ∧
  decodeTableWord 32 0x008AFFFF = some (.lw 1 2 0xFFFF) ∧
  decodeTableWord 32 0x00D00007 = some (.sw 2 0 7) ∧
  decodeTableWord 32 0x0100FFFD = some (.beq 0 0 0xFFFD) ∧
  decodeTableWord 32 0x015C0000 = some (.jalr 3 4 0) ∧
  decodeTableWord 32 0x01800000 = some (.halt 0 0 0) ∧
  decodeTableWord 32 0x01C00000 = some (.noop 0 0 0) ∧
  decodeTableWord 32 0x02000000 = some (.otherOpcode 8 0 0 0) ∧
  decodeTableWord 32 0xFFFFFFFF = some (.otherOpcode 1023 7 7 0xFFFF) ∧
  decodeTableWord 66 0x00000000400000000 = some (.read 4 0) ∧
  decodeTableWord 66 0x10000000100000007 = some (.write 1 7) ∧
  decodeTableWord 66 0x20000000000000000 = some (.reservedOp10 0 0) ∧
  decodeTableWord 66 0x30000000800000000 = some (.reservedOp11 8 0)

/-- Under every legal layout and every legal choice of opcode numbers, decoding what a well-formed instruction encodes to
gives it back, every field at every value (R68 to R72; the open parameters `ILAYOUT` and `OPC_*`). -/
def Obligations.DecodeEncodeEveryLayout : Prop :=
  ∀ E : Encoding, E.Legal → ∀ i : Instr, i.wfWith E = true → decodeWith E (encodeWith E i) = i

/-- Under this machine's encoding no bit of a word or a request is dropped: every packet is the encoding of what it decodes
to, which is well-formed (R58, R59, R70, R72, R74; log entries 8 and 9). -/
def Obligations.EveryPacketReencodes : Prop :=
  ∀ p : Packet, encode (decode p) = p ∧ (decode p).wf = true

/-! ### The Address Decoder -/

/-- `BLOCKBASE(A)` clears only the block-offset bits of the 32-bit address (R77): in the rule's four forms, the last one the base
`BASE` joins from the tag and the set of `A`. -/
def Obligations.BlockBaseClearsOnlyTheOffsetBits : Prop :=
  ∀ (c : Geometry) (a : Nat), LegalGeometry c → a < 2 ^ 31 →
    blockBaseOf c a = (BitVec.ofNat 32 a &&& ~~~(BitVec.ofNat 32 ((1 <<< offBits c) - 1))).toNat ∧
    blockBaseOf c a = (a >>> offBits c) <<< offBits c ∧
    blockBaseOf c a = a - a % c.wpb ∧
    blockBaseOf c a = blockBase c (tagOf c a) (setIndex c a)

/-- Reconstruction (R78) and range (R79): the three fields are a partition of the bits of `A`, and the block base lies at most
`WPB - 1` words below `A`. That the whole block lies in bounds when `A` does is the spec's own inference in R79. -/
def Obligations.ReconstructionFromFields : Prop :=
  ∀ (c : Geometry) (a : Nat), LegalGeometry c → a < 2 ^ 31 →
    blockOffset c a = a % 2 ^ offBits c ∧
    setIndex c a = a / 2 ^ offBits c % 2 ^ setBits c ∧
    tagOf c a = a / 2 ^ (offBits c + setBits c) ∧
    blockBase c (tagOf c a) (setIndex c a) + blockOffset c a = a ∧
    ((((tagOf c a <<< setBits c) ||| setIndex c a) <<< offBits c) ||| blockOffset c a) = a ∧
    blockBase c (tagOf c a) (setIndex c a) = blockBaseOf c a ∧
    blockBase c (tagOf c a) (setIndex c a) ≤ a ∧ a < blockBase c (tagOf c a) (setIndex c a) + c.wpb ∧
    blockBase c (tagOf c a) (setIndex c a) % c.wpb = 0 ∧
    (a < c.memWords → blockBase c (tagOf c a) (setIndex c a) + c.wpb ≤ c.memWords)

/-- Two addresses lie in the same block exactly when their tags and sets agree, exactly when their block bases agree, exactly
when they agree above the offset bits (R82, which the spec marks as its own inference). For an address above `2^31 - 1`, where R80
gives no DECODE, what it says is the model's choice (log entry 36). -/
def Obligations.SameBlockSameTagAndSet : Prop :=
  ∀ (c : Geometry) (a b : Nat), LegalGeometry c →
    ((tagOf c a = tagOf c b ∧ setIndex c a = setIndex c b) ↔ a >>> offBits c = b >>> offBits c) ∧
    (a >>> offBits c = b >>> offBits c ↔ blockBaseOf c a = blockBaseOf c b)

/-! ### The Backing Memory -/

/-- Two canonical memories that read alike are the same data; the canonical form and what unlisted memory reads as are the
model's choices (log entries 6 and 7). -/
def Obligations.CanonicalMemoriesReadingAlikeAreEqual : Prop :=
  ∀ m m' : Memory, m.wf = true → m'.wf = true → (∀ k, m.readByte k = m'.readByte k) → m = m'

/-- The loader, before the first access only, puts image word `i` at `mem[i]` and leaves every other word; what the requester
then sees is exactly `mem`, and the invariant is kept (R184, R190; the spec's decision D15; log entry 27). The bound is the
`MEM_WORDS` the provider presents until reset is released, and the latched one after it. A longer image, a load after the first
access and a load into a block that has failed are refused. At an address at or above `MEM_WORDS`, where R22 gives no `mem` and
R52 no `VIEW`, what it says is the model's choice (log entry 36). -/
def Obligations.LoadedImageIsWhatIsSeen : Prop :=
  ∀ (s : State) (image : List Word),
    (s.trace ≠ [] → s.loadImage image = none) ∧
    (s.resetIn = false → (∃ f, s.status = .faulted f) → s.loadImage image = none) ∧
    ∀ n, ((s.resetIn = true ∨ s.status = .inReset) ∧ n = s.cfgIn.cfgMemWords.toNat ∨
        s.resetIn = false ∧ s.status = .ready ∧ n = s.cfg.memWords) → s.trace = [] →
      (n < image.length → s.loadImage image = none) ∧
      (image.length ≤ n → ∃ t, s.loadImage image = some t ∧ t = { s with mem := t.mem } ∧ (Inv s → Inv t) ∧
        ∀ a, t.mem.readWord a = (if h : a < image.length then image[a] else s.mem.readWord a) ∧
          ((∀ ls ∈ s.lines, ∀ l ∈ ls, l.valid = false) ∨ LegalGeometry s.cfg ∧ CacheInv s →
            t.view a = t.mem.readWord a))

/-- Steps 2 and 3 of the boot order may be swapped (R184): loading an image while reset is held and then releasing reset into
`Ready` gives the state that releasing reset and then loading the image gives, and the one load is accepted when the other is. -/
def Obligations.LoadAndReleaseMayBeSwapped : Prop :=
  ∀ (s r : State) (image : List Word), s.status = .inReset → s.resetIn = false → s.trace = [] → step s = .next r →
    r.status = .ready →
    (s.loadImage image = none ↔ r.loadImage image = none) ∧
    ∀ t, s.loadImage image = some t → ∃ u, step t = .next u ∧ r.loadImage image = some u

/-! ### The Cache Store and the Replacement Engine -/

/-- `LOOKUP` answers the lowest way of the set whose line is valid and holds the tag, and none where there is no such way
(R85). That it is the lowest where two lines match is the spec's decision D34 for totality alone (R86, U10; log entry 25): no
reachable state has two. For a set outside the store it is the model's choice (log entry 25). -/
def Obligations.LookupFindsTheMatchingWay : Prop :=
  ∀ (s : State) (i t : Nat),
    (∀ w, s.lookup i t = some w ↔
      w < (s.ways i).length ∧ (s.line i w).valid = true ∧ (s.line i w).tag = t ∧
        ∀ w' < w, ¬((s.line i w').valid = true ∧ (s.line i w').tag = t)) ∧
    (s.lookup i t = none ↔
      ∀ w < (s.ways i).length, ¬((s.line i w).valid = true ∧ (s.line i w).tag = t))

/-- `SELECT_VICTIM` answers a way of the set: the lowest invalid one if there is one, else the lowest of those with the
largest counter (R96, R98). That it is the lowest of the invalid ones is R97, which the spec marks as its own inference. -/
def Obligations.VictimIsInvalidOrOldest : Prop :=
  ∀ (s : State) (i : Nat), 0 < (s.ways i).length →
    s.selectVictim i < (s.ways i).length ∧
    if ∃ w < (s.ways i).length, (s.line i w).valid = false then
      (s.line i (s.selectVictim i)).valid = false ∧ ∀ w < s.selectVictim i, (s.line i w).valid = true
    else
      (∀ w < (s.ways i).length, (s.line i w).rc ≤ (s.line i (s.selectVictim i)).rc) ∧
      ∀ w < s.selectVictim i, (s.line i w).rc < (s.line i (s.selectVictim i)).rc

/-- Ageing the whole cache, or any sets of it, changes no choice of a victim (R99 and R102, which the spec marks as its own
inferences). For a set outside the store, where R96 gives no victim, it is the model's choice (log entry 25). -/
def Obligations.AgeingChangesNoVictim : Prop :=
  ∀ (s : State) (i : Nat), s.ageAll.selectVictim i = s.selectVictim i ∧
    victimOf ((s.ways i).map ageLine) = victimOf (s.ways i)

/-- `WRITE_WORD(s, w, o, V)` (R89): the data word is `V`, the line is dirty even if it held `V` already, the other words of the
line, its tag, its valid bit and its counter stay, and so does every other line and everything outside the cache. -/
def Obligations.WriteWordWritesOneWordAndMarksDirty : Prop :=
  ∀ (s : State) (i w o : Nat) (v : Word), i < s.lines.length → w < (s.ways i).length → o < (s.line i w).data.length →
    ∃ t, s.writeWord i w o v = t ∧ t = { s with lines := t.lines } ∧
      t.line i w = { s.line i w with dirty := true, data := (t.line i w).data } ∧
      (t.line i w).data[o]? = some v ∧ (t.line i w).data.length = (s.line i w).data.length ∧
      (∀ o', o' ≠ o → (t.line i w).data[o']? = (s.line i w).data[o']?) ∧
      ∀ i' w', i' < s.lines.length → w' < (s.ways i').length → ¬(i' = i ∧ w' = w) → t.line i' w' = s.line i' w'

/-! ### The write-back controller -/

/-- `WRITEBACK` through `EVICT`: after the eviction of a valid dirty line the memory at the line's base equals the line's data,
word for word, nothing else of `mem` changes, the event is `C2M`, and the line keeps its dirty flag (R106). The event's address
and size, the base and `WPB`, are the spec's decision D9 (log entry 15). That `mem` has a value outside the memory at all is the
model's choice (R22; log entry 36), as is the base of a line whose set or tag is outside the ranges of R76 (log entry 37) and
under an illegal geometry (log entry 34). -/
def Obligations.DirtyEvictionWritesTheBlock : Prop :=
  ∀ (s : State) (i v : Nat), (s.line i v).valid = true → (s.line i v).dirty = true →
    (s.line i v).data.length = s.cfg.wpb →
    ∃ t, s.evict i v = t ∧
      t = { s with mem := t.mem, trace := s.trace ++ [{ kind := .c2m, addr := s.lineBase i v, size := s.cfg.wpb }] } ∧
      (∀ o < s.cfg.wpb, t.mem.readWord (s.lineBase i v + o) = (s.line i v).data.getD o 0) ∧
      (∀ a, ¬(s.lineBase i v ≤ a ∧ a < s.lineBase i v + s.cfg.wpb) → t.mem.readWord a = s.mem.readWord a) ∧
      ∀ k, ¬(s.lineBase i v ≤ k / 4 ∧ k / 4 < s.lineBase i v + s.cfg.wpb) → t.mem.readByte k = s.mem.readByte k

/-- A clean valid victim is discarded with one `C2N` event and no write; an invalid one is left alone with no event (R107, R108;
the spec's decisions D9 and D10, log entry 15). The base of a line whose set or tag is outside the ranges of R76 is the model's
choice (log entry 37), as it is under an illegal geometry (log entry 34) and as a line outside the store is (log entry 25). -/
def Obligations.CleanAndInvalidVictimsWriteNothing : Prop :=
  ∀ (s : State) (i v : Nat),
    ((s.line i v).valid = true → (s.line i v).dirty = false →
      s.evict i v = { s with trace := s.trace ++ [{ kind := .c2n, addr := s.lineBase i v, size := s.cfg.wpb }] }) ∧
    ((s.line i v).valid = false → s.evict i v = s)

/-! ### The four cases of an access, as the instructions READ and WRITE -/

/-- READ, hit (R117): the word of the matching line, one `C2P` event, the touched counter 0 and every other one more;
nothing else changes. The event's address and size are the spec's decision D9 (log entry 15). -/
def Obligations.ReadHitReturnsTheCachedWord : Prop :=
  ∀ (s : State) (a d : Word) (w : Nat), s.status = .ready → inBounds s.cfg a = true →
    s.lookup (setIndex s.cfg a.toNat) (tagOf s.cfg a.toNat) = some w →
    ∃ t, exec (.read a d) s = .next t ∧
      t = { s with
        lines := t.lines
        trace := s.trace ++ [{ kind := .c2p, addr := a.toNat, size := 1 }]
        resp := some (.readOk true ((s.line (setIndex s.cfg a.toNat) w).data.getD (blockOffset s.cfg a.toNat) 0)) } ∧
      (∀ i', (t.ways i').length = (s.ways i').length) ∧
      ∀ i', ∀ w' < (s.ways i').length, t.line i' w' =
        { s.line i' w' with rc := if i' = setIndex s.cfg a.toNat ∧ w' = w then 0 else (s.line i' w').rc + 1 }

/-- READ, miss (R118): the victim evicted, its line filled with the block of the address, clean, with the tag and counter 0,
and the word of the address as `mem` held it before the access; every other line only aged. The events' addresses and sizes are
the spec's decision D9, and that an invalid victim has no event is its decision D10 (R108; log entry 15). -/
def Obligations.ReadMissFillsAndReturnsTheWord : Prop :=
  ∀ (s : State) (a d : Word), s.status = .ready → LegalGeometry s.cfg → CacheInv s → inBounds s.cfg a = true →
    s.lookup (setIndex s.cfg a.toNat) (tagOf s.cfg a.toNat) = none →
    ∃ t, exec (.read a d) s = .next t ∧
      t = { s with
        lines := t.lines
        mem := (s.evict (setIndex s.cfg a.toNat) (s.selectVictim (setIndex s.cfg a.toNat))).mem
        trace := s.trace ++ victimEvents s (setIndex s.cfg a.toNat) (s.selectVictim (setIndex s.cfg a.toNat)) ++
          [{ kind := .m2c, addr := blockBaseOf s.cfg a.toNat, size := s.cfg.wpb },
           { kind := .c2p, addr := a.toNat, size := 1 }]
        resp := some (.readOk false (s.mem.readWord a.toNat)) } ∧
      t.mem.readWord a.toNat = s.mem.readWord a.toNat ∧
      ∀ i' < s.cfg.sets, ∀ w' < s.cfg.ways, t.line i' w' =
        if i' = setIndex s.cfg a.toNat ∧ w' = s.selectVictim (setIndex s.cfg a.toNat) then
          { valid := true, dirty := false, tag := tagOf s.cfg a.toNat, rc := 0,
            data := s.mem.readBlock (blockBaseOf s.cfg a.toNat) s.cfg.wpb }
        else { s.line i' w' with rc := (s.line i' w').rc + 1 }

/-- WRITE, hit (R119): one word of the matching line, dirty, one `P2C` event, counter 0; `mem`, every valid bit and tag and
the other words of the line stay. The event's address and size are the spec's decision D9 (log entry 15). -/
def Obligations.WriteHitUpdatesTheLine : Prop :=
  ∀ (s : State) (a v : Word) (w : Nat), s.status = .ready → inBounds s.cfg a = true →
    s.lookup (setIndex s.cfg a.toNat) (tagOf s.cfg a.toNat) = some w →
    ∃ t, exec (.write a v) s = .next t ∧
      t = { s with
        lines := t.lines
        trace := s.trace ++ [{ kind := .p2c, addr := a.toNat, size := 1 }]
        resp := some (.writeOk true) } ∧
      (∀ i', (t.ways i').length = (s.ways i').length) ∧
      ∀ i', ∀ w' < (s.ways i').length, t.line i' w' =
        if i' = setIndex s.cfg a.toNat ∧ w' = w then
          { s.line i' w' with
            dirty := true, rc := 0, data := (s.line i' w').data.set (blockOffset s.cfg a.toNat) v }
        else { s.line i' w' with rc := (s.line i' w').rc + 1 }

/-- WRITE, miss (R120): the block is fetched first, then the word written; the line is dirty, its other words equal `mem`; no
`C2P` event (the spec's decision D11; the events' addresses and sizes and the absence of one for an invalid victim are its
decisions D9 and D10; log entry 15). -/
def Obligations.WriteMissFetchesThenWrites : Prop :=
  ∀ (s : State) (a v : Word), s.status = .ready → LegalGeometry s.cfg → CacheInv s → inBounds s.cfg a = true →
    s.lookup (setIndex s.cfg a.toNat) (tagOf s.cfg a.toNat) = none →
    ∃ t, exec (.write a v) s = .next t ∧
      t = { s with
        lines := t.lines
        mem := (s.evict (setIndex s.cfg a.toNat) (s.selectVictim (setIndex s.cfg a.toNat))).mem
        trace := s.trace ++ victimEvents s (setIndex s.cfg a.toNat) (s.selectVictim (setIndex s.cfg a.toNat)) ++
          [{ kind := .m2c, addr := blockBaseOf s.cfg a.toNat, size := s.cfg.wpb },
           { kind := .p2c, addr := a.toNat, size := 1 }]
        resp := some (.writeOk false) } ∧
      ∀ i' < s.cfg.sets, ∀ w' < s.cfg.ways, t.line i' w' =
        if i' = setIndex s.cfg a.toNat ∧ w' = s.selectVictim (setIndex s.cfg a.toNat) then
          { valid := true, dirty := true, tag := tagOf s.cfg a.toNat, rc := 0,
            data := (s.mem.readBlock (blockBaseOf s.cfg a.toNat) s.cfg.wpb).set (blockOffset s.cfg a.toNat) v }
        else { s.line i' w' with rc := (s.line i' w').rc + 1 }

/-! ### Fatal conditions -/

/-- READ and WRITE outside the memory take the fatal condition `OutOfBounds`: the status and the response carry it, and
nothing else changes (R164, R166; the spec's decisions D2, D12 and D14). That the reference requester's run state stays too, the
request not being its own, is the model's choice (log entry 32). -/
def Obligations.OutOfBoundsRequestTakesTheFault : Prop :=
  ∀ (s : State) (a v : Word), s.status = .ready → (a.toInt < 0 ∨ (s.cfg.memWords : Int) ≤ a.toInt) →
    exec (.read a v) s =
      .next { s with status := .faulted (.outOfBounds a), resp := some (.fatal (.outOfBounds a)) } ∧
    exec (.write a v) s =
      .next { s with status := .faulted (.outOfBounds a), resp := some (.fatal (.outOfBounds a)) }

/-- The two reserved operation codes take the fatal condition `InvalidMode`, whatever the address, and nothing else changes
(R165, R166, R169; the spec's decisions D13 and D14). That the reference requester's run state stays too is the model's choice (log
entry 32). -/
def Obligations.ReservedOpTakesTheFault : Prop :=
  ∀ (s : State) (a v : Word), s.status = .ready →
    exec (.reservedOp10 a v) s =
      .next { s with status := .faulted (.invalidMode 0b10), resp := some (.fatal (.invalidMode 0b10)) } ∧
    exec (.reservedOp11 a v) s =
      .next { s with status := .faulted (.invalidMode 0b11), resp := some (.fatal (.invalidMode 0b11)) }

/-- While the block is not `Ready` an access has no step (R168; the spec's decision D31). -/
def Obligations.NotReadyTakesNoRequest : Prop :=
  ∀ (s : State) (a v : Word) (f0 f1 : RegNum) (imm : Imm), s.status ≠ .ready →
    exec (.read a v) s = .fault .blockNotReady ∧ exec (.write a v) s = .fault .blockNotReady ∧
    exec (.reservedOp10 a v) s = .fault .blockNotReady ∧ exec (.reservedOp11 a v) s = .fault .blockNotReady ∧
    exec (.lw f0 f1 imm) s = .fault .blockNotReady ∧ exec (.sw f0 f1 imm) s = .fault .blockNotReady

/-- `Faulted` is absorbing: no instruction leaves it and no step is taken in it while reset is not held (R21, R170; the spec's
decision D14). -/
def Obligations.FaultedIsAbsorbing : Prop :=
  ∀ (s : State) (f : Fatal), s.status = .faulted f →
    (s.resetIn = false → step s = .fault .blockNotReady) ∧
    ∀ (i : Instr) (t : State), exec i s = .next t → t.status = .faulted f

/-- A requester that is `Halted`, with no request waiting, or `Faulted` has no step (R147, R153, R155; how the two sources of
requests compose is log entry 1, the names of the stops are log entry 29). In every state that meets the invariant a `Faulted`
requester's block is `Faulted` too and is what stops the step; the clause for a `Ready` block speaks of states no run reaches. -/
def Obligations.StoppedRequesterHasNoStep : Prop :=
  ∀ s : State, s.resetIn = false →
    (s.status = .ready → s.requests = [] → s.run = .halted → step s = .fault .requesterHalted) ∧
    (s.status = .ready → s.requests = [] → s.run = .faulted → step s = .fault .requesterFaulted) ∧
    (Inv s → s.status ≠ .inReset → s.run = .faulted → step s = .fault .blockNotReady)

/-! ### Reset -/

/-- While reset is held, every step gives every piece of state of the block and of the requester its reset value and leaves
the Backing Memory and the inputs alone (R29, R181, R182, R183; the spec's decisions D6, D17, D20; log entries 5, 10 and 30). That
the configuration and with it the sizes of the fresh lines stay until release is the model's choice (log entry 33). -/
def Obligations.ResetHeldGivesResetValues : Prop :=
  ∀ s : State, s.resetIn = true →
    ∃ t, step s = .next t ∧ t.status = .inReset ∧ t.cfg = s.cfg ∧ t.enc = s.enc ∧ t.mem = s.mem ∧ t.cfgIn = s.cfgIn ∧
      t.resetIn = s.resetIn ∧ t.requests = s.requests ∧ t.trace = [] ∧ t.resp = none ∧ t.pc = 0 ∧
      (∀ r, t.reg r = 0) ∧ t.run = .running ∧ t.lines.length = s.cfg.sets ∧
      ∀ i < s.cfg.sets, (t.ways i).length = s.cfg.ways ∧
        ∀ w < s.cfg.ways, t.line i w = { valid := false, dirty := false, tag := 0, rc := 0, data := List.replicate s.cfg.wpb 0 }

/-- When reset is released the configuration inputs are sampled and checked: the status becomes `Ready` exactly for a legal
configuration and `Faulted(ConfigError)` otherwise; every line is created invalid with zero data (R163, R181; the spec's
decisions D3, D4, D17; log entries 5, 11 and 30). That dirty, tag and counter are 0 is its decision D6, that the pc and the
registers are 0 its decision D20 (R29, R183; log entry 10). -/
def Obligations.ResetReleaseChecksTheConfiguration : Prop :=
  ∀ s : State, s.resetIn = false → s.status = .inReset →
    ∃ t, step s = .next t ∧
      t.cfg.sets = s.cfgIn.cfgSets.toNat ∧ t.cfg.ways = s.cfgIn.cfgWays.toNat ∧ t.cfg.wpb = s.cfgIn.cfgWpb.toNat ∧
      t.cfg.memWords = s.cfgIn.cfgMemWords.toNat ∧ t.enc = s.enc ∧
      (LegalGeometry t.cfg → t.status = .ready) ∧
      (¬LegalGeometry t.cfg → ∃ p, t.status = .faulted (.configError p)) ∧
      t.mem = s.mem ∧ t.trace = [] ∧ t.pc = 0 ∧ (∀ r, t.reg r = 0) ∧ t.run = .running ∧
      ∀ i < t.cfg.sets, ∀ w < t.cfg.ways,
        t.line i w = { valid := false, dirty := false, tag := 0, rc := 0, data := List.replicate t.cfg.wpb 0 }

/-- The state after reset is what releasing reset gives; its values the spec chose itself are log entries 7 and 10, its
configuration log entry 3, its encoding log entries 8 and 9. -/
def Obligations.ResetStateIsAReleasedReset : Prop :=
  ∀ s : State, s.enc = defaultEncoding → s.cfgIn = Config.inputs → s.resetIn = false → s.status = .inReset → s.mem = [] → s.requests = [] →
    step s = .next State.reset

/-! ### Invariants -/

/-- The invariant holds at reset. -/
def Obligations.ResetMeetsTheInvariant : Prop := Inv State.reset

/-- Every step keeps the invariant: canonical memory, legal configuration while `Ready`, a legal encoding, and the relations of
R30 to R34 on the Cache Store (R30 to R34 and R128, which the spec marks as its own inferences; `Inv` adds log entry 22). -/
def Obligations.StepKeepsTheInvariant : Prop :=
  ∀ s t : State, Inv s → step s = .next t → Inv t

/-- Every step keeps the meaning of the recency counters: a valid line's counter is the number of accesses served since its
block was last touched, as the trace shows (R100, which the spec marks as its own inference). -/
def Obligations.StepKeepsTheCounterMeaning : Prop :=
  ∀ s t : State, Inv s → (LegalGeometry s.cfg → CounterMeaning s) → step s = .next t →
    (LegalGeometry t.cfg → CounterMeaning t)

/-- On a miss in a full set the victim is the line whose block was touched longest ago, over all accesses to the cache (R101,
which the spec marks as its own inference). -/
def Obligations.VictimIsLeastRecentlyUsed : Prop :=
  ∀ (s : State) (i w : Nat), LegalGeometry s.cfg → CacheInv s → CounterMeaning s → i < s.cfg.sets → w < s.cfg.ways →
    (∀ w' < s.cfg.ways, (s.line i w').valid = true) → w ≠ s.selectVictim i →
    staleness s i w < staleness s i (s.selectVictim i)

/-- No instruction changes the configuration, the encoding, the inputs of reset and configuration, or the requests to come, and
the trace only grows (R11, R20, R27, R186; the spec's decision D17). -/
def Obligations.ConfigurationFixedAndTraceGrows : Prop :=
  ∀ (i : Instr) (s t : State), exec i s = .next t →
    t.cfg = s.cfg ∧ t.enc = s.enc ∧ t.cfgIn = s.cfgIn ∧ t.resetIn = s.resetIn ∧ t.requests = s.requests ∧ ∃ l, t.trace = s.trace ++ l

/-- A valid line stays valid until reset (R14; R19, which the spec marks as its own inference). -/
def Obligations.ValidLinesStayValid : Prop :=
  ∀ s t : State, Inv s → s.resetIn = false → s.status = .ready → step s = .next t →
    ∀ i < s.cfg.sets, ∀ w < s.cfg.ways, (s.line i w).valid = true → (t.line i w).valid = true

/-! ### `VIEW` and the laws of accesses -/

/-- A served read returns `VIEW(A)` and leaves `VIEW` unchanged at every address (R53 and R129, which the spec
marks as its own inferences). -/
def Obligations.ReadReturnsViewAndKeepsIt : Prop :=
  ∀ (s : State) (a d : Word), s.status = .ready → LegalGeometry s.cfg → CacheInv s → inBounds s.cfg a = true →
    ∃ t h, exec (.read a d) s = .next t ∧ t.resp = some (.readOk h (s.view a.toNat)) ∧
      ∀ b < s.cfg.memWords, t.view b = s.view b

/-- A served write sets `VIEW(A)` and leaves `VIEW` unchanged at every other address (R53, which the spec marks as its own
inference). -/
def Obligations.WriteSetsViewAtItsAddressOnly : Prop :=
  ∀ (s : State) (a v : Word), s.status = .ready → LegalGeometry s.cfg → CacheInv s → inBounds s.cfg a = true →
    ∃ t h, exec (.write a v) s = .next t ∧ t.resp = some (.writeOk h) ∧ t.view a.toNat = v ∧
      ∀ b < s.cfg.memWords, b ≠ a.toNat → t.view b = s.view b

/-- Reading the same address twice in a row yields the same value both times and the second read is a hit; right after any
served access every address of the block is resident (R126). -/
def Obligations.SecondReadHitsWithTheSameValue : Prop :=
  ∀ (s : State) (a d d' v : Word), s.status = .ready → LegalGeometry s.cfg → CacheInv s → inBounds s.cfg a = true →
    (∃ t u h x, exec (.read a d) s = .next t ∧ exec (.read a d') t = .next u ∧
      t.resp = some (.readOk h x) ∧ u.resp = some (.readOk true x) ∧
      ∀ b, blockBaseOf s.cfg b = blockBaseOf s.cfg a.toNat → t.resident b = true) ∧
    ∃ t, exec (.write a v) s = .next t ∧ ∀ b, blockBaseOf s.cfg b = blockBaseOf s.cfg a.toNat → t.resident b = true

/-- The word written is the word read back, whatever in-bounds reads, and writes to other addresses, come between, evicted and
refilled or not (R125; that evictions may come between is the spec's own inference there). -/
def Obligations.WrittenWordIsReadBack : Prop :=
  ∀ (s : State) (a v d : Word) (between : List Instr), s.status = .ready → LegalGeometry s.cfg → CacheInv s →
    inBounds s.cfg a = true →
    (∀ i ∈ between, ∃ b x, inBounds s.cfg b = true ∧ (i = .read b x ∨ (i = .write b x ∧ b ≠ a))) →
    ∃ t h, execAll (.write a v :: between ++ [.read a d]) s = .next t ∧ t.resp = some (.readOk h v)

/-- `mem` changes only by a miss in a full set whose victim is dirty, and never at the address accessed (R112, which the spec
marks as its own inference). -/
def Obligations.MemChangesOnlyByWriteback : Prop :=
  ∀ (s t : State) (a v : Word) (i : Instr), LegalGeometry s.cfg → CacheInv s → (i = .read a v ∨ i = .write a v) →
    exec i s = .next t → t.mem ≠ s.mem →
    s.resident a.toNat = false ∧
    (∀ w < s.cfg.ways, (s.line (setIndex s.cfg a.toNat) w).valid = true) ∧
    (s.line (setIndex s.cfg a.toNat) (s.selectVictim (setIndex s.cfg a.toNat))).dirty = true ∧
    t.mem.readWord a.toNat = s.mem.readWord a.toNat

/-- The values of a program do not depend on the cache: from two states of possibly different geometry that look the same to
a program, a step gives outcomes that look the same (R129, which the spec marks as its own inference). -/
def Obligations.CacheIsInvisibleToPrograms : Prop :=
  ∀ s t : State, Inv s → Inv t → s.resetIn = false → t.resetIn = false → s.status ≠ .inReset → SameView s t →
    SameOutcome (step s) (step t)

/-- Each iteration of the requester serves one access, its fetch, and `lw` and `sw` one more (R138, which the spec marks as its own
inference). -/
def Obligations.AccessesPerInstruction : Prop :=
  ∀ (s t : State), Inv s → s.resetIn = false → s.status = .ready → s.requests = [] → s.run = .running →
    step s = .next t → t.run ≠ .faulted →
    served t = served s +
      (match decodeWordWith s.enc (s.view s.pc.toNat) with
       | .lw _ _ _ => 2
       | .sw _ _ _ => 2
       | _ => 1)

/-! ### The step -/

/-- A step runs the decoded instruction: with a request waiting it takes the request from the stream and is `exec` of what
the request decodes to; else, with the requester `Running`, it is `exec` of what the fetched word decodes to under the
machine's encoding, on the state the fetch leaves (R66, R135, R136; the spec's decision D28, log entry 1). -/
def Obligations.StepRunsTheDecodedInstruction : Prop :=
  ∀ s : State, s.resetIn = false → s.status = .ready →
    (∀ r rest, s.requests = r :: rest → step s = exec (decodeWith s.enc (.request r)) { s with requests := rest }) ∧
    (s.requests = [] → s.run = .running →
      ∀ t h w, s.access opRead s.pc 0 = some (t, .readOk h w) → step s = exec (decodeWith s.enc (.word w)) t)

/-- The fetch is an ordinary READ of the pc (R136) that returns `VIEW(pc)` (R54, by R53, which the spec marks as its own
inference), and `step` is `exec` of what that word decodes to on the state `t` the READ leaves: it changes lines, `mem`, the trace
and the response as that READ does, nothing else, and `VIEW` at no in-bounds address (R53). That a fetch takes place only where no
request waits is the model's choice (log entry 1). -/
def Obligations.FetchReadsTheViewAtPc : Prop :=
  ∀ s : State, Inv s → s.resetIn = false → s.status = .ready → s.requests = [] → s.run = .running →
    inBounds s.cfg s.pc = true →
    ∃ t h, s.access opRead s.pc 0 = some (t, .readOk h (s.view s.pc.toNat)) ∧
      step s = exec (decodeWordWith s.enc (s.view s.pc.toNat)) t ∧
      t = { s with lines := t.lines, mem := t.mem, trace := t.trace, resp := t.resp } ∧
      CacheInv t ∧ ∀ b < s.cfg.memWords, t.view b = s.view b

/-- Under whatever legal encoding the machine has, the word a well-formed instruction encodes to, when `VIEW` holds it at the pc,
runs as that instruction on the state the fetch leaves (R70, R71, R136; `ILAYOUT` and `OPC_*` are open parameters, R11). That the
fetch returns `VIEW(pc)` is R54, by R53, which the spec marks as its own inference. -/
def Obligations.EncodedWordRunsAsItsInstruction : Prop :=
  ∀ (s : State) (i : Instr) (w : Word), Inv s → s.resetIn = false → s.status = .ready → s.requests = [] → s.run = .running →
    inBounds s.cfg s.pc = true → i.wfWith s.enc = true → encodeWith s.enc i = .word w → s.view s.pc.toNat = w →
    ∃ t h, s.access opRead s.pc 0 = some (t, .readOk h w) ∧ step s = exec i t

/-- A fetch outside the memory ends the run: the block and the requester are `Faulted`, the pc and the registers are as before
(R136, R153; the spec's decisions D14 and D27). -/
def Obligations.FetchOutOfBoundsFaults : Prop :=
  ∀ s : State, s.resetIn = false → s.status = .ready → s.requests = [] → s.run = .running →
    inBounds s.cfg s.pc = false →
    step s = .next { s with
      status := .faulted (.outOfBounds s.pc), resp := some (.fatal (.outOfBounds s.pc)), run := .faulted }

/-- Instruction-fetch coherence (R54, by R53, which the spec marks as its own inference): the fetch is a read that returns
`VIEW(pc)`, and a store to an address is seen by the very next fetch from that address, with no fence and no cache operation. That
the stored word is `x[f0]` and the base `x[f1]` is the spec's decision D23 (log entry 12), and that the address wraps its decision
D25 (log entry 13). -/
def Obligations.StoreIsSeenByTheNextFetch : Prop :=
  ∀ s : State, Inv s → s.resetIn = false → s.status = .ready → s.requests = [] → s.run = .running →
    (inBounds s.cfg s.pc = true → ∃ u h, s.access opRead s.pc 0 = some (u, .readOk h (s.view s.pc.toNat)) ∧
      step s = exec (decodeWordWith s.enc (s.view s.pc.toNat)) u) ∧
    ∀ (f0 f1 : RegNum) (imm : Imm) (t : State), inBounds s.cfg (dataAddress s f1 imm) = true →
      exec (.sw f0 f1 imm) s = .next t → t.pc = dataAddress s f1 imm →
      ∃ u h, t.access opRead t.pc 0 = some (u, .readOk h (s.reg f0)) ∧ step t = exec (decodeWordWith s.enc (s.reg f0)) u

/-- The halt scenario (R159): one step gives `Halted`, the same pc, the same registers, the same `VIEW`, and the rest exactly as
the read of the pc leaves it. That the pc is the same is the spec's decision D26 (R147; log entry 17). -/
def Obligations.HaltStopsWithoutFurtherMutation : Prop :=
  ∀ s : State, Inv s → s.resetIn = false → s.status = .ready → s.requests = [] → s.run = .running →
    inBounds s.cfg s.pc = true → opcodeField s.enc.layout (s.view s.pc.toNat) = s.enc.opc.halt →
    ∃ t u r, s.access opRead s.pc 0 = some (u, r) ∧ step s = .next t ∧ t = { u with run := .halted } ∧
      t.run = .halted ∧ t.pc = s.pc ∧ t.regs = s.regs ∧ ∀ b < s.cfg.memWords, t.view b = s.view b

/-! ### The requester's instructions: results, each on the state its fetch leaves -/

/-- `add` (R141): the sum modulo `2^32` (the spec's decision D25, log entry 13, as is the wrap of the advanced pc) in the register
the immediate field names; that the sources are `x[f0]` and `x[f1]` is its decision D23 (log entry 12). -/
def Obligations.AddWritesTheSum : Prop :=
  ∀ (s : State) (f0 f1 d : RegNum) (imm : Imm), imm.toNat = d.toNat →
    ∃ t, exec (.add f0 f1 imm) s = .next t ∧ t = { s with pc := s.pc + 1, regs := t.regs } ∧
      (t.reg d).toNat = ((s.reg f0).toNat + (s.reg f1).toNat) % 2 ^ 32 ∧ ∀ r, r ≠ d → t.reg r = s.reg r

/-- `nand` (R142): bit by bit the negated conjunction, in the register the immediate field names; equal source fields give the
complement. That the sources are `x[f0]` and `x[f1]` is the spec's decision D23 (log entry 12), and that the advanced pc (R137)
wraps modulo `2^32` its decision D25 (log entry 13). -/
def Obligations.NandWritesTheNegatedConjunction : Prop :=
  ∀ (s : State) (f0 f1 d : RegNum) (imm : Imm), imm.toNat = d.toNat →
    ∃ t, exec (.nand f0 f1 imm) s = .next t ∧ t = { s with pc := s.pc + 1, regs := t.regs } ∧
      (∀ k < 32, (t.reg d).getLsbD k = !((s.reg f0).getLsbD k && (s.reg f1).getLsbD k)) ∧
      (f0 = f1 → t.reg d = ~~~(s.reg f0)) ∧ ∀ r, r ≠ d → t.reg r = s.reg r

/-- `add` and `nand` whose immediate field is above 7 have no meaning (R154; the spec's decision D24). -/
def Obligations.DestinationAboveSevenIsRefused : Prop :=
  ∀ (s : State) (f0 f1 : RegNum) (imm : Imm), 7 < imm.toNat →
    exec (.add f0 f1 imm) s = .refused (.destinationNamesNoRegister imm) ∧
    exec (.nand f0 f1 imm) s = .refused (.destinationNamesNoRegister imm)

/-- `lw` (R143): the word a READ of base plus sign-extended offset returns, in the register `f0`. That this word is what `VIEW`
holds there, and that `VIEW` stays at every in-bounds address, rests on R53 and R129, which the spec marks as its own inferences;
that the base is `x[f1]` and the destination `x[f0]` is its decision D23 (log entry 12), and that the address and the pc wrap
modulo `2^32` its decision D25 (log entry 13). On the block, on `mem`, on the trace and on the response the access is a READ of
that address (R12). -/
def Obligations.LwLoadsTheViewedWord : Prop :=
  ∀ (s : State) (f0 f1 : RegNum) (imm : Imm) (a : Word), s.status = .ready → LegalGeometry s.cfg → CacheInv s →
    a = BitVec.ofInt 32 ((s.reg f1).toInt + signedOffset imm) →
    inBounds s.cfg a = true →
    ∃ t, exec (.lw f0 f1 imm) s = .next t ∧ t.pc = s.pc + 1 ∧ t.reg f0 = s.view a.toNat ∧
      (∀ r, r ≠ f0 → t.reg r = s.reg r) ∧ t.run = s.run ∧ t.status = s.status ∧
      (∀ b < s.cfg.memWords, t.view b = s.view b) ∧ served t = served s + 1 ∧
      ∀ d, ∃ u, exec (.read a d) s = .next u ∧ t = { u with pc := s.pc + 1, regs := t.regs }

/-- `sw` (R144): a WRITE of the register `f0` to base plus sign-extended offset; no register is written. That `VIEW` then holds
that word there and stays at every other in-bounds address rests on R53, which the spec marks as its own inference; that the base
is `x[f1]` and the stored register `x[f0]` is its decision D23 (log entry 12), and that the address and the pc wrap modulo `2^32`
its decision D25 (log entry 13). On the block, on `mem`, on the trace and on the response the access is a WRITE of the register
`f0` to that address (R12). -/
def Obligations.SwStoresIntoTheView : Prop :=
  ∀ (s : State) (f0 f1 : RegNum) (imm : Imm) (a : Word), s.status = .ready → LegalGeometry s.cfg → CacheInv s →
    a = BitVec.ofInt 32 ((s.reg f1).toInt + signedOffset imm) →
    inBounds s.cfg a = true →
    ∃ t, exec (.sw f0 f1 imm) s = .next t ∧ t.pc = s.pc + 1 ∧ t.regs = s.regs ∧ t.run = s.run ∧ t.status = s.status ∧
      t.view a.toNat = s.reg f0 ∧ (∀ b < s.cfg.memWords, b ≠ a.toNat → t.view b = s.view b) ∧ served t = served s + 1 ∧
      ∃ u, exec (.write a (s.reg f0)) s = .next u ∧ t = { u with pc := s.pc + 1 }

/-- `lw` and `sw` outside the memory: the block and the requester are `Faulted`, the pc is already advanced, no register is
written and the cache is as the fetch left it (R153; the spec's decisions D14 and D27). -/
def Obligations.DataAccessOutOfBoundsFaults : Prop :=
  ∀ (s : State) (f0 f1 : RegNum) (imm : Imm), s.status = .ready → inBounds s.cfg (dataAddress s f1 imm) = false →
    exec (.lw f0 f1 imm) s = .next { s with
      pc := s.pc + 1, status := .faulted (.outOfBounds (dataAddress s f1 imm)),
      resp := some (.fatal (.outOfBounds (dataAddress s f1 imm))), run := .faulted } ∧
    exec (.sw f0 f1 imm) s = .next { s with
      pc := s.pc + 1, status := .faulted (.outOfBounds (dataAddress s f1 imm)),
      resp := some (.fatal (.outOfBounds (dataAddress s f1 imm))), run := .faulted }

/-- `beq` (R145): taken exactly when the two registers are equal, to the advanced pc plus the sign-extended offset (modulo
`2^32`, D25); nothing else changes. -/
def Obligations.BeqBranchesWhenEqual : Prop :=
  ∀ (s : State) (f0 f1 : RegNum) (imm : Imm),
    exec (.beq f0 f1 imm) s = .next { s with
      pc := if s.reg f0 = s.reg f1
        then BitVec.ofInt 32 (s.pc.toInt + 1 + signedOffset imm)
        else s.pc + 1 }

/-- `jalr` (R146): with different fields the advanced pc is linked into `f0` and the pc becomes the register `f1`; with equal
fields nothing is written beyond the advance; a target out of bounds is fatal at the next fetch. What that fatal fetch leaves is the
spec's decisions D14 and D27 (log entries 4 and 18), and that the linked pc wraps its decision D25 (log entry 13). -/
def Obligations.JalrLinksAndJumpsUnlessFieldsEqual : Prop :=
  ∀ (s : State) (f0 f1 : RegNum) (imm : Imm),
    (f0 ≠ f1 → ∃ t, exec (.jalr f0 f1 imm) s = .next t ∧ t = { s with pc := s.reg f1, regs := t.regs } ∧
      t.reg f0 = s.pc + 1 ∧ (∀ r, r ≠ f0 → t.reg r = s.reg r) ∧
      (s.resetIn = false → s.status = .ready → s.requests = [] → s.run = .running →
        inBounds s.cfg (s.reg f1) = false → step t = .next { t with
          status := .faulted (.outOfBounds (s.reg f1)), resp := some (.fatal (.outOfBounds (s.reg f1))),
          run := .faulted })) ∧
    (f0 = f1 → exec (.jalr f0 f1 imm) s = .next { s with pc := s.pc + 1 })

/-- `halt` (R147): the run state becomes `Halted` and nothing else changes, the pc included (the spec's decision D26). -/
def Obligations.HaltChangesTheRunStateOnly : Prop :=
  ∀ (s : State) (f0 f1 : RegNum) (imm : Imm), exec (.halt f0 f1 imm) s = .next { s with run := .halted }

/-- `noop` and every other opcode (R148, R149): the whole effect of the iteration is the fetch access and the advance of the
pc, which wraps modulo `2^32` by the spec's decision D25 (log entry 13). -/
def Obligations.NoopAndOtherOpcodesOnlyAdvance : Prop :=
  (∀ (s : State) (op : Opcode) (f0 f1 : RegNum) (imm : Imm),
    exec (.noop f0 f1 imm) s = .next { s with pc := s.pc + 1 } ∧
    exec (.otherOpcode op f0 f1 imm) s = .next { s with pc := s.pc + 1 }) ∧
  ∀ (s t : State) (h : Bool) (w : Word), s.resetIn = false → s.status = .ready → s.requests = [] → s.run = .running →
    s.access opRead s.pc 0 = some (t, .readOk h w) →
    (s.enc.Legal ∧ opcodeField s.enc.layout w = s.enc.opc.noop ∨ opcodeField s.enc.layout w ∉ s.enc.opc.all) →
    step s = .next { t with pc := s.pc + 1 }

/-! ### Frames -/

/-- The frame of the register instructions `add`, `nand`, `beq`, `jalr`, `halt`, `noop` and every other opcode: no register but
the destination of `add` and `nand` (the immediate field) and of `jalr` (`f0`), the run state by `halt` alone, and nothing of the
block, of the memory (every byte) or of the interfaces. That `mem` and `VIEW` have a value outside the memory at all is the
model's choice (R22, R52; log entry 36). -/
def Obligations.RegisterInstructionsFrame : Prop :=
  ∀ (s t : State) (i : Instr) (op : Opcode) (f0 f1 : RegNum) (imm : Imm),
    (i = .add f0 f1 imm ∨ i = .nand f0 f1 imm ∨ i = .beq f0 f1 imm ∨ i = .jalr f0 f1 imm ∨ i = .halt f0 f1 imm ∨
      i = .noop f0 f1 imm ∨ i = .otherOpcode op f0 f1 imm) →
    exec i s = .next t →
    (∀ r : RegNum, ¬((i = .add f0 f1 imm ∨ i = .nand f0 f1 imm) ∧ imm.toNat = r.toNat) → ¬(i = .jalr f0 f1 imm ∧ r = f0) →
      t.reg r = s.reg r) ∧
    (i ≠ .halt f0 f1 imm → t.run = s.run) ∧
    t.cfg = s.cfg ∧ t.enc = s.enc ∧ t.cfgIn = s.cfgIn ∧ t.resetIn = s.resetIn ∧ t.status = s.status ∧ t.lines = s.lines ∧
    t.trace = s.trace ∧ t.requests = s.requests ∧ t.resp = s.resp ∧ (∀ k, t.mem.readByte k = s.mem.readByte k) ∧
    ∀ b, t.view b = s.view b

/-- The frame of `lw` and `sw`: no register but `f0` of `lw`; of `VIEW` only the word `sw` stores to (R53, which the spec marks as
its own inference); of `mem` only the block of the victim of the address's set, and nothing where the address is resident or the
victim needs no write-back (R112); of the lines only the touched one, but for ageing; nothing of block, `mem` and trace where the
address is out of bounds (R127, which the spec marks as its own inference, as it does R112; the addresses wrap by D25; the fatal
access is D14 and D27). That `mem` has a value outside the memory at all is the model's choice (R22; log entry 36). -/
def Obligations.LoadStoreFrame : Prop :=
  ∀ (s t : State) (i : Instr) (f0 f1 : RegNum) (imm : Imm), LegalGeometry s.cfg → CacheInv s →
    (i = .lw f0 f1 imm ∨ i = .sw f0 f1 imm) → exec i s = .next t →
    (∀ r, ¬(i = .lw f0 f1 imm ∧ r = f0) → t.reg r = s.reg r) ∧
    t.cfg = s.cfg ∧ t.enc = s.enc ∧ t.cfgIn = s.cfgIn ∧ t.resetIn = s.resetIn ∧ t.requests = s.requests ∧
    (inBounds s.cfg (dataAddress s f1 imm) = true → t.run = s.run ∧ t.status = s.status) ∧
    (∀ b < s.cfg.memWords, ¬(i = .sw f0 f1 imm ∧ b = (dataAddress s f1 imm).toNat) → t.view b = s.view b) ∧
    (∀ k, t.mem.readByte k ≠ s.mem.readByte k →
      s.lineBase (setIndex s.cfg (dataAddress s f1 imm).toNat)
          (s.selectVictim (setIndex s.cfg (dataAddress s f1 imm).toNat)) ≤ k / 4 ∧
        k / 4 < s.lineBase (setIndex s.cfg (dataAddress s f1 imm).toNat)
          (s.selectVictim (setIndex s.cfg (dataAddress s f1 imm).toNat)) + s.cfg.wpb) ∧
    (s.resident (dataAddress s f1 imm).toNat = true ∨
      needsWriteback (s.line (setIndex s.cfg (dataAddress s f1 imm).toNat)
        (s.selectVictim (setIndex s.cfg (dataAddress s f1 imm).toNat))) = false → t.mem = s.mem) ∧
    (inBounds s.cfg (dataAddress s f1 imm) = false → t.lines = s.lines ∧ t.trace = s.trace ∧ t.mem = s.mem) ∧
    (inBounds s.cfg (dataAddress s f1 imm) = true →
      (t.line (setIndex s.cfg (dataAddress s f1 imm).toNat) (touchedWay s (dataAddress s f1 imm).toNat)).rc = 0 ∧
      ∀ i' < s.cfg.sets, ∀ w' < s.cfg.ways,
        ¬(i' = setIndex s.cfg (dataAddress s f1 imm).toNat ∧ w' = touchedWay s (dataAddress s f1 imm).toNat) →
        t.line i' w' = { s.line i' w' with rc := (s.line i' w').rc + 1 })

/-- The frame of the requests READ, WRITE and the reserved codes (R24, R25; R127 and R112, which the spec marks as its own
inferences): nothing of the requester (its run state on a fatal condition: log entry 32); of `VIEW` only the word WRITE stores to
(R53, an inference of the spec too); of `mem` only the block of the victim of the address's set, and nothing where the address is
resident, the victim needs no write-back or the access is fatal; of the lines only the touched one, but for ageing, and none where
the access is fatal. That `mem` has a value outside the memory at all is the model's choice (R22; log entry 36). -/
def Obligations.RequestsFrame : Prop :=
  ∀ (s t : State) (i : Instr) (a v : Word), LegalGeometry s.cfg → CacheInv s →
    (i = .read a v ∨ i = .write a v ∨ i = .reservedOp10 a v ∨ i = .reservedOp11 a v) → exec i s = .next t →
    t.pc = s.pc ∧ t.regs = s.regs ∧ t.run = s.run ∧ t.cfg = s.cfg ∧ t.enc = s.enc ∧ t.cfgIn = s.cfgIn ∧
    t.resetIn = s.resetIn ∧ t.requests = s.requests ∧
    (inBounds s.cfg a = true → (i = .read a v ∨ i = .write a v) → t.status = s.status) ∧
    (∀ b < s.cfg.memWords, ¬(i = .write a v ∧ b = a.toNat) → t.view b = s.view b) ∧
    (∀ k, t.mem.readByte k ≠ s.mem.readByte k →
      inBounds s.cfg a = true ∧ (i = .read a v ∨ i = .write a v) ∧
      s.lineBase (setIndex s.cfg a.toNat) (s.selectVictim (setIndex s.cfg a.toNat)) ≤ k / 4 ∧
        k / 4 < s.lineBase (setIndex s.cfg a.toNat) (s.selectVictim (setIndex s.cfg a.toNat)) + s.cfg.wpb) ∧
    (s.resident a.toNat = true ∨
      needsWriteback (s.line (setIndex s.cfg a.toNat) (s.selectVictim (setIndex s.cfg a.toNat))) = false → t.mem = s.mem) ∧
    (¬(inBounds s.cfg a = true ∧ (i = .read a v ∨ i = .write a v)) →
      t.lines = s.lines ∧ t.trace = s.trace ∧ t.mem = s.mem) ∧
    (inBounds s.cfg a = true ∧ (i = .read a v ∨ i = .write a v) →
      (t.line (setIndex s.cfg a.toNat) (touchedWay s a.toNat)).rc = 0 ∧
      ∀ i' < s.cfg.sets, ∀ w' < s.cfg.ways, ¬(i' = setIndex s.cfg a.toNat ∧ w' = touchedWay s a.toNat) →
        t.line i' w' = { s.line i' w' with rc := (s.line i' w').rc + 1 })
end

