-- ==== Sys2Proof/Laws/State.lean ====
section
/-! SUPPORT. One lemma per field per update of the state, so that no proof unfolds a record update. -/

namespace Sys2Proof.Machine

/-- The line a fill leaves (R109). -/
def filledLine (s : State) (i t : Nat) : Line :=
  { valid := true, dirty := false, tag := t, rc := 0, data := s.mem.readBlock (blockBase s.cfg t i) s.cfg.wpb }

section
variable (s : State)

/-! `setReg` -/

@[simp] theorem State.setReg_cfg (r : RegNum) (v : Word) : (s.setReg r v).cfg = s.cfg := rfl
@[simp] theorem State.setReg_enc (r : RegNum) (v : Word) : (s.setReg r v).enc = s.enc := rfl
@[simp] theorem State.setReg_cfgIn (r : RegNum) (v : Word) : (s.setReg r v).cfgIn = s.cfgIn := rfl
@[simp] theorem State.setReg_resetIn (r : RegNum) (v : Word) : (s.setReg r v).resetIn = s.resetIn := rfl
@[simp] theorem State.setReg_status (r : RegNum) (v : Word) : (s.setReg r v).status = s.status := rfl
@[simp] theorem State.setReg_lines (r : RegNum) (v : Word) : (s.setReg r v).lines = s.lines := rfl
@[simp] theorem State.setReg_mem (r : RegNum) (v : Word) : (s.setReg r v).mem = s.mem := rfl
@[simp] theorem State.setReg_trace (r : RegNum) (v : Word) : (s.setReg r v).trace = s.trace := rfl
@[simp] theorem State.setReg_requests (r : RegNum) (v : Word) : (s.setReg r v).requests = s.requests := rfl
@[simp] theorem State.setReg_resp (r : RegNum) (v : Word) : (s.setReg r v).resp = s.resp := rfl
@[simp] theorem State.setReg_pc (r : RegNum) (v : Word) : (s.setReg r v).pc = s.pc := rfl
@[simp] theorem State.setReg_regs (r : RegNum) (v : Word) : (s.setReg r v).regs = s.regs.set r.toNat v r.isLt := rfl
@[simp] theorem State.setReg_run (r : RegNum) (v : Word) : (s.setReg r v).run = s.run := rfl

/-! `setPc` -/

@[simp] theorem State.setPc_cfg (v : Word) : (s.setPc v).cfg = s.cfg := rfl
@[simp] theorem State.setPc_enc (v : Word) : (s.setPc v).enc = s.enc := rfl
@[simp] theorem State.setPc_cfgIn (v : Word) : (s.setPc v).cfgIn = s.cfgIn := rfl
@[simp] theorem State.setPc_resetIn (v : Word) : (s.setPc v).resetIn = s.resetIn := rfl
@[simp] theorem State.setPc_status (v : Word) : (s.setPc v).status = s.status := rfl
@[simp] theorem State.setPc_lines (v : Word) : (s.setPc v).lines = s.lines := rfl
@[simp] theorem State.setPc_mem (v : Word) : (s.setPc v).mem = s.mem := rfl
@[simp] theorem State.setPc_trace (v : Word) : (s.setPc v).trace = s.trace := rfl
@[simp] theorem State.setPc_requests (v : Word) : (s.setPc v).requests = s.requests := rfl
@[simp] theorem State.setPc_resp (v : Word) : (s.setPc v).resp = s.resp := rfl
@[simp] theorem State.setPc_pc (v : Word) : (s.setPc v).pc = v := rfl
@[simp] theorem State.setPc_regs (v : Word) : (s.setPc v).regs = s.regs := rfl
@[simp] theorem State.setPc_run (v : Word) : (s.setPc v).run = s.run := rfl

/-! `advancePc` -/

@[simp] theorem State.advancePc_cfg : (s.advancePc).cfg = s.cfg := rfl
@[simp] theorem State.advancePc_enc : (s.advancePc).enc = s.enc := rfl
@[simp] theorem State.advancePc_cfgIn : (s.advancePc).cfgIn = s.cfgIn := rfl
@[simp] theorem State.advancePc_resetIn : (s.advancePc).resetIn = s.resetIn := rfl
@[simp] theorem State.advancePc_status : (s.advancePc).status = s.status := rfl
@[simp] theorem State.advancePc_lines : (s.advancePc).lines = s.lines := rfl
@[simp] theorem State.advancePc_mem : (s.advancePc).mem = s.mem := rfl
@[simp] theorem State.advancePc_trace : (s.advancePc).trace = s.trace := rfl
@[simp] theorem State.advancePc_requests : (s.advancePc).requests = s.requests := rfl
@[simp] theorem State.advancePc_resp : (s.advancePc).resp = s.resp := rfl
@[simp] theorem State.advancePc_pc : (s.advancePc).pc = s.pc + 1 := rfl
@[simp] theorem State.advancePc_regs : (s.advancePc).regs = s.regs := rfl
@[simp] theorem State.advancePc_run : (s.advancePc).run = s.run := rfl

/-! `setRun` -/

@[simp] theorem State.setRun_cfg (r : RunState) : (s.setRun r).cfg = s.cfg := rfl
@[simp] theorem State.setRun_enc (r : RunState) : (s.setRun r).enc = s.enc := rfl
@[simp] theorem State.setRun_cfgIn (r : RunState) : (s.setRun r).cfgIn = s.cfgIn := rfl
@[simp] theorem State.setRun_resetIn (r : RunState) : (s.setRun r).resetIn = s.resetIn := rfl
@[simp] theorem State.setRun_status (r : RunState) : (s.setRun r).status = s.status := rfl
@[simp] theorem State.setRun_lines (r : RunState) : (s.setRun r).lines = s.lines := rfl
@[simp] theorem State.setRun_mem (r : RunState) : (s.setRun r).mem = s.mem := rfl
@[simp] theorem State.setRun_trace (r : RunState) : (s.setRun r).trace = s.trace := rfl
@[simp] theorem State.setRun_requests (r : RunState) : (s.setRun r).requests = s.requests := rfl
@[simp] theorem State.setRun_resp (r : RunState) : (s.setRun r).resp = s.resp := rfl
@[simp] theorem State.setRun_pc (r : RunState) : (s.setRun r).pc = s.pc := rfl
@[simp] theorem State.setRun_regs (r : RunState) : (s.setRun r).regs = s.regs := rfl
@[simp] theorem State.setRun_run (r : RunState) : (s.setRun r).run = r := rfl

/-! `emit` -/

@[simp] theorem State.emit_cfg (k : EventKind) (a n : Nat) : (s.emit k a n).cfg = s.cfg := rfl
@[simp] theorem State.emit_enc (k : EventKind) (a n : Nat) : (s.emit k a n).enc = s.enc := rfl
@[simp] theorem State.emit_cfgIn (k : EventKind) (a n : Nat) : (s.emit k a n).cfgIn = s.cfgIn := rfl
@[simp] theorem State.emit_resetIn (k : EventKind) (a n : Nat) : (s.emit k a n).resetIn = s.resetIn := rfl
@[simp] theorem State.emit_status (k : EventKind) (a n : Nat) : (s.emit k a n).status = s.status := rfl
@[simp] theorem State.emit_lines (k : EventKind) (a n : Nat) : (s.emit k a n).lines = s.lines := rfl
@[simp] theorem State.emit_mem (k : EventKind) (a n : Nat) : (s.emit k a n).mem = s.mem := rfl
@[simp] theorem State.emit_trace (k : EventKind) (a n : Nat) : (s.emit k a n).trace = s.trace ++ [{ kind := k, addr := a, size := n }] := rfl
@[simp] theorem State.emit_requests (k : EventKind) (a n : Nat) : (s.emit k a n).requests = s.requests := rfl
@[simp] theorem State.emit_resp (k : EventKind) (a n : Nat) : (s.emit k a n).resp = s.resp := rfl
@[simp] theorem State.emit_pc (k : EventKind) (a n : Nat) : (s.emit k a n).pc = s.pc := rfl
@[simp] theorem State.emit_regs (k : EventKind) (a n : Nat) : (s.emit k a n).regs = s.regs := rfl
@[simp] theorem State.emit_run (k : EventKind) (a n : Nat) : (s.emit k a n).run = s.run := rfl

/-! `respond` -/

@[simp] theorem State.respond_cfg (r : Response) : (s.respond r).cfg = s.cfg := rfl
@[simp] theorem State.respond_enc (r : Response) : (s.respond r).enc = s.enc := rfl
@[simp] theorem State.respond_cfgIn (r : Response) : (s.respond r).cfgIn = s.cfgIn := rfl
@[simp] theorem State.respond_resetIn (r : Response) : (s.respond r).resetIn = s.resetIn := rfl
@[simp] theorem State.respond_status (r : Response) : (s.respond r).status = s.status := rfl
@[simp] theorem State.respond_lines (r : Response) : (s.respond r).lines = s.lines := rfl
@[simp] theorem State.respond_mem (r : Response) : (s.respond r).mem = s.mem := rfl
@[simp] theorem State.respond_trace (r : Response) : (s.respond r).trace = s.trace := rfl
@[simp] theorem State.respond_requests (r : Response) : (s.respond r).requests = s.requests := rfl
@[simp] theorem State.respond_resp (r : Response) : (s.respond r).resp = some r := rfl
@[simp] theorem State.respond_pc (r : Response) : (s.respond r).pc = s.pc := rfl
@[simp] theorem State.respond_regs (r : Response) : (s.respond r).regs = s.regs := rfl
@[simp] theorem State.respond_run (r : Response) : (s.respond r).run = s.run := rfl

/-! `raiseFatal` -/

@[simp] theorem State.raiseFatal_cfg (f : Fatal) : (s.raiseFatal f).cfg = s.cfg := rfl
@[simp] theorem State.raiseFatal_enc (f : Fatal) : (s.raiseFatal f).enc = s.enc := rfl
@[simp] theorem State.raiseFatal_cfgIn (f : Fatal) : (s.raiseFatal f).cfgIn = s.cfgIn := rfl
@[simp] theorem State.raiseFatal_resetIn (f : Fatal) : (s.raiseFatal f).resetIn = s.resetIn := rfl
@[simp] theorem State.raiseFatal_status (f : Fatal) : (s.raiseFatal f).status = .faulted f := rfl
@[simp] theorem State.raiseFatal_lines (f : Fatal) : (s.raiseFatal f).lines = s.lines := rfl
@[simp] theorem State.raiseFatal_mem (f : Fatal) : (s.raiseFatal f).mem = s.mem := rfl
@[simp] theorem State.raiseFatal_trace (f : Fatal) : (s.raiseFatal f).trace = s.trace := rfl
@[simp] theorem State.raiseFatal_requests (f : Fatal) : (s.raiseFatal f).requests = s.requests := rfl
@[simp] theorem State.raiseFatal_resp (f : Fatal) : (s.raiseFatal f).resp = some (.fatal f) := rfl
@[simp] theorem State.raiseFatal_pc (f : Fatal) : (s.raiseFatal f).pc = s.pc := rfl
@[simp] theorem State.raiseFatal_regs (f : Fatal) : (s.raiseFatal f).regs = s.regs := rfl
@[simp] theorem State.raiseFatal_run (f : Fatal) : (s.raiseFatal f).run = s.run := rfl

/-! `setLine` -/

@[simp] theorem State.setLine_cfg (i w : Nat) (l : Line) : (s.setLine i w l).cfg = s.cfg := rfl
@[simp] theorem State.setLine_enc (i w : Nat) (l : Line) : (s.setLine i w l).enc = s.enc := rfl
@[simp] theorem State.setLine_cfgIn (i w : Nat) (l : Line) : (s.setLine i w l).cfgIn = s.cfgIn := rfl
@[simp] theorem State.setLine_resetIn (i w : Nat) (l : Line) : (s.setLine i w l).resetIn = s.resetIn := rfl
@[simp] theorem State.setLine_status (i w : Nat) (l : Line) : (s.setLine i w l).status = s.status := rfl
@[simp] theorem State.setLine_lines (i w : Nat) (l : Line) : (s.setLine i w l).lines = s.lines.set i ((s.ways i).set w l) := rfl
@[simp] theorem State.setLine_mem (i w : Nat) (l : Line) : (s.setLine i w l).mem = s.mem := rfl
@[simp] theorem State.setLine_trace (i w : Nat) (l : Line) : (s.setLine i w l).trace = s.trace := rfl
@[simp] theorem State.setLine_requests (i w : Nat) (l : Line) : (s.setLine i w l).requests = s.requests := rfl
@[simp] theorem State.setLine_resp (i w : Nat) (l : Line) : (s.setLine i w l).resp = s.resp := rfl
@[simp] theorem State.setLine_pc (i w : Nat) (l : Line) : (s.setLine i w l).pc = s.pc := rfl
@[simp] theorem State.setLine_regs (i w : Nat) (l : Line) : (s.setLine i w l).regs = s.regs := rfl
@[simp] theorem State.setLine_run (i w : Nat) (l : Line) : (s.setLine i w l).run = s.run := rfl

/-! `ageAll` -/

@[simp] theorem State.ageAll_cfg : (s.ageAll).cfg = s.cfg := rfl
@[simp] theorem State.ageAll_enc : (s.ageAll).enc = s.enc := rfl
@[simp] theorem State.ageAll_cfgIn : (s.ageAll).cfgIn = s.cfgIn := rfl
@[simp] theorem State.ageAll_resetIn : (s.ageAll).resetIn = s.resetIn := rfl
@[simp] theorem State.ageAll_status : (s.ageAll).status = s.status := rfl
@[simp] theorem State.ageAll_lines : (s.ageAll).lines = s.lines.map fun ls => ls.map ageLine := rfl
@[simp] theorem State.ageAll_mem : (s.ageAll).mem = s.mem := rfl
@[simp] theorem State.ageAll_trace : (s.ageAll).trace = s.trace := rfl
@[simp] theorem State.ageAll_requests : (s.ageAll).requests = s.requests := rfl
@[simp] theorem State.ageAll_resp : (s.ageAll).resp = s.resp := rfl
@[simp] theorem State.ageAll_pc : (s.ageAll).pc = s.pc := rfl
@[simp] theorem State.ageAll_regs : (s.ageAll).regs = s.regs := rfl
@[simp] theorem State.ageAll_run : (s.ageAll).run = s.run := rfl

/-! `touch` -/

@[simp] theorem State.touch_cfg (i w : Nat) : (s.touch i w).cfg = s.cfg := rfl
@[simp] theorem State.touch_enc (i w : Nat) : (s.touch i w).enc = s.enc := rfl
@[simp] theorem State.touch_cfgIn (i w : Nat) : (s.touch i w).cfgIn = s.cfgIn := rfl
@[simp] theorem State.touch_resetIn (i w : Nat) : (s.touch i w).resetIn = s.resetIn := rfl
@[simp] theorem State.touch_status (i w : Nat) : (s.touch i w).status = s.status := rfl
@[simp] theorem State.touch_lines (i w : Nat) : (s.touch i w).lines = s.lines.set i ((s.ways i).set w { s.line i w with rc := 0 }) := rfl
@[simp] theorem State.touch_mem (i w : Nat) : (s.touch i w).mem = s.mem := rfl
@[simp] theorem State.touch_trace (i w : Nat) : (s.touch i w).trace = s.trace := rfl
@[simp] theorem State.touch_requests (i w : Nat) : (s.touch i w).requests = s.requests := rfl
@[simp] theorem State.touch_resp (i w : Nat) : (s.touch i w).resp = s.resp := rfl
@[simp] theorem State.touch_pc (i w : Nat) : (s.touch i w).pc = s.pc := rfl
@[simp] theorem State.touch_regs (i w : Nat) : (s.touch i w).regs = s.regs := rfl
@[simp] theorem State.touch_run (i w : Nat) : (s.touch i w).run = s.run := rfl

/-! `writeWord` -/

@[simp] theorem State.writeWord_cfg (i w o : Nat) (v : Word) : (s.writeWord i w o v).cfg = s.cfg := rfl
@[simp] theorem State.writeWord_enc (i w o : Nat) (v : Word) : (s.writeWord i w o v).enc = s.enc := rfl
@[simp] theorem State.writeWord_cfgIn (i w o : Nat) (v : Word) : (s.writeWord i w o v).cfgIn = s.cfgIn := rfl
@[simp] theorem State.writeWord_resetIn (i w o : Nat) (v : Word) : (s.writeWord i w o v).resetIn = s.resetIn := rfl
@[simp] theorem State.writeWord_status (i w o : Nat) (v : Word) : (s.writeWord i w o v).status = s.status := rfl
@[simp] theorem State.writeWord_lines (i w o : Nat) (v : Word) : (s.writeWord i w o v).lines = s.lines.set i ((s.ways i).set w (markDirty { s.line i w with data := (s.line i w).data.set o v })) := rfl
@[simp] theorem State.writeWord_mem (i w o : Nat) (v : Word) : (s.writeWord i w o v).mem = s.mem := rfl
@[simp] theorem State.writeWord_trace (i w o : Nat) (v : Word) : (s.writeWord i w o v).trace = s.trace := rfl
@[simp] theorem State.writeWord_requests (i w o : Nat) (v : Word) : (s.writeWord i w o v).requests = s.requests := rfl
@[simp] theorem State.writeWord_resp (i w o : Nat) (v : Word) : (s.writeWord i w o v).resp = s.resp := rfl
@[simp] theorem State.writeWord_pc (i w o : Nat) (v : Word) : (s.writeWord i w o v).pc = s.pc := rfl
@[simp] theorem State.writeWord_regs (i w o : Nat) (v : Word) : (s.writeWord i w o v).regs = s.regs := rfl
@[simp] theorem State.writeWord_run (i w o : Nat) (v : Word) : (s.writeWord i w o v).run = s.run := rfl

/-! `memSide` -/

@[simp] theorem State.memSide_cfg (c : MemCommand) : (s.memSide c).cfg = s.cfg := rfl
@[simp] theorem State.memSide_enc (c : MemCommand) : (s.memSide c).enc = s.enc := rfl
@[simp] theorem State.memSide_cfgIn (c : MemCommand) : (s.memSide c).cfgIn = s.cfgIn := rfl
@[simp] theorem State.memSide_resetIn (c : MemCommand) : (s.memSide c).resetIn = s.resetIn := rfl
@[simp] theorem State.memSide_status (c : MemCommand) : (s.memSide c).status = s.status := rfl
@[simp] theorem State.memSide_lines (c : MemCommand) : (s.memSide c).lines = s.lines := rfl
@[simp] theorem State.memSide_mem (c : MemCommand) : (s.memSide c).mem = (s.mem.serve s.cfg.wpb c).1 := rfl
@[simp] theorem State.memSide_trace (c : MemCommand) : (s.memSide c).trace = s.trace := rfl
@[simp] theorem State.memSide_requests (c : MemCommand) : (s.memSide c).requests = s.requests := rfl
@[simp] theorem State.memSide_resp (c : MemCommand) : (s.memSide c).resp = s.resp := rfl
@[simp] theorem State.memSide_pc (c : MemCommand) : (s.memSide c).pc = s.pc := rfl
@[simp] theorem State.memSide_regs (c : MemCommand) : (s.memSide c).regs = s.regs := rfl
@[simp] theorem State.memSide_run (c : MemCommand) : (s.memSide c).run = s.run := rfl

/-! `writeback` -/

@[simp] theorem State.writeback_cfg (i v vb : Nat) : (s.writeback i v vb).cfg = s.cfg := rfl
@[simp] theorem State.writeback_enc (i v vb : Nat) : (s.writeback i v vb).enc = s.enc := rfl
@[simp] theorem State.writeback_cfgIn (i v vb : Nat) : (s.writeback i v vb).cfgIn = s.cfgIn := rfl
@[simp] theorem State.writeback_resetIn (i v vb : Nat) : (s.writeback i v vb).resetIn = s.resetIn := rfl
@[simp] theorem State.writeback_status (i v vb : Nat) : (s.writeback i v vb).status = s.status := rfl
@[simp] theorem State.writeback_lines (i v vb : Nat) : (s.writeback i v vb).lines = s.lines := rfl
@[simp] theorem State.writeback_mem (i v vb : Nat) : (s.writeback i v vb).mem = s.mem.writeBlock vb (s.line i v).data := rfl
@[simp] theorem State.writeback_trace (i v vb : Nat) : (s.writeback i v vb).trace = s.trace ++ [{ kind := .c2m, addr := vb, size := s.cfg.wpb }] := rfl
@[simp] theorem State.writeback_requests (i v vb : Nat) : (s.writeback i v vb).requests = s.requests := rfl
@[simp] theorem State.writeback_resp (i v vb : Nat) : (s.writeback i v vb).resp = s.resp := rfl
@[simp] theorem State.writeback_pc (i v vb : Nat) : (s.writeback i v vb).pc = s.pc := rfl
@[simp] theorem State.writeback_regs (i v vb : Nat) : (s.writeback i v vb).regs = s.regs := rfl
@[simp] theorem State.writeback_run (i v vb : Nat) : (s.writeback i v vb).run = s.run := rfl

/-! `fill` -/

@[simp] theorem State.fill_cfg (i v t : Nat) : (s.fill i v t).cfg = s.cfg := rfl
@[simp] theorem State.fill_enc (i v t : Nat) : (s.fill i v t).enc = s.enc := rfl
@[simp] theorem State.fill_cfgIn (i v t : Nat) : (s.fill i v t).cfgIn = s.cfgIn := rfl
@[simp] theorem State.fill_resetIn (i v t : Nat) : (s.fill i v t).resetIn = s.resetIn := rfl
@[simp] theorem State.fill_status (i v t : Nat) : (s.fill i v t).status = s.status := rfl
@[simp] theorem State.fill_lines (i v t : Nat) : (s.fill i v t).lines = s.lines.set i ((s.ways i).set v (filledLine s i t)) := rfl
@[simp] theorem State.fill_mem (i v t : Nat) : (s.fill i v t).mem = s.mem := rfl
@[simp] theorem State.fill_trace (i v t : Nat) : (s.fill i v t).trace = s.trace ++ [{ kind := .m2c, addr := blockBase s.cfg t i, size := s.cfg.wpb }] := rfl
@[simp] theorem State.fill_requests (i v t : Nat) : (s.fill i v t).requests = s.requests := rfl
@[simp] theorem State.fill_resp (i v t : Nat) : (s.fill i v t).resp = s.resp := rfl
@[simp] theorem State.fill_pc (i v t : Nat) : (s.fill i v t).pc = s.pc := rfl
@[simp] theorem State.fill_regs (i v t : Nat) : (s.fill i v t).regs = s.regs := rfl
@[simp] theorem State.fill_run (i v t : Nat) : (s.fill i v t).run = s.run := rfl

/-! `holdReset` -/

@[simp] theorem State.holdReset_cfg : (s.holdReset).cfg = s.cfg := rfl
@[simp] theorem State.holdReset_enc : (s.holdReset).enc = s.enc := rfl
@[simp] theorem State.holdReset_cfgIn : (s.holdReset).cfgIn = s.cfgIn := rfl
@[simp] theorem State.holdReset_resetIn : (s.holdReset).resetIn = s.resetIn := rfl
@[simp] theorem State.holdReset_status : (s.holdReset).status = .inReset := rfl
@[simp] theorem State.holdReset_lines : (s.holdReset).lines = freshLines s.cfg := rfl
@[simp] theorem State.holdReset_mem : (s.holdReset).mem = s.mem := rfl
@[simp] theorem State.holdReset_trace : (s.holdReset).trace = [] := rfl
@[simp] theorem State.holdReset_requests : (s.holdReset).requests = s.requests := rfl
@[simp] theorem State.holdReset_resp : (s.holdReset).resp = none := rfl
@[simp] theorem State.holdReset_pc : (s.holdReset).pc = 0 := rfl
@[simp] theorem State.holdReset_regs : (s.holdReset).regs = Vector.replicate 8 0 := rfl
@[simp] theorem State.holdReset_run : (s.holdReset).run = .running := rfl

/-! `releaseReset` -/

@[simp] theorem State.releaseReset_cfg : (s.releaseReset).cfg = sampleConfig s.cfgIn := rfl
@[simp] theorem State.releaseReset_enc : (s.releaseReset).enc = s.enc := rfl
@[simp] theorem State.releaseReset_cfgIn : (s.releaseReset).cfgIn = s.cfgIn := rfl
@[simp] theorem State.releaseReset_resetIn : (s.releaseReset).resetIn = s.resetIn := rfl
@[simp] theorem State.releaseReset_status : (s.releaseReset).status = statusFor (sampleConfig s.cfgIn) := rfl
@[simp] theorem State.releaseReset_lines : (s.releaseReset).lines = freshLines (sampleConfig s.cfgIn) := rfl
@[simp] theorem State.releaseReset_mem : (s.releaseReset).mem = s.mem := rfl
@[simp] theorem State.releaseReset_trace : (s.releaseReset).trace = [] := rfl
@[simp] theorem State.releaseReset_requests : (s.releaseReset).requests = s.requests := rfl
@[simp] theorem State.releaseReset_resp : (s.releaseReset).resp = none := rfl
@[simp] theorem State.releaseReset_pc : (s.releaseReset).pc = 0 := rfl
@[simp] theorem State.releaseReset_regs : (s.releaseReset).regs = Vector.replicate 8 0 := rfl
@[simp] theorem State.releaseReset_run : (s.releaseReset).run = .running := rfl

end

end Sys2Proof.Machine
end

