-- ==== Sys2Proof/Laws/Address.lean ====
section
/-! SUPPORT. The Address Decoder's bit formulas as arithmetic, under a legal geometry, and the laws of its fields
(40_address_decoder.md R75, R76, R78, R79). -/

namespace Sys2Proof.Machine

open Sys2Proof.Safety

section
variable {c : Geometry}

theorem two_pow_offBits (h : LegalGeometry c) : 2 ^ offBits c = c.wpb := by
  obtain ⟨k, hk⟩ := h.wpb
  unfold offBits
  rw [hk, Nat.log2_two_pow]

theorem two_pow_setBits (h : LegalGeometry c) : 2 ^ setBits c = c.sets := by
  obtain ⟨k, hk⟩ := h.sets
  unfold setBits
  rw [hk, Nat.log2_two_pow]

theorem wpb_pos (h : LegalGeometry c) : 0 < c.wpb := by
  rw [← two_pow_offBits h]; exact Nat.two_pow_pos _

theorem sets_pos (h : LegalGeometry c) : 0 < c.sets := by
  rw [← two_pow_setBits h]; exact Nat.two_pow_pos _

/-- `blockOffset = A mod WPB` (R75). -/
theorem blockOffset_eq (h : LegalGeometry c) (a : Nat) : blockOffset c a = a % c.wpb := by
  unfold blockOffset
  rw [Nat.one_shiftLeft, Nat.and_two_pow_sub_one_eq_mod, two_pow_offBits h]

/-- `setIndex = floor(A / WPB) mod SETS` (R75). -/
theorem setIndex_eq (h : LegalGeometry c) (a : Nat) : setIndex c a = a / c.wpb % c.sets := by
  unfold setIndex
  rw [Nat.one_shiftLeft, Nat.and_two_pow_sub_one_eq_mod, two_pow_setBits h, Nat.shiftRight_eq_div_pow, two_pow_offBits h]

/-- `tag = floor(A / (WPB * SETS))` (R75). -/
theorem tagOf_eq (h : LegalGeometry c) (a : Nat) : tagOf c a = a / c.wpb / c.sets := by
  unfold tagOf
  rw [Nat.shiftRight_add, Nat.shiftRight_eq_div_pow, Nat.shiftRight_eq_div_pow, two_pow_offBits h, two_pow_setBits h]

/-- `b = (tag * SETS + setIndex) * WPB`: the `|` never carries (R76). -/
theorem blockBase_eq (h : LegalGeometry c) {t i : Nat} (hi : i < c.sets) : blockBase c t i = (t * c.sets + i) * c.wpb := by
  unfold blockBase
  have hi' : i < 2 ^ setBits c := by rwa [two_pow_setBits h]
  rw [← Nat.shiftLeft_add_eq_or_of_lt hi', Nat.shiftLeft_eq, Nat.shiftLeft_eq, two_pow_setBits h, two_pow_offBits h]

theorem setIndex_lt (h : LegalGeometry c) (a : Nat) : setIndex c a < c.sets := by
  rw [setIndex_eq h]; exact Nat.mod_lt _ (sets_pos h)

theorem blockOffset_lt (h : LegalGeometry c) (a : Nat) : blockOffset c a < c.wpb := by
  rw [blockOffset_eq h]; exact Nat.mod_lt _ (wpb_pos h)

/-- The block number `tag * SETS + setIndex` is `A / WPB`. -/
theorem tag_mul_add_setIndex (h : LegalGeometry c) (a : Nat) : tagOf c a * c.sets + setIndex c a = a / c.wpb := by
  rw [tagOf_eq h, setIndex_eq h]
  exact Nat.div_add_mod' _ _

/-- The fields of the address that lies `o` words into the block of tag `t` in set `i`. -/
theorem fields_of_block (h : LegalGeometry c) {t i o : Nat} (hi : i < c.sets) (ho : o < c.wpb) :
    tagOf c (blockBase c t i + o) = t ∧ setIndex c (blockBase c t i + o) = i ∧
      blockOffset c (blockBase c t i + o) = o := by
  have hw := wpb_pos h
  have hs := sets_pos h
  have hdiv : (blockBase c t i + o) / c.wpb = t * c.sets + i := by
    rw [blockBase_eq h hi, Nat.add_comm, Nat.add_mul_div_right _ _ hw, Nat.div_eq_of_lt ho, Nat.zero_add]
  refine ⟨?_, ?_, ?_⟩
  · rw [tagOf_eq h, hdiv, Nat.add_comm, Nat.add_mul_div_right _ _ hs, Nat.div_eq_of_lt hi, Nat.zero_add]
  · rw [setIndex_eq h, hdiv, Nat.add_comm, Nat.add_mul_mod_self_right, Nat.mod_eq_of_lt hi]
  · rw [blockOffset_eq h, blockBase_eq h hi, Nat.add_comm, Nat.add_mul_mod_self_right, Nat.mod_eq_of_lt ho]

/-- A multiple of `WPB` below the capacity leaves room for a whole block (R79). -/
theorem block_fits (h : LegalGeometry c) {n : Nat} (hn : n * c.wpb < c.memWords) : n * c.wpb + c.wpb ≤ c.memWords := by
  have hm := Nat.div_add_mod c.memWords c.wpb
  rw [h.memBlocks, Nat.add_zero] at hm
  rw [← hm, Nat.mul_comm] at hn
  have : n < c.memWords / c.wpb := Nat.lt_of_mul_lt_mul_left hn
  rw [← hm]
  calc n * c.wpb + c.wpb = c.wpb * (n + 1) := by ring
    _ ≤ c.wpb * (c.memWords / c.wpb) := Nat.mul_le_mul_left _ this

/-- An address is its block base plus its offset (R78). -/
theorem address_split (hc : LegalGeometry c) (a : Nat) :
    a = blockBase c (tagOf c a) (setIndex c a) + blockOffset c a := by
  rw [blockBase_eq hc (setIndex_lt hc a), tag_mul_add_setIndex hc, blockOffset_eq hc, Nat.div_add_mod']

/-- The block of an in-bounds address lies in bounds (R79). -/
theorem block_inside (hc : LegalGeometry c) {a : Nat} (ha : a < c.memWords) :
    blockBase c (tagOf c a) (setIndex c a) + c.wpb ≤ c.memWords := by
  have hs := address_split hc a
  rw [blockBase_eq hc (setIndex_lt hc a)] at hs ⊢
  exact block_fits hc (by omega)

/-- An address that passes the bounds check (R45), as a natural number. -/
theorem toNat_of_inBounds {a : Word} (h : inBounds c a = true) : a.toNat < c.memWords ∧ a.toNat < 2 ^ 31 := by
  simp only [inBounds, Bool.and_eq_true, decide_eq_true_eq] at h
  have := BitVec.toInt_eq_toNat_cond a
  have hlt := a.isLt
  split at this <;> omega

/-- The bounds check (R45) under a legal capacity is the unsigned comparison (D2). -/
theorem inBounds_iff (h : LegalGeometry c) (a : Word) : inBounds c a = true ↔ a.toNat < c.memWords := by
  refine ⟨fun hb => (toNat_of_inBounds hb).1, fun hb => ?_⟩
  have hm := h.memMax
  simp only [inBounds, Bool.and_eq_true, decide_eq_true_eq]
  have := BitVec.toInt_eq_toNat_cond a
  split at this <;> omega

end

end Sys2Proof.Machine
end

