-- ==== Sys2Proof/Laws/Memory.lean ====
section
/-! SUPPORT. The laws of the Backing Memory: a read after a write, byte, word and block; every operation keeps the canonical
form. -/

namespace Sys2Proof.Machine

/-! ### Bytes -/

theorem Memory.readByte_filter (j k : Nat) (m : Memory) :
    Memory.readByte j (m.filter (fun c => c.1 ≠ k)) = if j = k then Memory.unlisted else m.readByte j := by
  induction m with
  | nil => simp [Memory.readByte]
  | cons c m ih =>
    by_cases hc : c.1 = k
    · rw [List.filter_cons_of_neg (by simp [hc]), ih]
      by_cases hj : j = k
      · simp [hj]
      · simp [hj, Memory.readByte, hc, Ne.symm hj]
    · rw [List.filter_cons_of_pos (by simp [hc])]
      by_cases hj : c.1 = j
      · have : ¬ j = k := fun h => hc (hj.trans h)
        simp [Memory.readByte, hj, this]
      · rw [Memory.readByte, if_neg hj, ih, Memory.readByte, if_neg hj]

theorem Memory.readByte_insertCell (j k : Nat) (v : Byte) (m : Memory) (hk : ∀ c ∈ m, c.1 ≠ k) :
    (m.insertCell k v).readByte j = if j = k then v else m.readByte j := by
  induction m with
  | nil => by_cases h : j = k <;> simp [Memory.insertCell, Memory.readByte, h, eq_comm]
  | cons c m ih =>
    have hc : c.1 ≠ k := hk c (by simp)
    have ih := ih fun d hd => hk d (by simp [hd])
    unfold Memory.insertCell
    by_cases hlt : k < c.1
    · by_cases h : j = k
      · simp [hlt, Memory.readByte, h]
      · simp [hlt, Memory.readByte, h, Ne.symm h]
    · by_cases hj : c.1 = j
      · have : ¬ j = k := fun h => hc (hj.trans h)
        rw [if_neg hlt, if_neg this, Memory.readByte, if_pos hj, Memory.readByte, if_pos hj]
      · rw [if_neg hlt, Memory.readByte, if_neg hj, ih, Memory.readByte, if_neg hj]

/-- A byte read after a byte written. -/
theorem Memory.readByte_writeByte (j k : Nat) (v : Byte) (m : Memory) :
    (m.writeByte k v).readByte j = if j = k then v else m.readByte j := by
  unfold Memory.writeByte
  split
  · next h => rw [Memory.readByte_filter, h]
  · rw [Memory.readByte_insertCell _ _ _ _ (by simp), Memory.readByte_filter]
    split <;> rfl

/-! ### The canonical form -/

theorem Memory.wf_cons (c : Host.Cell) (m : Memory) :
    Memory.wf (c :: m) = true ↔ c.2 ≠ Memory.unlisted ∧ (∀ d ∈ m, c.1 < d.1) ∧ Memory.wf m = true := by
  induction m generalizing c with
  | nil => simp [Memory.wf]
  | cons d m ih =>
    simp only [Memory.wf, Bool.and_eq_true, decide_eq_true_eq, List.mem_cons, forall_eq_or_imp]
    constructor
    · rintro ⟨⟨h1, h2⟩, h3⟩
      refine ⟨h1, ⟨h2, fun e he => ?_⟩, h3⟩
      exact h2.trans (((ih d).1 h3).2.1 e he)
    · rintro ⟨h1, ⟨h2, _⟩, h3⟩
      exact ⟨⟨h1, h2⟩, h3⟩

theorem Memory.wf_filter (p : Host.Cell → Bool) (m : Memory) (h : m.wf = true) : Memory.wf (m.filter p) = true := by
  induction m with
  | nil => simpa using h
  | cons c m ih =>
    obtain ⟨h1, h2, h3⟩ := (Memory.wf_cons c m).1 h
    rw [List.filter_cons]
    split
    · exact (Memory.wf_cons _ _).2 ⟨h1, fun d hd => h2 d (List.mem_of_mem_filter hd), ih h3⟩
    · exact ih h3

theorem Memory.mem_insertCell {d : Host.Cell} (k : Nat) (v : Byte) (m : Memory) (h : d ∈ m.insertCell k v) :
    d = (k, v) ∨ d ∈ m := by
  induction m with
  | nil => simpa [Memory.insertCell] using h
  | cons c m ih =>
    unfold Memory.insertCell at h
    split at h
    · simpa using h
    · rcases List.mem_cons.1 h with rfl | h
      · simp
      · rcases ih h with h | h <;> simp [h]

theorem Memory.wf_insertCell (k : Nat) (v : Byte) (m : Memory) (hv : v ≠ Memory.unlisted) (hk : ∀ c ∈ m, c.1 ≠ k)
    (h : m.wf = true) : (m.insertCell k v).wf = true := by
  induction m with
  | nil => simpa [Memory.insertCell, Memory.wf] using hv
  | cons c m ih =>
    obtain ⟨h1, h2, h3⟩ := (Memory.wf_cons c m).1 h
    unfold Memory.insertCell
    split
    · next hlt =>
      refine (Memory.wf_cons _ _).2 ⟨hv, fun d hd => ?_, h⟩
      rcases List.mem_cons.1 hd with rfl | hd
      · exact hlt
      · exact hlt.trans (h2 d hd)
    · next hlt =>
      have hne := hk c (by simp)
      refine (Memory.wf_cons _ _).2 ⟨h1, fun d hd => ?_, ih (fun d hd => hk d (by simp [hd])) h3⟩
      rcases Memory.mem_insertCell k v m hd with rfl | hd
      · show c.1 < k
        omega
      · exact h2 d hd

theorem Memory.wf_writeByte (k : Nat) (v : Byte) (m : Memory) (h : m.wf = true) : (m.writeByte k v).wf = true := by
  unfold Memory.writeByte
  split
  · exact Memory.wf_filter _ _ h
  · next hv => exact Memory.wf_insertCell _ _ _ hv (by simp) (Memory.wf_filter _ _ h)

theorem Memory.wf_writeWord (a : Nat) (w : Word) (m : Memory) (h : m.wf = true) : (m.writeWord a w).wf = true := by
  unfold Memory.writeWord
  exact Memory.wf_writeByte _ _ _ (Memory.wf_writeByte _ _ _ (Memory.wf_writeByte _ _ _ (Memory.wf_writeByte _ _ _ h)))

theorem Memory.wf_writeBlock (b : Nat) (d : List Word) (m : Memory) (h : m.wf = true) : (m.writeBlock b d).wf = true := by
  induction d generalizing b m with
  | nil => exact h
  | cons w d ih => exact ih _ _ (Memory.wf_writeWord _ _ _ h)

theorem Memory.wf_serve (n : Nat) (c : MemCommand) (m : Memory) (h : m.wf = true) : (m.serve n c).1.wf = true := by
  cases c with
  | blockRead b => exact h
  | blockWrite b d => exact Memory.wf_writeBlock _ _ _ h

/-- A canonical memory lists no byte twice: an entry is what its address reads as. -/
theorem Memory.readByte_of_mem {c : Host.Cell} {m : Memory} (h : m.wf = true) (hc : c ∈ m) : m.readByte c.1 = c.2 := by
  induction m with
  | nil => simp at hc
  | cons d m ih =>
    obtain ⟨_, h2, h3⟩ := (Memory.wf_cons d m).1 h
    rcases List.mem_cons.1 hc with rfl | hc
    · simp [Memory.readByte]
    · have := h2 c hc
      have hne : ¬ d.1 = c.1 := by omega
      simp [Memory.readByte, hne, ih h3 hc]

/-- In a canonical memory, what is not listed reads as `Memory.unlisted`, and what is listed does not. -/
theorem Memory.mem_iff_readByte {m : Memory} (h : m.wf = true) (k : Nat) (v : Byte) :
    (k, v) ∈ m ↔ m.readByte k = v ∧ v ≠ Memory.unlisted := by
  induction m with
  | nil => simp only [List.not_mem_nil, Memory.readByte, false_iff, not_and, not_not]; exact Eq.symm
  | cons d m ih =>
    obtain ⟨h1, h2, h3⟩ := (Memory.wf_cons d m).1 h
    by_cases hk : d.1 = k
    · have hnot : (k, v) ∉ m := fun hm => by have := h2 _ hm; simp [hk] at this
      simp only [List.mem_cons, hnot, or_false, Memory.readByte, hk, if_true]
      constructor
      · rintro rfl; exact ⟨rfl, h1⟩
      · rintro ⟨hv, -⟩; exact Prod.ext hk.symm hv.symm
    · have : (k, v) ≠ d := fun h => hk (by rw [← h])
      simp [List.mem_cons, this, Memory.readByte, hk, ih h3]

/-! ### Words -/

theorem wordOfBytes_wordByte (w : Word) :
    wordOfBytes (wordByte w 0) (wordByte w 1) (wordByte w 2) (wordByte w 3) = w := by
  unfold wordOfBytes wordByte
  ext i hi
  simp only [BitVec.getElem_append, BitVec.getElem_extractLsb']
  split
  · simp [BitVec.getLsbD_eq_getElem, hi]
  · split
    · simp only [show 8 * 1 + (i - 8) = i by omega, BitVec.getLsbD_eq_getElem hi]
    · split
      · simp only [show 8 * 2 + (i - 8 - 8) = i by omega, BitVec.getLsbD_eq_getElem hi]
      · simp only [show 8 * 3 + (i - 8 - 8 - 8) = i by omega, BitVec.getLsbD_eq_getElem hi]

/-- A byte read after a word written: the word's own byte in its four keys, the old byte elsewhere. -/
theorem Memory.readByte_writeWord (j a : Nat) (w : Word) (m : Memory) :
    (m.writeWord a w).readByte j = if j / 4 = a then wordByte w (j % 4) else m.readByte j := by
  unfold Memory.writeWord
  simp only [Memory.readByte_writeByte]
  by_cases h : j / 4 = a
  · have : j % 4 = 0 ∨ j % 4 = 1 ∨ j % 4 = 2 ∨ j % 4 = 3 := by omega
    rcases this with h0 | h0 | h0 | h0 <;> rw [h0] <;> simp only [h, if_true] <;> split_ifs <;> first | rfl | omega
  · have h0 : ¬ j = 4 * a := by omega
    have h1 : ¬ j = 4 * a + 1 := by omega
    have h2 : ¬ j = 4 * a + 2 := by omega
    have h3 : ¬ j = 4 * a + 3 := by omega
    simp [h, h0, h1, h2, h3]

/-- A word read after a word written. -/
theorem Memory.readWord_writeWord (b a : Nat) (w : Word) (m : Memory) :
    (m.writeWord a w).readWord b = if b = a then w else m.readWord b := by
  unfold Memory.readWord
  simp only [Memory.readByte_writeWord]
  have h0 : 4 * b / 4 = b := by omega
  have h1 : (4 * b + 1) / 4 = b := by omega
  have h2 : (4 * b + 2) / 4 = b := by omega
  have h3 : (4 * b + 3) / 4 = b := by omega
  have k0 : 4 * b % 4 = 0 := by omega
  have k1 : (4 * b + 1) % 4 = 1 := by omega
  have k2 : (4 * b + 2) % 4 = 2 := by omega
  have k3 : (4 * b + 3) % 4 = 3 := by omega
  simp only [h0, h1, h2, h3, k0, k1, k2, k3]
  by_cases h : b = a
  · simp only [h, if_true, wordOfBytes_wordByte]
  · simp only [h, if_false]

/-! ### Blocks -/

@[simp] theorem Memory.length_readBlock (b n : Nat) (m : Memory) : (m.readBlock b n).length = n := by
  simp [Memory.readBlock]

theorem Memory.getD_readBlock (b n i : Nat) (m : Memory) (h : i < n) (x : Word) :
    (m.readBlock b n).getD i x = m.readWord (b + i) := by
  simp [Memory.readBlock, List.getD, h]

/-- Two memories that agree on a block read it alike. -/
theorem Memory.readBlock_congr {b n : Nat} {m m' : Memory} (h : ∀ i < n, m.readWord (b + i) = m'.readWord (b + i)) :
    m.readBlock b n = m'.readBlock b n := by
  unfold Memory.readBlock
  exact List.map_congr_left fun i hi => h i (List.mem_range.1 hi)

/-- A byte read after a block written: only the block's own words change. -/
theorem Memory.readByte_writeBlock (j b : Nat) (d : List Word) (m : Memory) :
    (m.writeBlock b d).readByte j =
      if b ≤ j / 4 ∧ j / 4 < b + d.length then wordByte (d.getD (j / 4 - b) 0) (j % 4) else m.readByte j := by
  induction d generalizing b m with
  | nil =>
    have : ¬ (b ≤ j / 4 ∧ j / 4 < b + ([] : List Word).length) := by simp
    rw [if_neg this]; rfl
  | cons w d ih =>
    rw [Memory.writeBlock, ih, Memory.readByte_writeWord]
    simp only [List.length_cons]
    by_cases h1 : j / 4 = b
    · have ha : ¬ (b + 1 ≤ j / 4 ∧ j / 4 < b + 1 + d.length) := by omega
      have hb : b ≤ j / 4 ∧ j / 4 < b + (d.length + 1) := by omega
      rw [if_neg ha, if_pos h1, if_pos hb, h1]; simp
    · by_cases h2 : b + 1 ≤ j / 4 ∧ j / 4 < b + 1 + d.length
      · have hb : b ≤ j / 4 ∧ j / 4 < b + (d.length + 1) := by omega
        rw [if_pos h2, if_pos hb]
        have : j / 4 - b = (j / 4 - (b + 1)) + 1 := by omega
        rw [this]; simp
      · have hb : ¬ (b ≤ j / 4 ∧ j / 4 < b + (d.length + 1)) := by omega
        rw [if_neg h2, if_neg h1, if_neg hb]

/-- A word read after a block written. -/
theorem Memory.readWord_writeBlock (a b : Nat) (d : List Word) (m : Memory) :
    (m.writeBlock b d).readWord a = if b ≤ a ∧ a < b + d.length then d.getD (a - b) 0 else m.readWord a := by
  induction d generalizing b m with
  | nil =>
    have : ¬ (b ≤ a ∧ a < b + ([] : List Word).length) := by simp
    rw [if_neg this]; rfl
  | cons w d ih =>
    rw [Memory.writeBlock, ih, Memory.readWord_writeWord]
    simp only [List.length_cons]
    by_cases h1 : a = b
    · have ha : ¬ (b + 1 ≤ a ∧ a < b + 1 + d.length) := by omega
      have hb : b ≤ a ∧ a < b + (d.length + 1) := by omega
      rw [if_neg ha, if_pos h1, if_pos hb, h1]; simp
    · by_cases h2 : b + 1 ≤ a ∧ a < b + 1 + d.length
      · have hb : b ≤ a ∧ a < b + (d.length + 1) := by omega
        rw [if_pos h2, if_pos hb]
        have : a - b = (a - (b + 1)) + 1 := by omega
        rw [this]; simp
      · have hb : ¬ (b ≤ a ∧ a < b + (d.length + 1)) := by omega
        rw [if_neg h2, if_neg h1, if_neg hb]

end Sys2Proof.Machine
end

