-- ==== Sys2Proof/Laws/Cache.lean ====
section
/-! SUPPORT. The Cache Store and the Replacement Engine: what a line is after each operation, what `LOOKUP` and
`SELECT_VICTIM` answer (41_cache_store.md, 42_replacement_engine.md). -/

namespace Sys2Proof.Machine

open Sys2Proof.Safety

/-! ### Lines after an operation -/

theorem State.ways_setLine (s : State) (i w i' : Nat) (l : Line) :
    (s.setLine i w l).ways i' = if i' = i ∧ i < s.lines.length then (s.ways i).set w l else s.ways i' := by
  simp only [State.ways, State.setLine_lines, List.getD_eq_getElem?_getD, List.getElem?_set]
  by_cases h : i = i'
  · subst h
    by_cases hl : i < s.lines.length
    · simp [hl]
    · simp [hl]
  · simp [h, Ne.symm h]

theorem State.line_setLine (s : State) (i w i' w' : Nat) (l : Line) :
    (s.setLine i w l).line i' w' =
      if i' = i ∧ w' = w ∧ i < s.lines.length ∧ w < (s.ways i).length then l else s.line i' w' := by
  unfold State.line
  rw [State.ways_setLine]
  by_cases h : i' = i ∧ i < s.lines.length
  · obtain ⟨rfl, hl⟩ := h
    simp only [hl, and_self, if_true, true_and, List.getD_eq_getElem?_getD, List.getElem?_set]
    by_cases hw : w = w'
    · subst hw
      by_cases hlen : w < (s.ways i').length
      · simp [hlen]
      · simp [hlen]
    · simp [hw, Ne.symm hw]
  · rw [if_neg h, if_neg (fun hc => h ⟨hc.1, hc.2.2.1⟩)]

theorem State.setLine_setLine (s : State) (i w : Nat) (l l' : Line) :
    (s.setLine i w l).setLine i w l' = s.setLine i w l' := by
  have hw := State.ways_setLine s i w i l
  unfold State.setLine at hw ⊢
  simp only [hw, List.set_set, true_and]
  by_cases h : i < s.lines.length
  · simp [h, List.set_set]
  · simp [List.set_eq_of_length_le (Nat.le_of_not_lt h)]

theorem State.ways_ageAll (s : State) (i : Nat) : s.ageAll.ways i = (s.ways i).map ageLine := by
  simp only [State.ways, State.ageAll_lines, List.getD_eq_getElem?_getD, List.getElem?_map]
  cases s.lines[i]? <;> simp

theorem State.line_ageAll (s : State) (i w : Nat) (h : w < (s.ways i).length) :
    s.ageAll.line i w = ageLine (s.line i w) := by
  unfold State.line
  simp [State.ways_ageAll, List.getD_eq_getElem?_getD, h]

theorem State.ways_congr {s t : State} (h : s.lines = t.lines) (i : Nat) : s.ways i = t.ways i := by
  simp [State.ways, h]

theorem State.line_congr {s t : State} (h : s.lines = t.lines) (i w : Nat) : s.line i w = t.line i w := by
  simp [State.line, State.ways, h]

theorem State.lookup_congr {s t : State} (h : s.lines = t.lines) (i g : Nat) : s.lookup i g = t.lookup i g := by
  simp [State.lookup, State.ways, h]

/-- Ageing changes no field that `LOOKUP` reads (R85, R93). -/
theorem State.lookup_ageAll (s : State) (i t : Nat) : s.ageAll.lookup i t = s.lookup i t := by
  simp only [State.lookup, State.ways_ageAll, List.findIdx?_map]
  rfl

/-! ### LOOKUP (R85) -/

theorem State.line_eq_getElem (s : State) (i w : Nat) (h : w < (s.ways i).length) : s.line i w = (s.ways i)[w] := by
  simp [State.line, List.getD_eq_getElem?_getD, h]

/-- When `LOOKUP` answers a way, the way matches and no lower one does. -/
theorem State.lookup_some {s : State} {i t w : Nat} (h : s.lookup i t = some w) :
    w < (s.ways i).length ∧ (s.line i w).valid = true ∧ (s.line i w).tag = t := by
  obtain ⟨hw, hm, -⟩ := List.findIdx?_eq_some_iff_getElem.1 h
  rw [← State.line_eq_getElem] at hm
  simp only [lineMatches, Bool.and_eq_true, decide_eq_true_eq] at hm
  exact ⟨hw, hm⟩

/-- When `LOOKUP` answers none, no way matches. -/
theorem State.lookup_none {s : State} {i t : Nat} (h : s.lookup i t = none) {w : Nat} (hw : w < (s.ways i).length)
    (hv : (s.line i w).valid = true) : (s.line i w).tag ≠ t := by
  intro ht
  have := List.findIdx?_eq_none_iff.1 h _ (List.getElem_mem hw)
  rw [← State.line_eq_getElem] at this
  simp [lineMatches, hv, ht] at this

/-! ### SELECT_VICTIM (R96) -/

/-- The left-to-right scan keeps the start or moves to the first of the largest counters. -/
theorem oldestFrom_spec (v m w : Nat) (ls : List Line) :
    (oldestFrom v m w ls = v ∧ ∀ l ∈ ls, l.rc ≤ m) ∨
    (∃ j, ∃ h : j < ls.length, oldestFrom v m w ls = w + j ∧ m < ls[j].rc ∧
      (∀ l ∈ ls, l.rc ≤ ls[j].rc) ∧ ∀ k, (hk : k < j) → ls[k].rc < ls[j].rc) := by
  induction ls generalizing v m w with
  | nil => exact .inl ⟨rfl, by simp⟩
  | cons l ls ih =>
    unfold oldestFrom
    split
    · next hlt =>
      right
      rcases ih w l.rc (w + 1) with ⟨he, hall⟩ | ⟨j, hj, he, hm, hall, hk⟩
      · refine ⟨0, by simp, by simpa using he, by simpa using hlt, ?_, by simp⟩
        simpa using hall
      · refine ⟨j + 1, by simpa using hj, by rw [he]; omega, by simpa using hlt.trans hm, ?_, ?_⟩
        · simp only [List.mem_cons, forall_eq_or_imp, List.getElem_cons_succ]
          exact ⟨le_of_lt hm, hall⟩
        · intro k hkj
          cases k with
          | zero => simpa using hm
          | succ k => simpa using hk k (by omega)
    · next hge =>
      rcases ih v m (w + 1) with ⟨he, hall⟩ | ⟨j, hj, he, hm, hall, hk⟩
      · exact .inl ⟨he, by simpa using ⟨by omega, hall⟩⟩
      · right
        refine ⟨j + 1, by simpa using hj, by rw [he]; omega, by simpa using hm, ?_, ?_⟩
        · simp only [List.mem_cons, forall_eq_or_imp, List.getElem_cons_succ]
          exact ⟨by omega, hall⟩
        · intro k hkj
          cases k with
          | zero => simp only [List.getElem_cons_zero, List.getElem_cons_succ]; omega
          | succ k => simpa using hk k (by omega)

theorem oldestWay_lt {ls : List Line} (h : ls ≠ []) : oldestWay ls < ls.length := by
  cases ls with
  | nil => exact absurd rfl h
  | cons l ls =>
    rcases oldestFrom_spec 0 l.rc 1 ls with ⟨he, -⟩ | ⟨j, hj, he, -⟩
    · simp [oldestWay, he]
    · simp only [oldestWay, he, List.length_cons]; omega

/-- The victim is a way of the set. -/
theorem victimOf_lt {ls : List Line} (h : ls ≠ []) : victimOf ls < ls.length := by
  unfold victimOf
  split
  · next w hw => exact (List.findIdx?_eq_some_iff_getElem.1 hw).1
  · exact oldestWay_lt h

/-- Every way below an invalid victim is valid, and a valid victim means a full set (R97). -/
theorem victimOf_valid {ls : List Line} (h : ls ≠ []) :
    (∀ k, (hk : k < victimOf ls) → (hl : k < ls.length) → (ls[victimOf ls]'(victimOf_lt h)).valid = false →
      ls[k].valid = true) ∧
    ((ls[victimOf ls]'(victimOf_lt h)).valid = true → ∀ l ∈ ls, l.valid = true) := by
  have key : ∀ v, (hv : v < ls.length) → victimOf ls = v →
      (∀ k, (hk : k < v) → (hl : k < ls.length) → ls[v].valid = false → ls[k].valid = true) ∧
      (ls[v].valid = true → ∀ l ∈ ls, l.valid = true) := by
    intro v hv he
    unfold victimOf at he
    split at he
    · next w hw =>
      subst he
      obtain ⟨hlt, hnot, hbelow⟩ := List.findIdx?_eq_some_iff_getElem.1 hw
      refine ⟨fun k hk hl _ => by simpa using hbelow k hk, fun hval => ?_⟩
      simp [hval] at hnot
    · next hnone =>
      have hall : ∀ l ∈ ls, l.valid = true := by simpa using hnone
      exact ⟨fun k _ hl _ => hall _ (List.getElem_mem hl), fun _ => hall⟩
  exact key _ (victimOf_lt h) rfl

end Sys2Proof.Machine
end

