-- ==== Sys2Proof/Laws/Access.lean ====
section
/-! SUPPORT. The write-back controller and `ACCESS`: what each operation changes, and what the well-formed Cache Store and
`VIEW` become (43_writeback_controller.md, 44_access_controller.md). -/

namespace Sys2Proof.Machine

open Sys2Proof.Safety

/-! ### Fields `EVICT`, the miss service and `LOCATE` leave alone -/

section
variable (s : State) (i v t a : Nat)

@[simp] theorem State.evict_cfg : (s.evict i v).cfg = s.cfg := by unfold State.evict; split_ifs <;> rfl
@[simp] theorem State.evict_enc : (s.evict i v).enc = s.enc := by unfold State.evict; split_ifs <;> rfl
@[simp] theorem State.evict_cfgIn : (s.evict i v).cfgIn = s.cfgIn := by unfold State.evict; split_ifs <;> rfl
@[simp] theorem State.evict_resetIn : (s.evict i v).resetIn = s.resetIn := by unfold State.evict; split_ifs <;> rfl
@[simp] theorem State.evict_status : (s.evict i v).status = s.status := by unfold State.evict; split_ifs <;> rfl
@[simp] theorem State.evict_lines : (s.evict i v).lines = s.lines := by unfold State.evict; split_ifs <;> rfl
@[simp] theorem State.evict_requests : (s.evict i v).requests = s.requests := by unfold State.evict; split_ifs <;> rfl
@[simp] theorem State.evict_resp : (s.evict i v).resp = s.resp := by unfold State.evict; split_ifs <;> rfl
@[simp] theorem State.evict_pc : (s.evict i v).pc = s.pc := by unfold State.evict; split_ifs <;> rfl
@[simp] theorem State.evict_regs : (s.evict i v).regs = s.regs := by unfold State.evict; split_ifs <;> rfl
@[simp] theorem State.evict_run : (s.evict i v).run = s.run := by unfold State.evict; split_ifs <;> rfl

/-- `mem` changes by the write-back of a valid dirty victim alone (R105). -/
theorem State.evict_mem : (s.evict i v).mem =
    if (s.line i v).valid = true ∧ (s.line i v).dirty = true then s.mem.writeBlock (s.lineBase i v) (s.line i v).data
    else s.mem := by
  unfold State.evict
  cases (s.line i v).valid <;> cases (s.line i v).dirty <;> rfl

theorem State.evict_trace : (s.evict i v).trace = s.trace ++ victimEvents s i v := by
  unfold State.evict victimEvents
  cases (s.line i v).valid <;> cases (s.line i v).dirty <;> simp

end

/-- What `LOCATE` is on a hit (R115). -/
theorem State.locate_hit {s : State} {a w : Nat} (h : s.lookup (setIndex s.cfg a) (tagOf s.cfg a) = some w) :
    s.locate a = (s.ageAll, w, true) := by
  unfold State.locate
  rw [State.lookup_ageAll, h]

/-- What `LOCATE` is on a miss (R115, R121). -/
theorem State.locate_miss {s : State} {a : Nat} (h : s.lookup (setIndex s.cfg a) (tagOf s.cfg a) = none) :
    s.locate a = ((s.ageAll.missService (setIndex s.cfg a) (tagOf s.cfg a)).1,
      s.ageAll.selectVictim (setIndex s.cfg a), false) := by
  unfold State.locate
  rw [State.lookup_ageAll, h]
  rfl

section
variable (s : State) (a : Nat)

@[simp] theorem State.locate_cfg : (s.locate a).1.cfg = s.cfg := by
  unfold State.locate State.missService; split <;> simp
@[simp] theorem State.locate_enc : (s.locate a).1.enc = s.enc := by
  unfold State.locate State.missService; split <;> simp
@[simp] theorem State.locate_cfgIn : (s.locate a).1.cfgIn = s.cfgIn := by
  unfold State.locate State.missService; split <;> simp
@[simp] theorem State.locate_resetIn : (s.locate a).1.resetIn = s.resetIn := by
  unfold State.locate State.missService; split <;> simp
@[simp] theorem State.locate_status : (s.locate a).1.status = s.status := by
  unfold State.locate State.missService; split <;> simp
@[simp] theorem State.locate_requests : (s.locate a).1.requests = s.requests := by
  unfold State.locate State.missService; split <;> simp
@[simp] theorem State.locate_resp : (s.locate a).1.resp = s.resp := by
  unfold State.locate State.missService; split <;> simp
@[simp] theorem State.locate_pc : (s.locate a).1.pc = s.pc := by
  unfold State.locate State.missService; split <;> simp
@[simp] theorem State.locate_regs : (s.locate a).1.regs = s.regs := by
  unfold State.locate State.missService; split <;> simp
@[simp] theorem State.locate_run : (s.locate a).1.run = s.run := by
  unfold State.locate State.missService; split <;> simp

end

/-! ### `ACCESS` by cases (R115, R116) -/

theorem State.access_notReady {s : State} (h : s.status ≠ .ready) (op : ReqOp) (a v : Word) : s.access op a v = none := by
  simp [State.access, h]

theorem State.access_outOfBounds {s : State} (h : s.status = .ready) {op : ReqOp} (hop : op = opRead ∨ op = opWrite)
    {a : Word} (ha : inBounds s.cfg a = false) (v : Word) :
    s.access op a v = some (s.refuseAccess (.outOfBounds a)) := by
  rcases hop with rfl | rfl <;> simp [State.access, h, ha, opRead, opWrite]

theorem State.access_read {s : State} (h : s.status = .ready) {a : Word} (ha : inBounds s.cfg a = true) (v : Word) :
    s.access opRead a v = some (s.serveRead a.toNat) := by
  simp [State.access, h, ha]

theorem State.access_write {s : State} (h : s.status = .ready) {a : Word} (ha : inBounds s.cfg a = true) (v : Word) :
    s.access opWrite a v = some (s.serveWrite a.toNat v) := by
  simp [State.access, h, ha, opRead, opWrite]

/-- The four things an access can do: no step, a fatal condition, a served read, a served write. -/
theorem State.access_cases (s : State) (op : ReqOp) (a v : Word) :
    (s.status ≠ .ready ∧ s.access op a v = none) ∨
    (s.status = .ready ∧ ∃ f, s.access op a v = some (s.refuseAccess f)) ∨
    (s.status = .ready ∧ op = opRead ∧ inBounds s.cfg a = true ∧ s.access op a v = some (s.serveRead a.toNat)) ∨
    (s.status = .ready ∧ op = opWrite ∧ inBounds s.cfg a = true ∧ s.access op a v = some (s.serveWrite a.toNat v)) := by
  by_cases h : s.status = .ready
  · by_cases hop : op = opRead ∨ op = opWrite
    · cases ha : inBounds s.cfg a with
      | false => exact .inr (.inl ⟨h, _, State.access_outOfBounds h hop ha v⟩)
      | true =>
        rcases hop with rfl | rfl
        · exact .inr (.inr (.inl ⟨h, rfl, rfl, State.access_read h ha v⟩))
        · exact .inr (.inr (.inr ⟨h, rfl, rfl, State.access_write h ha v⟩))
    · rw [not_or] at hop
      exact .inr (.inl ⟨h, .invalidMode op, by simp [State.access, h, hop]⟩)
  · exact .inl ⟨h, State.access_notReady h op a v⟩

/-- The requester's read primitive by cases (R12). -/
theorem State.memRead_cases (s : State) (a : Word) :
    (s.status ≠ .ready ∧ s.memRead a = .notTaken) ∨
    (s.status = .ready ∧ inBounds s.cfg a = false ∧ s.memRead a = .fatal (s.raiseFatal (.outOfBounds a))) ∨
    (s.status = .ready ∧ inBounds s.cfg a = true ∧
      s.memRead a = .done (s.serveRead a.toNat).1 ((s.locate a.toNat).1.finishRead a.toNat (s.locate a.toNat).2.1).2) := by
  by_cases h : s.status = .ready
  · cases ha : inBounds s.cfg a with
    | false =>
      refine .inr (.inl ⟨h, rfl, ?_⟩)
      rw [State.memRead, State.access_outOfBounds h (.inl rfl) ha]
      rfl
    | true =>
      refine .inr (.inr ⟨h, rfl, ?_⟩)
      rw [State.memRead, State.access_read h ha]
      rfl
  · refine .inl ⟨h, ?_⟩
    rw [State.memRead, State.access_notReady h]

/-- The requester's write primitive by cases (R12). -/
theorem State.memWrite_cases (s : State) (a v : Word) :
    (s.status ≠ .ready ∧ s.memWrite a v = .notTaken) ∨
    (s.status = .ready ∧ inBounds s.cfg a = false ∧ s.memWrite a v = .fatal (s.raiseFatal (.outOfBounds a))) ∨
    (s.status = .ready ∧ inBounds s.cfg a = true ∧ s.memWrite a v = .done (s.serveWrite a.toNat v).1 ()) := by
  by_cases h : s.status = .ready
  · cases ha : inBounds s.cfg a with
    | false =>
      refine .inr (.inl ⟨h, rfl, ?_⟩)
      rw [State.memWrite, State.access_outOfBounds h (.inr rfl) ha]
      rfl
    | true =>
      refine .inr (.inr ⟨h, rfl, ?_⟩)
      rw [State.memWrite, State.access_write h ha]
      rfl
  · refine .inl ⟨h, ?_⟩
    rw [State.memWrite, State.access_notReady h]

section
variable (s : State) (a : Nat) (v : Word)

@[simp] theorem State.serveRead_cfg : (s.serveRead a).1.cfg = s.cfg := by simp [State.serveRead, State.finishRead]
@[simp] theorem State.serveRead_enc : (s.serveRead a).1.enc = s.enc := by simp [State.serveRead, State.finishRead]
@[simp] theorem State.serveRead_cfgIn : (s.serveRead a).1.cfgIn = s.cfgIn := by simp [State.serveRead, State.finishRead]
@[simp] theorem State.serveRead_resetIn : (s.serveRead a).1.resetIn = s.resetIn := by
  simp [State.serveRead, State.finishRead]
@[simp] theorem State.serveRead_status : (s.serveRead a).1.status = s.status := by simp [State.serveRead, State.finishRead]
@[simp] theorem State.serveRead_requests : (s.serveRead a).1.requests = s.requests := by
  simp [State.serveRead, State.finishRead]
@[simp] theorem State.serveRead_pc : (s.serveRead a).1.pc = s.pc := by simp [State.serveRead, State.finishRead]
@[simp] theorem State.serveRead_regs : (s.serveRead a).1.regs = s.regs := by simp [State.serveRead, State.finishRead]
@[simp] theorem State.serveRead_run : (s.serveRead a).1.run = s.run := by simp [State.serveRead, State.finishRead]

@[simp] theorem State.serveWrite_cfg : (s.serveWrite a v).1.cfg = s.cfg := by simp [State.serveWrite, State.finishWrite]
@[simp] theorem State.serveWrite_enc : (s.serveWrite a v).1.enc = s.enc := by simp [State.serveWrite, State.finishWrite]
@[simp] theorem State.serveWrite_cfgIn : (s.serveWrite a v).1.cfgIn = s.cfgIn := by
  simp [State.serveWrite, State.finishWrite]
@[simp] theorem State.serveWrite_resetIn : (s.serveWrite a v).1.resetIn = s.resetIn := by
  simp [State.serveWrite, State.finishWrite]
@[simp] theorem State.serveWrite_status : (s.serveWrite a v).1.status = s.status := by
  simp [State.serveWrite, State.finishWrite]
@[simp] theorem State.serveWrite_requests : (s.serveWrite a v).1.requests = s.requests := by
  simp [State.serveWrite, State.finishWrite]
@[simp] theorem State.serveWrite_pc : (s.serveWrite a v).1.pc = s.pc := by simp [State.serveWrite, State.finishWrite]
@[simp] theorem State.serveWrite_regs : (s.serveWrite a v).1.regs = s.regs := by simp [State.serveWrite, State.finishWrite]
@[simp] theorem State.serveWrite_run : (s.serveWrite a v).1.run = s.run := by simp [State.serveWrite, State.finishWrite]

end

end Sys2Proof.Machine
end

