-- ==== Sys2Proof/Laws/Encoding.lean ====
section
/-! SUPPORT. The fields of an encoded instruction word and of an encoded request (30_encoding.md R58, R68, R70). -/

namespace Sys2Proof

/-- Bit `k` of a field of `m` bits that was put at bit `lo` of a word. -/
theorem getLsbD_field {n m lo : Nat} (x : BitVec n) (hx : x.toNat < 2 ^ m) (hlo : lo + m ≤ 32) (k : Nat) :
    (x.setWidth 32 <<< lo).getLsbD k = (decide (lo ≤ k ∧ k < lo + m) && x.getLsbD (k - lo)) := by
  rw [BitVec.getLsbD_shiftLeft, BitVec.getLsbD_setWidth]
  by_cases h1 : lo ≤ k
  · by_cases h2 : k < lo + m
    · have e1 : k < 32 := by omega
      have e2 : ¬ k < lo := by omega
      have e3 : k - lo < 32 := by omega
      simp [h1, h2, e1, e2, e3]
    · have e : x.getLsbD (k - lo) = false := by
        rw [← BitVec.testBit_toNat]
        exact Nat.testBit_lt_two_pow (lt_of_lt_of_le hx (Nat.pow_le_pow_right (by omega) (by omega)))
      simp [e]
  · have e2 : k < lo := by omega
    simp [h1, e2]

section
variable {L : ILayout} (h : L.Legal) {op : Opcode} (hop : op.toNat < 2 ^ L.opcodeWidth) (f0 f1 : RegNum) (imm : Imm)
include h hop

/-- Bit `k` of an encoded word lies in the field that covers it. -/
theorem getLsbD_encodeFields (k : Nat) : (encodeFields L op f0 f1 imm).getLsbD k =
    ((decide (L.opcodeLo ≤ k ∧ k < L.opcodeLo + L.opcodeWidth) && op.getLsbD (k - L.opcodeLo)) ||
     (decide (L.f0Lo ≤ k ∧ k < L.f0Lo + 3) && f0.getLsbD (k - L.f0Lo)) ||
     (decide (L.f1Lo ≤ k ∧ k < L.f1Lo + 3) && f1.getLsbD (k - L.f1Lo)) ||
     (decide (L.immLo ≤ k ∧ k < L.immLo + 16) && imm.getLsbD (k - L.immLo))) := by
  obtain ⟨h1, h2, h3, h4, h5, -⟩ := h
  have h0 : L.opcodeLo + L.opcodeWidth ≤ 32 := by unfold ILayout.opcodeWidth; omega
  unfold encodeFields
  simp only [BitVec.getLsbD_or, getLsbD_field op hop h0, getLsbD_field f0 f0.isLt h3,
    getLsbD_field f1 f1.isLt h4, getLsbD_field imm imm.isLt h5]

/-- The register field `f0` of an encoded word. -/
theorem f0Field_encodeFields : f0Field L (encodeFields L op f0 f1 imm) = f0 := by
  have hb := getLsbD_encodeFields h hop f0 f1 imm
  obtain ⟨h1, h2, h3, h4, h5, h6, h7, h8, h9, h10, h11⟩ := h
  unfold f0Field
  ext i hi
  have a1 : ¬(L.opcodeLo ≤ L.f0Lo + i ∧ L.f0Lo + i < L.opcodeLo + L.opcodeWidth) := by omega
  have a2 : L.f0Lo ≤ L.f0Lo + i ∧ L.f0Lo + i < L.f0Lo + 3 := by omega
  have a3 : ¬(L.f1Lo ≤ L.f0Lo + i ∧ L.f0Lo + i < L.f1Lo + 3) := by omega
  have a4 : ¬(L.immLo ≤ L.f0Lo + i ∧ L.f0Lo + i < L.immLo + 16) := by omega
  rw [BitVec.getElem_extractLsb', hb]
  simp only [a1, a2, a3, a4, decide_true, decide_false, Bool.false_and, Bool.true_and, Bool.or_false, Bool.false_or,
    Nat.add_sub_cancel_left, BitVec.getLsbD_eq_getElem hi, and_self]

/-- The register field `f1` of an encoded word. -/
theorem f1Field_encodeFields : f1Field L (encodeFields L op f0 f1 imm) = f1 := by
  have hb := getLsbD_encodeFields h hop f0 f1 imm
  obtain ⟨h1, h2, h3, h4, h5, h6, h7, h8, h9, h10, h11⟩ := h
  unfold f1Field
  ext i hi
  have a1 : ¬(L.opcodeLo ≤ L.f1Lo + i ∧ L.f1Lo + i < L.opcodeLo + L.opcodeWidth) := by omega
  have a2 : ¬(L.f0Lo ≤ L.f1Lo + i ∧ L.f1Lo + i < L.f0Lo + 3) := by omega
  have a3 : L.f1Lo ≤ L.f1Lo + i ∧ L.f1Lo + i < L.f1Lo + 3 := by omega
  have a4 : ¬(L.immLo ≤ L.f1Lo + i ∧ L.f1Lo + i < L.immLo + 16) := by omega
  rw [BitVec.getElem_extractLsb', hb]
  simp only [a1, a2, a3, a4, decide_true, decide_false, Bool.false_and, Bool.true_and, Bool.or_false, Bool.false_or,
    Nat.add_sub_cancel_left, BitVec.getLsbD_eq_getElem hi, and_self]

/-- The immediate field of an encoded word. -/
theorem immField_encodeFields : immField L (encodeFields L op f0 f1 imm) = imm := by
  have hb := getLsbD_encodeFields h hop f0 f1 imm
  obtain ⟨h1, h2, h3, h4, h5, h6, h7, h8, h9, h10, h11⟩ := h
  unfold immField
  ext i hi
  have a1 : ¬(L.opcodeLo ≤ L.immLo + i ∧ L.immLo + i < L.opcodeLo + L.opcodeWidth) := by omega
  have a2 : ¬(L.f0Lo ≤ L.immLo + i ∧ L.immLo + i < L.f0Lo + 3) := by omega
  have a3 : ¬(L.f1Lo ≤ L.immLo + i ∧ L.immLo + i < L.f1Lo + 3) := by omega
  have a4 : L.immLo ≤ L.immLo + i ∧ L.immLo + i < L.immLo + 16 := by omega
  rw [BitVec.getElem_extractLsb', hb]
  simp only [a1, a2, a3, a4, decide_true, decide_false, Bool.false_and, Bool.true_and, Bool.or_false, Bool.false_or,
    Nat.add_sub_cancel_left, BitVec.getLsbD_eq_getElem hi, and_self]

/-- The opcode field of an encoded word. -/
theorem opcodeField_encodeFields : opcodeField L (encodeFields L op f0 f1 imm) = op := by
  have hb := getLsbD_encodeFields h hop f0 f1 imm
  obtain ⟨h1, h2, h3, h4, h5, h6, h7, h8, h9, h10, h11⟩ := h
  unfold opcodeField
  ext i hi
  rw [← BitVec.getLsbD_eq_getElem hi, BitVec.getLsbD_ofNat, Nat.testBit_mod_two_pow, Nat.testBit_shiftRight, BitVec.testBit_toNat, hb]
  have a2 : L.opcodeLo + i < L.opcodeLo + L.opcodeWidth →
      ¬(L.f0Lo ≤ L.opcodeLo + i ∧ L.opcodeLo + i < L.f0Lo + 3) := by omega
  have a3 : L.opcodeLo + i < L.opcodeLo + L.opcodeWidth →
      ¬(L.f1Lo ≤ L.opcodeLo + i ∧ L.opcodeLo + i < L.f1Lo + 3) := by omega
  have a4 : L.opcodeLo + i < L.opcodeLo + L.opcodeWidth →
      ¬(L.immLo ≤ L.opcodeLo + i ∧ L.opcodeLo + i < L.immLo + 16) := by omega
  by_cases hw : i < L.opcodeWidth
  · have hlt : L.opcodeLo + i < L.opcodeLo + L.opcodeWidth := by omega
    have a1 : L.opcodeLo ≤ L.opcodeLo + i ∧ L.opcodeLo + i < L.opcodeLo + L.opcodeWidth := by omega
    have hw' : i < L.opcodeHi + 1 - L.opcodeLo := hw
    simp only [a1, a2 hlt, a3 hlt, a4 hlt, hw', hi, decide_true, decide_false, Bool.false_and, Bool.true_and,
      Bool.or_false, Nat.add_sub_cancel_left, BitVec.getLsbD_eq_getElem hi, and_self]
  · have hw' : ¬ i < L.opcodeHi + 1 - L.opcodeLo := hw
    simp only [hw', decide_false, Bool.false_and, Bool.and_false]
    rw [← BitVec.getLsbD_eq_getElem hi, ← BitVec.testBit_toNat]
    exact (Nat.testBit_lt_two_pow (lt_of_lt_of_le hop (Nat.pow_le_pow_right (by omega) (by omega)))).symm

end

/-! ### Requests -/

/-- Bit `k` of an encoded request. -/
theorem getLsbD_encodeRequest (op : ReqOp) (a d : Word) (k : Nat) : (encodeRequest op a d).getLsbD k =
    ((decide (k < 66) && decide (64 ≤ k) && op.getLsbD (k - 64)) ||
     (decide (32 ≤ k) && decide (k < 64) && a.getLsbD (k - 32)) || (decide (k < 32) && d.getLsbD k)) := by
  unfold encodeRequest
  simp only [BitVec.getLsbD_or, BitVec.getLsbD_shiftLeft, BitVec.getLsbD_setWidth]
  rcases Nat.lt_or_ge k 32 with h1 | h1
  · have e1 : k < 64 := by omega
    have e2 : k < 66 := by omega
    have e3 : ¬ 32 ≤ k := by omega
    have e4 : ¬ 64 ≤ k := by omega
    simp [h1, e1, e2, e3, e4]
  · have hd : d.getLsbD k = false := BitVec.getLsbD_of_ge d k h1
    rcases Nat.lt_or_ge k 64 with h2 | h2
    · have e1 : ¬ k < 32 := by omega
      have e2 : k < 66 := by omega
      have e4 : ¬ 64 ≤ k := by omega
      have e5 : k - 32 < 66 := by omega
      simp [h1, h2, e1, e2, e4, e5]
    · have ha : a.getLsbD (k - 32) = false := BitVec.getLsbD_of_ge a _ (by omega)
      have e1 : ¬ k < 32 := by omega
      have e2 : ¬ k < 64 := by omega
      by_cases h3 : k < 66
      · have e5 : k - 64 < 66 := by omega
        simp [h1, h2, h3, e1, e2, e5, ha]
      · simp [h3, hd, ha]

/-- The operation code of an encoded request. -/
theorem requestOp_encode (op : ReqOp) (a d : Word) : requestOp (encodeRequest op a d) = op := by
  unfold requestOp
  ext i hi
  have e1 : 64 + i < 66 := by omega
  have e2 : ¬ 64 + i < 64 := by omega
  have e3 : ¬ 64 + i < 32 := by omega
  rw [BitVec.getElem_extractLsb', getLsbD_encodeRequest]
  simp [e1, e3, BitVec.getLsbD_eq_getElem hi]

/-- The address of an encoded request. -/
theorem requestAddr_encode (op : ReqOp) (a d : Word) : requestAddr (encodeRequest op a d) = a := by
  unfold requestAddr
  ext i hi
  have e1 : 32 + i < 64 := by omega
  have e2 : ¬ 64 ≤ 32 + i := by omega
  rw [BitVec.getElem_extractLsb', getLsbD_encodeRequest]
  simp [e1, e2, BitVec.getLsbD_eq_getElem hi]

/-- The write value of an encoded request. -/
theorem requestData_encode (op : ReqOp) (a d : Word) : requestData (encodeRequest op a d) = d := by
  unfold requestData
  ext i hi
  have e1 : ¬ 32 ≤ i := by omega
  have e2 : ¬ 64 ≤ i := by omega
  rw [BitVec.getElem_extractLsb', getLsbD_encodeRequest]
  simp [hi, e1, e2]

end Sys2Proof
end

