-- ==== Sys2Proof/Laws/Invariant.lean ====
section
/-! SUPPORT. What keeps the Cache Store well-formed (10_state.md R30 to R34), operation by operation. -/

namespace Sys2Proof.Machine

open Sys2Proof.Safety

section
variable {n : Nat} {s t : State}

/-- The Cache Store's relations depend on the configuration, the lines and `mem` alone. -/
theorem cacheOk_congr (h : CacheOk n s) (hc : t.cfg = s.cfg) (hl : t.lines = s.lines) (hm : t.mem = s.mem) :
    CacheOk n t := by
  have hw : ∀ i, t.ways i = s.ways i := fun i => State.ways_congr hl i
  have hln : ∀ i w, t.line i w = s.line i w := fun i w => State.line_congr hl i w
  have hb : ∀ i w, t.lineBase i w = s.lineBase i w := fun i w => by simp [State.lineBase, hln, hc]
  obtain ⟨h1, h2, h3, h4, h5, h6, h7, h8, h9, h10, h11⟩ := h
  exact ⟨by rw [hl, hc]; exact h1, by simpa [hw, hc] using h2, by simpa [hln, hc] using h3, by simpa [hln, hc] using h4,
    by simpa [hln, hc] using h5, by simpa [hln, hc] using h6, by simpa only [hln, hb, hc] using h7,
    by simpa [hln, hc] using h8, by simpa [hln, hc] using h9, by simpa [hln, hc] using h10,
    by simpa only [hln, hb, hm, hc] using h11⟩

/-- A line after a line of the store was replaced. -/
theorem line_setLine_of_ok (h : CacheOk n s) {i w : Nat} (hi : i < s.cfg.sets) (hw : w < s.cfg.ways) (l : Line)
    (i' w' : Nat) : (s.setLine i w l).line i' w' = if i' = i ∧ w' = w then l else s.line i' w' := by
  rw [State.line_setLine]
  have h1 : i < s.lines.length := by rw [h.rows]; exact hi
  have h2 : w < (s.ways i).length := by rw [h.ways i hi]; exact hw
  simp [h1, h2]

/-- A line after ageing. -/
theorem line_ageAll_of_ok (h : CacheOk n s) {i w : Nat} (hi : i < s.cfg.sets) (hw : w < s.cfg.ways) :
    s.ageAll.line i w = ageLine (s.line i w) :=
  State.line_ageAll s i w (by rw [h.ways i hi]; exact hw)

/-- Replacing a line by a valid one that fits keeps the Cache Store well-formed. -/
theorem cacheOk_setLine (h : CacheOk n s) {i w : Nat} (hi : i < s.cfg.sets) (hw : w < s.cfg.ways) {l : Line}
    (hval : l.valid = true) (hlen : l.data.length = s.cfg.wpb)
    (hpre : ∀ w' < w, (s.line i w').valid = true)
    (htag : ∀ w' < s.cfg.ways, w' ≠ w → (s.line i w').valid = true → (s.line i w').tag ≠ l.tag)
    (hin : blockBase s.cfg l.tag i + s.cfg.wpb ≤ s.cfg.memWords)
    (hrc : l.rc < n)
    (hapart : ∀ i' < s.cfg.sets, ∀ w' < s.cfg.ways, ¬(i' = i ∧ w' = w) → (s.line i' w').valid = true →
      (s.line i' w').rc ≠ l.rc)
    (hclean : l.dirty = false → l.data = s.mem.readBlock (blockBase s.cfg l.tag i) s.cfg.wpb) :
    CacheOk n (s.setLine i w l) := by
  have hline := line_setLine_of_ok h hi hw l
  have hbase : ∀ i' w', (s.setLine i w l).lineBase i' w' =
      if i' = i ∧ w' = w then blockBase s.cfg l.tag i else s.lineBase i' w' := by
    intro i' w'
    unfold State.lineBase
    rw [hline]
    split
    · next hc => rw [hc.1]; rfl
    · rfl
  refine ⟨by simpa using h.rows, ?_, ?_, ?_, ?_, ?_, ?_, ?_, ?_, ?_, ?_⟩
  · intro i' hi'
    rw [State.ways_setLine]
    split
    · next hc => simpa using h.ways i hi
    · exact h.ways i' hi'
  · intro i' hi' w' hw'
    rw [hline]
    split
    · exact hlen
    · exact h.words i' hi' w' hw'
  · intro i' hi' w₁ h₁ w₂ h₂ hv₁ hv₂ ht
    simp only [hline] at hv₁ hv₂ ht
    split_ifs at hv₁ hv₂ ht with c₁ c₂ c₂
    · rw [c₁.2, c₂.2]
    · rw [c₁.1] at hv₂ ht
      exact absurd ht.symm (htag w₂ h₂ (fun hc => c₂ ⟨c₁.1, hc⟩) hv₂)
    · rw [c₂.1] at hv₁ ht
      exact absurd ht (htag w₁ h₁ (fun hc => c₁ ⟨c₂.1, hc⟩) hv₁)
    · exact h.unique i' hi' w₁ h₁ w₂ h₂ hv₁ hv₂ ht
  · intro i' hi' w' hw'
    rw [hline]
    split
    · intro hc; simp [hval] at hc
    · exact h.invalidClean i' hi' w' hw'
  · intro i' hi' w₁ h₁ w₂ hlt
    rw [hline, hline]
    split
    · next c =>
      intro _
      split
      · exact hval
      · rw [c.1]; exact hpre w₂ (by omega)
    · intro hv
      split
      · exact hval
      · exact h.validPrefix i' hi' w₁ h₁ w₂ hlt hv
  · intro i' hi' w' hw'
    rw [hline, hbase]
    split
    · intro _; exact hin
    · exact h.inside i' hi' w' hw'
  · intro i' hi' w' hw'
    rw [hline]
    split
    · intro hc; simp [hval] at hc
    · exact h.invalidCounter i' hi' w' hw'
  · intro i' hi' w' hw'
    rw [hline]
    split
    · intro _; exact hrc
    · exact h.validCounter i' hi' w' hw'
  · intro i₁ hi₁ w₁ hw₁ i₂ hi₂ w₂ hw₂ hv₁ hv₂ hr
    simp only [hline] at hv₁ hv₂ hr
    split_ifs at hv₁ hv₂ hr with c₁ c₂ c₂
    · exact ⟨c₁.1.trans c₂.1.symm, c₁.2.trans c₂.2.symm⟩
    · exact absurd hr.symm (hapart i₂ hi₂ w₂ hw₂ c₂ hv₂)
    · exact absurd hr (hapart i₁ hi₁ w₁ hw₁ c₁ hv₁)
    · exact h.countersApart i₁ hi₁ w₁ hw₁ i₂ hi₂ w₂ hw₂ hv₁ hv₂ hr
  · intro i' hi' w' hw'
    rw [hline, hbase]
    split
    · intro _ hd; exact hclean hd
    · exact h.cleanMatches i' hi' w' hw'

/-- After ageing, the relations hold for one access more (R93). -/
theorem cacheOk_ageAll (h : CacheOk n s) : CacheOk (n + 1) s.ageAll := by
  have hl := fun {i w} hi hw => line_ageAll_of_ok h (i := i) (w := w) hi hw
  have hb : ∀ i < s.cfg.sets, ∀ w < s.cfg.ways, s.ageAll.lineBase i w = s.lineBase i w := by
    intro i hi w hw
    unfold State.lineBase
    rw [hl hi hw]; rfl
  refine ⟨by simpa using h.rows, ?_, ?_, ?_, ?_, ?_, ?_, ?_, ?_, ?_, ?_⟩
  · intro i hi; rw [State.ways_ageAll]; simpa using h.ways i hi
  · intro i hi w hw; rw [hl hi hw]; exact h.words i hi w hw
  · intro i hi w hw w' hw'; rw [hl hi hw, hl hi hw']; exact h.unique i hi w hw w' hw'
  · intro i hi w hw; rw [hl hi hw]; exact h.invalidClean i hi w hw
  · intro i hi w hw w' hw'; rw [hl hi hw, hl hi (hw'.trans hw)]; exact h.validPrefix i hi w hw w' hw'
  · intro i hi w hw; rw [hl hi hw, hb i hi w hw]; exact h.inside i hi w hw
  · intro i hi w hw; rw [hl hi hw]; intro hv; exact congrArg (· + 1) (h.invalidCounter i hi w hw hv)
  · intro i hi w hw; rw [hl hi hw]; intro hv; exact Nat.succ_lt_succ (h.validCounter i hi w hw hv)
  · intro i hi w hw i' hi' w' hw'
    rw [hl hi hw, hl hi' hw']
    intro hv hv' hr
    exact h.countersApart i hi w hw i' hi' w' hw' hv hv' (Nat.succ.inj hr)
  · intro i hi w hw; rw [hl hi hw, hb i hi w hw]; exact h.cleanMatches i hi w hw

/-- After ageing no counter is 0. -/
theorem rc_ageAll_pos (h : CacheOk n s) {i w : Nat} (hi : i < s.cfg.sets) (hw : w < s.cfg.ways) :
    (s.ageAll.line i w).rc ≠ 0 := by
  rw [line_ageAll_of_ok h hi hw]; exact Nat.succ_ne_zero _

/-! ### Blocks of different lines -/

/-- Two blocks with different tags or sets share no address. -/
theorem blocks_apart {c : Geometry} (hc : LegalGeometry c) {t i t' i' o o' : Nat} (hi : i < c.sets) (hi' : i' < c.sets)
    (ho : o < c.wpb) (ho' : o' < c.wpb) (h : blockBase c t i + o = blockBase c t' i' + o') : t = t' ∧ i = i' ∧ o = o' := by
  obtain ⟨h1, h2, h3⟩ := fields_of_block hc hi ho (t := t)
  obtain ⟨h1', h2', h3'⟩ := fields_of_block hc hi' ho' (t := t')
  rw [h] at h1 h2 h3
  exact ⟨h1.symm.trans h1', h2.symm.trans h2', h3.symm.trans h3'⟩

/-- What `mem` holds after an eviction: the victim's data in its own block if it was valid and dirty, else the old words
(R105, R106, R107). -/
theorem evict_readWord (h : CacheOk n s) {i v : Nat} (hi : i < s.cfg.sets) (hv : v < s.cfg.ways) (a : Nat) :
    (s.evict i v).mem.readWord a =
      if ((s.line i v).valid = true ∧ (s.line i v).dirty = true) ∧ s.lineBase i v ≤ a ∧ a < s.lineBase i v + s.cfg.wpb
      then (s.line i v).data.getD (a - s.lineBase i v) 0 else s.mem.readWord a := by
  rw [State.evict_mem]
  by_cases hd : (s.line i v).valid = true ∧ (s.line i v).dirty = true
  · rw [if_pos hd, Memory.readWord_writeBlock, h.words i hi v hv]
    simp only [hd, and_self, true_and]
  · rw [if_neg hd, if_neg (fun hc => hd hc.1)]

/-- An eviction leaves `mem` outside the victim's block unchanged. -/
theorem evict_readWord_outside (hc : LegalGeometry s.cfg) (h : CacheOk n s) {i v t i' o : Nat} (hi : i < s.cfg.sets)
    (hv : v < s.cfg.ways) (hi' : i' < s.cfg.sets) (ho : o < s.cfg.wpb) (hne : ¬(i' = i ∧ t = (s.line i v).tag)) :
    (s.evict i v).mem.readWord (blockBase s.cfg t i' + o) = s.mem.readWord (blockBase s.cfg t i' + o) := by
  rw [evict_readWord h hi hv, if_neg]
  rintro ⟨-, h1, h2⟩
  have := blocks_apart hc hi' hi ho (o' := blockBase s.cfg t i' + o - s.lineBase i v) (t := t)
    (t' := (s.line i v).tag) (by omega) (by show _ = s.lineBase i v + _; omega)
  exact hne ⟨this.2.1, this.1⟩

/-- An eviction keeps the Cache Store well-formed. -/
theorem cacheOk_evict (hc : LegalGeometry s.cfg) (h : CacheOk n s) {i v : Nat} (hi : i < s.cfg.sets)
    (hv : v < s.cfg.ways) : CacheOk n (s.evict i v) := by
  have hl : ∀ i' w', (s.evict i v).line i' w' = s.line i' w' := fun i' w' => State.line_congr (s.evict_lines i v) i' w'
  have hw : ∀ i', (s.evict i v).ways i' = s.ways i' := fun i' => State.ways_congr (s.evict_lines i v) i'
  have hb : ∀ i' w', (s.evict i v).lineBase i' w' = s.lineBase i' w' := fun i' w' => by
    simp [State.lineBase, hl]
  obtain ⟨h1, h2, h3, h4, h5, h6, h7, h8, h9, h10, h11⟩ := id h
  refine ⟨by simpa using h1, by simpa [hw] using h2, by simpa [hl] using h3, by simpa [hl] using h4,
    by simpa [hl] using h5, by simpa [hl] using h6, by simpa only [hl, hb, State.evict_cfg] using h7,
    by simpa [hl] using h8, by simpa [hl] using h9, by simpa [hl] using h10, ?_⟩
  intro i' hi' w' hw' hval hcl
  rw [hl] at hval hcl ⊢
  rw [State.evict_cfg] at hi' hw' ⊢
  rw [hb, h11 i' hi' w' hw' hval hcl]
  refine Memory.readBlock_congr fun o ho => ?_
  by_cases hd : (s.line i v).valid = true ∧ (s.line i v).dirty = true
  · refine (evict_readWord_outside hc h hi hv hi' ho ?_).symm
    rintro ⟨rfl, ht⟩
    have := h4 i' hi' w' hw' v hv hval hd.1 ht
    rw [this, hd.2] at hcl
    exact Bool.noConfusion hcl
  · rw [State.evict_mem, if_neg hd]

/-! ### The victim and the miss service -/

/-- The victim of a set is one of its ways. -/
theorem selectVictim_lt (hc : LegalGeometry s.cfg) (h : CacheOk n s) {i : Nat} (hi : i < s.cfg.sets) :
    s.selectVictim i < s.cfg.ways := by
  have hlen := h.ways i hi
  have hne : s.ways i ≠ [] := by
    intro he
    rw [he] at hlen
    exact absurd hlen (Nat.ne_of_lt hc.ways)
  rw [← hlen]
  exact victimOf_lt hne

/-- Every way below the victim is valid (R32, R97). -/
theorem valid_below_victim (hc : LegalGeometry s.cfg) (h : CacheOk n s) {i w : Nat} (hi : i < s.cfg.sets)
    (hw : w < s.selectVictim i) : (s.line i w).valid = true := by
  have hv := selectVictim_lt hc h hi
  have hlen := h.ways i hi
  have hne : s.ways i ≠ [] := by
    intro he
    rw [he] at hlen
    exact absurd hlen (Nat.ne_of_lt hc.ways)
  obtain ⟨h1, h2⟩ := victimOf_valid hne
  have hwl : w < (s.ways i).length := by omega
  rw [State.line_eq_getElem _ _ _ hwl]
  cases hb : ((s.ways i)[victimOf (s.ways i)]'(victimOf_lt hne)).valid with
  | true => exact h2 hb _ (List.getElem_mem hwl)
  | false => exact h1 w hw hwl hb

/-- Reading a fill as the replacement of one line and one event. -/
theorem fill_eq (s : State) (i v t : Nat) :
    s.fill i v t = (s.setLine i v (filledLine s i t)).emit .m2c (blockBase s.cfg t i) s.cfg.wpb := rfl

/-- A fill after a failed lookup keeps the Cache Store well-formed (R30, R191). -/
theorem cacheOk_fill (h : CacheOk n s) (hn : 0 < n) {i v t : Nat} (hi : i < s.cfg.sets)
    (hv : v < s.cfg.ways) (hpre : ∀ w < v, (s.line i w).valid = true)
    (hmiss : ∀ w < s.cfg.ways, (s.line i w).valid = true → (s.line i w).tag ≠ t)
    (hin : blockBase s.cfg t i + s.cfg.wpb ≤ s.cfg.memWords)
    (hpos : ∀ i' < s.cfg.sets, ∀ w < s.cfg.ways, (s.line i' w).rc ≠ 0) : CacheOk n (s.fill i v t) := by
  rw [fill_eq]
  refine cacheOk_congr (cacheOk_setLine h hi hv (l := filledLine s i t) rfl ?_ hpre ?_ hin hn ?_ ?_) rfl rfl rfl
  · simp [filledLine]
  · intro w' hw' _ hval; exact hmiss w' hw' hval
  · intro i' hi' w' hw' _ _; exact hpos i' hi' w' hw'
  · intro _; rfl

/-- The miss service keeps the Cache Store well-formed. -/
theorem cacheOk_missService (hc : LegalGeometry s.cfg) (h : CacheOk n s) (hn : 0 < n) {i t : Nat} (hi : i < s.cfg.sets)
    (hmiss : ∀ w < s.cfg.ways, (s.line i w).valid = true → (s.line i w).tag ≠ t)
    (hin : blockBase s.cfg t i + s.cfg.wpb ≤ s.cfg.memWords)
    (hpos : ∀ i' < s.cfg.sets, ∀ w < s.cfg.ways, (s.line i' w).rc ≠ 0) : CacheOk n (s.missService i t).1 := by
  have hv := selectVictim_lt hc h hi
  have hl : ∀ i' w', (s.evict i (s.selectVictim i)).line i' w' = s.line i' w' :=
    fun i' w' => State.line_congr (s.evict_lines _ _) i' w'
  refine cacheOk_fill (cacheOk_evict hc h hi hv) hn (by simpa using hi) (by simpa using hv) ?_ ?_ (by simpa using hin) ?_
  · intro w hw; rw [hl]; exact valid_below_victim hc h hi hw
  · intro w hw; rw [hl]; exact hmiss w (by simpa using hw)
  · intro i' hi' w hw; rw [hl]; exact hpos i' (by simpa using hi') w (by simpa using hw)

end

end Sys2Proof.Machine
end

