-- ==== Sys2Proof/Laws/View.lean ====
section
/-! SUPPORT. `VIEW` and the parts of an access (20_memory.md R52; 44_access_controller.md R115): what `LOCATE` finds, and what
the read arm and the write arm leave. -/

namespace Sys2Proof.Machine

open Sys2Proof.Safety

section
variable {n : Nat} {s t : State}

/-! ### `VIEW` through `LOOKUP` -/

/-- Under uniqueness `LOOKUP` answers the one line that holds the block (R86). -/
theorem lookup_eq_some (h : CacheOk n s) {i w g : Nat} (hi : i < s.cfg.sets) (hw : w < s.cfg.ways)
    (hv : (s.line i w).valid = true) (hg : (s.line i w).tag = g) : s.lookup i g = some w := by
  cases hx : s.lookup i g with
  | none => exact absurd hg (State.lookup_none hx (by rw [h.ways i hi]; exact hw) hv)
  | some w' =>
    obtain ⟨h1, h2, h3⟩ := State.lookup_some hx
    rw [h.ways i hi] at h1
    rw [h.unique i hi w hw w' h1 hv h2 (hg.trans h3.symm)]

theorem lookup_eq_none (h : CacheOk n s) {i g : Nat} (hi : i < s.cfg.sets)
    (hm : ∀ w < s.cfg.ways, (s.line i w).valid = true → (s.line i w).tag ≠ g) : s.lookup i g = none := by
  cases hx : s.lookup i g with
  | none => rfl
  | some w =>
    obtain ⟨h1, h2, h3⟩ := State.lookup_some hx
    rw [h.ways i hi] at h1
    exact absurd h3 (hm w h1 h2)

/-- `VIEW` of an address whose block a line holds. -/
theorem view_of_line (hc : LegalGeometry s.cfg) (h : CacheOk n s) {w a : Nat} (hw : w < s.cfg.ways)
    (hv : (s.line (setIndex s.cfg a) w).valid = true) (hg : (s.line (setIndex s.cfg a) w).tag = tagOf s.cfg a) :
    s.view a = (s.line (setIndex s.cfg a) w).data.getD (blockOffset s.cfg a) 0 := by
  rw [State.view, lookup_eq_some h (setIndex_lt hc a) hw hv hg]
  rfl

/-- `VIEW` of an address whose block no line holds. -/
theorem view_of_mem (hc : LegalGeometry s.cfg) (h : CacheOk n s) {a : Nat}
    (hm : ∀ w < s.cfg.ways, (s.line (setIndex s.cfg a) w).valid = true →
      (s.line (setIndex s.cfg a) w).tag ≠ tagOf s.cfg a) :
    s.view a = s.mem.readWord a := by
  rw [State.view, lookup_eq_none h (setIndex_lt hc a) hm]

/-- `VIEW` depends on the configuration, the lines and `mem` alone. -/
theorem view_congr (hc : t.cfg = s.cfg) (hl : t.lines = s.lines) (hm : t.mem = s.mem) (a : Nat) : t.view a = s.view a := by
  unfold State.view State.readWord
  rw [hc, State.lookup_congr hl, hm]
  simp only [State.line_congr hl]

@[simp] theorem view_emit (k : EventKind) (b m a : Nat) : (s.emit k b m).view a = s.view a := rfl
@[simp] theorem view_respond (r : Response) (a : Nat) : (s.respond r).view a = s.view a := rfl
@[simp] theorem view_setReg (r : RegNum) (v : Word) (a : Nat) : (s.setReg r v).view a = s.view a := rfl
@[simp] theorem view_setPc (v : Word) (a : Nat) : (s.setPc v).view a = s.view a := rfl
@[simp] theorem view_advancePc (a : Nat) : s.advancePc.view a = s.view a := rfl
@[simp] theorem view_setRun (r : RunState) (a : Nat) : (s.setRun r).view a = s.view a := rfl
@[simp] theorem view_raiseFatal (f : Fatal) (a : Nat) : (s.raiseFatal f).view a = s.view a := rfl

/-! ### Ageing and the miss service leave `VIEW` alone -/

theorem view_ageAll (s : State) (a : Nat) : s.ageAll.view a = s.view a := by
  unfold State.view State.readWord
  rw [State.lookup_ageAll]
  simp only [State.ageAll_cfg, State.ageAll_mem]
  cases hx : s.lookup (setIndex s.cfg a) (tagOf s.cfg a) with
  | none => rfl
  | some w =>
    have hw := (State.lookup_some hx).1
    simp only [State.line_ageAll s _ w hw]
    rfl

/-- A line after the miss service: the victim's is the filled one, the others are as before. -/
theorem line_missService (hc : LegalGeometry s.cfg) (h : CacheOk n s) {i g : Nat} (hi : i < s.cfg.sets) (i' w' : Nat) :
    (s.missService i g).1.line i' w' =
      if i' = i ∧ w' = s.selectVictim i then filledLine (s.evict i (s.selectVictim i)) i g else s.line i' w' := by
  have hv := selectVictim_lt hc h hi
  have hE := cacheOk_evict hc h hi hv
  have := line_setLine_of_ok hE (i := i) (w := s.selectVictim i) (by simpa using hi) (by simpa using hv)
    (filledLine (s.evict i (s.selectVictim i)) i g) i' w'
  rw [State.line_congr (s.evict_lines _ _) i' w'] at this
  exact this

theorem missService_cfg (i g : Nat) : (s.missService i g).1.cfg = s.cfg := by simp [State.missService]

theorem missService_mem (i g : Nat) : (s.missService i g).1.mem = (s.evict i (s.selectVictim i)).mem := rfl

/-- Evicting a valid line and dropping it leaves its words readable from `mem` (R111). -/
theorem evicted_word (h : CacheOk n s) {i v o : Nat} (hi : i < s.cfg.sets) (hv : v < s.cfg.ways) (ho : o < s.cfg.wpb)
    (hval : (s.line i v).valid = true) :
    (s.evict i v).mem.readWord (s.lineBase i v + o) = (s.line i v).data.getD o 0 := by
  rw [evict_readWord h hi hv]
  cases hd : (s.line i v).dirty with
  | true =>
    rw [if_pos ⟨⟨hval, rfl⟩, by omega, by omega⟩]
    congr 1
    omega
  | false =>
    rw [if_neg (by simp), h.cleanMatches i hi v hv hval hd, Memory.getD_readBlock _ _ _ _ ho]

/-- The miss service leaves `VIEW` unchanged at every address (R53, R111). -/
theorem view_missService (hc : LegalGeometry s.cfg) (h : CacheOk n s) {i g : Nat} (hi : i < s.cfg.sets)
    (hM : CacheOk n (s.missService i g).1) (hmiss : ∀ w < s.cfg.ways, (s.line i w).valid = true → (s.line i w).tag ≠ g)
    (b : Nat) : (s.missService i g).1.view b = s.view b := by
  have hv := selectVictim_lt hc h hi
  have hline := line_missService hc h hi (g := g)
  have hcfg := missService_cfg (s := s) i g
  have hcM : LegalGeometry (s.missService i g).1.cfg := by rw [hcfg]; exact hc
  have hib := setIndex_lt hc b
  have hob := blockOffset_lt hc b
  have hsplit := address_split hc b
  generalize hvd : s.selectVictim i = v at *
  by_cases hreq : setIndex s.cfg b = i ∧ tagOf s.cfg b = g
  · -- the requested block: a miss before, the filled line after
    obtain ⟨h1, h2⟩ := hreq
    have hl := hline i v
    rw [if_pos ⟨rfl, rfl⟩] at hl
    rw [view_of_line hcM hM (w := v) (by rw [hcfg]; exact hv) (by rw [hcfg, h1, hl]; rfl)
      (by rw [hcfg, h1, hl, h2]; rfl), hcfg, h1, hl]
    rw [view_of_mem hc h (a := b) (by rw [h1, h2]; exact hmiss)]
    simp only [filledLine, State.evict_cfg]
    rw [Memory.getD_readBlock _ _ _ _ hob]
    by_cases hval : (s.line i v).valid = true
    · have hne : ¬(i = i ∧ g = (s.line i v).tag) := fun hx => hmiss v hv hval hx.2.symm
      rw [evict_readWord_outside hc h hi hv hi hob hne]
      conv_rhs => rw [hsplit, h1, h2]
    · rw [State.evict_mem, if_neg (fun hx => hval hx.1)]
      conv_rhs => rw [hsplit, h1, h2]
  · by_cases hold : setIndex s.cfg b = i ∧ (s.line i v).valid = true ∧ tagOf s.cfg b = (s.line i v).tag
    · -- the victim's block: its line before, `mem` after
      obtain ⟨h1, hval, h2⟩ := hold
      have hold' := view_of_line hc h (a := b) (w := v) hv (by rw [h1]; exact hval) (by rw [h1, h2])
      rw [hold', h1, view_of_mem hcM hM, missService_mem, hvd]
      · rw [← evicted_word h hi hv hob hval]
        conv_lhs => rw [hsplit, h1, h2]
        rfl
      · intro w hw
        rw [hcfg, h1, hline]
        split
        · intro _ hx; exact hreq ⟨h1, by rw [← hx]; rfl⟩
        · next hx =>
          intro hwv hwt
          rw [hcfg] at hw
          exact hx ⟨rfl, h.unique i hi w hw v hv hwv hval (hwt.trans h2)⟩
    · -- any other block: the same line, or the same word of `mem`
      by_cases hres : ∃ w < s.cfg.ways, (s.line (setIndex s.cfg b) w).valid = true ∧
          (s.line (setIndex s.cfg b) w).tag = tagOf s.cfg b
      · obtain ⟨w, hw, hwv, hwt⟩ := hres
        have hx : ¬(setIndex s.cfg b = i ∧ w = v) := by
          rintro ⟨h1, rfl⟩
          rw [h1] at hwv hwt
          exact hold ⟨h1, hwv, hwt.symm⟩
        have hl := hline (setIndex s.cfg b) w
        rw [if_neg hx] at hl
        rw [view_of_line hc h hw hwv hwt, view_of_line hcM hM (w := w) (by rw [hcfg]; exact hw)
          (by rw [hcfg, hl]; exact hwv) (by rw [hcfg, hl]; exact hwt), hcfg, hl]
      · have hnone : ∀ w < s.cfg.ways, (s.line (setIndex s.cfg b) w).valid = true →
            (s.line (setIndex s.cfg b) w).tag ≠ tagOf s.cfg b := fun w hw hwv hwt => hres ⟨w, hw, hwv, hwt⟩
        rw [view_of_mem hc h hnone, view_of_mem hcM hM, missService_mem, hvd]
        · by_cases hval : (s.line i v).valid = true
          · have hne : ¬(setIndex s.cfg b = i ∧ tagOf s.cfg b = (s.line i v).tag) := fun hx => hold ⟨hx.1, hval, hx.2⟩
            have := evict_readWord_outside hc h hi hv hib hob hne
            rwa [← hsplit] at this
          · rw [State.evict_mem, if_neg (fun hx => hval hx.1)]
        · intro w hw
          rw [hcfg, hline]
          split
          · next hx => intro _ ht; exact hreq ⟨hx.1, by rw [← ht]; rfl⟩
          · exact hnone w (by rwa [hcfg] at hw)

/-! ### `LOCATE` -/

/-- What `LOCATE` finds for an in-bounds address: a valid line with its tag, in a well-formed Cache Store aged once, all other
lines only aged, `VIEW` as before, no access ended (R115). -/
structure Located (n : Nat) (s t : State) (a w : Nat) : Prop where
  cfg : t.cfg = s.cfg
  ok : CacheOk (n + 1) t
  way : w < s.cfg.ways
  valid : (t.line (setIndex s.cfg a) w).valid = true
  tag : (t.line (setIndex s.cfg a) w).tag = tagOf s.cfg a
  others : ∀ i' < s.cfg.sets, ∀ w' < s.cfg.ways, ¬(i' = setIndex s.cfg a ∧ w' = w) → t.line i' w' = ageLine (s.line i' w')
  view : ∀ b, t.view b = s.view b
  served : served t = served s

theorem located (hc : LegalGeometry s.cfg) (h : CacheOk n s) {a : Nat} (ha : a < s.cfg.memWords) :
    Located n s (s.locate a).1 a (s.locate a).2.1 := by
  have hi := setIndex_lt hc a
  have hA := cacheOk_ageAll h
  cases hx : s.lookup (setIndex s.cfg a) (tagOf s.cfg a) with
  | some w =>
    obtain ⟨h1, h2, h3⟩ := State.lookup_some hx
    rw [h.ways _ hi] at h1
    rw [State.locate_hit hx]
    refine ⟨rfl, hA, h1, ?_, ?_, fun i' hi' w' hw' _ => line_ageAll_of_ok h hi' hw', fun b => view_ageAll s b, rfl⟩
    · rw [line_ageAll_of_ok h hi h1]; exact h2
    · rw [line_ageAll_of_ok h hi h1]; exact h3
  | none =>
    rw [State.locate_miss hx]
    have hmiss : ∀ w < s.ageAll.cfg.ways, (s.ageAll.line (setIndex s.cfg a) w).valid = true →
        (s.ageAll.line (setIndex s.cfg a) w).tag ≠ tagOf s.cfg a := by
      intro w hw hv
      rw [line_ageAll_of_ok h hi hw] at hv ⊢
      exact State.lookup_none hx (by rw [h.ways _ hi]; exact hw) hv
    have hM := cacheOk_missService (s := s.ageAll) hc hA (Nat.succ_pos n) hi hmiss
      (block_inside hc ha) (fun i' hi' w hw => rc_ageAll_pos h hi' hw)
    have hline := line_missService (s := s.ageAll) hc hA hi (g := tagOf s.cfg a)
    refine ⟨missService_cfg (s := s.ageAll) _ _, hM, selectVictim_lt (s := s.ageAll) hc hA hi, ?_, ?_, ?_, ?_, ?_⟩
    · rw [hline, if_pos ⟨rfl, rfl⟩]; rfl
    · rw [hline, if_pos ⟨rfl, rfl⟩]; rfl
    · intro i' hi' w' hw' hne
      rw [hline, if_neg hne]
      exact line_ageAll_of_ok h hi' hw'
    · intro b
      rw [view_missService (s := s.ageAll) hc hA hi hM hmiss, view_ageAll]
    · show List.countP _ _ = List.countP _ _
      simp only [State.missService, State.fill_trace, State.evict_trace, State.ageAll_trace, List.countP_append]
      have : List.countP endsAccess
          (victimEvents s.ageAll (setIndex s.cfg a) (s.ageAll.selectVictim (setIndex s.cfg a))) = 0 := by
        unfold victimEvents
        split_ifs <;> simp [endsAccess]
      rw [this]
      simp [endsAccess]

/-! ### The read arm and the write arm -/

/-- Setting the counter of the located line to 0 keeps the Cache Store well-formed and `VIEW` (R95). -/
theorem located_touch {a w : Nat} (hc : LegalGeometry s.cfg) (h : Located n s t a w) :
    CacheOk (n + 1) (t.touch (setIndex s.cfg a) w) := by
  have hi := setIndex_lt hc a
  have hi' : setIndex s.cfg a < t.cfg.sets := by rw [h.cfg]; exact hi
  have hw' : w < t.cfg.ways := by rw [h.cfg]; exact h.way
  refine cacheOk_setLine h.ok hi' hw' (l := { t.line (setIndex s.cfg a) w with rc := 0 }) h.valid
    (h.ok.words _ hi' _ hw') (fun w' hlt => h.ok.validPrefix _ hi' _ hw' w' hlt h.valid) ?_
    (h.ok.inside _ hi' _ hw' h.valid) (Nat.succ_pos n) ?_ (h.ok.cleanMatches _ hi' _ hw' h.valid)
  · intro w₂ hw₂ hne hv₂ ht
    exact hne (h.ok.unique _ hi' w₂ hw₂ w hw' hv₂ h.valid ht)
  · intro i₂ hi₂ w₂ hw₂ hne _
    rw [h.cfg] at hi₂ hw₂
    rw [h.others i₂ hi₂ w₂ hw₂ hne]
    exact Nat.succ_ne_zero _

/-- Replacing the located line by one with the same flags of validity and tag changes `VIEW` in its block alone. -/
theorem located_view_setLine {a w : Nat} (hc : LegalGeometry s.cfg) (h : Located n s t a w) {l : Line}
    (hval : l.valid = true) (htag : l.tag = tagOf s.cfg a)
    (hok : CacheOk (n + 1) (t.setLine (setIndex s.cfg a) w l)) (b : Nat) :
    (t.setLine (setIndex s.cfg a) w l).view b =
      if setIndex s.cfg b = setIndex s.cfg a ∧ tagOf s.cfg b = tagOf s.cfg a then l.data.getD (blockOffset s.cfg b) 0
      else s.view b := by
  have hi := setIndex_lt hc a
  have hi' : setIndex s.cfg a < t.cfg.sets := by rw [h.cfg]; exact hi
  have hw' : w < t.cfg.ways := by rw [h.cfg]; exact h.way
  have hct : LegalGeometry t.cfg := by rw [h.cfg]; exact hc
  have hline := line_setLine_of_ok h.ok hi' hw' l
  have hcfg : (t.setLine (setIndex s.cfg a) w l).cfg = s.cfg := h.cfg
  have hcs : LegalGeometry (t.setLine (setIndex s.cfg a) w l).cfg := by rw [hcfg]; exact hc
  split
  · next hb =>
    have hl := hline (setIndex s.cfg a) w
    rw [if_pos ⟨rfl, rfl⟩] at hl
    rw [view_of_line hcs hok (w := w) hw' (by rw [hcfg, hb.1, hl]; exact hval)
      (by rw [hcfg, hb.1, hl, hb.2]; exact htag), hcfg, hb.1, hl]
  · next hb =>
    rw [← h.view b]
    by_cases hres : ∃ w₂ < t.cfg.ways, (t.line (setIndex s.cfg b) w₂).valid = true ∧
        (t.line (setIndex s.cfg b) w₂).tag = tagOf s.cfg b
    · obtain ⟨w₂, hw₂, hv₂, ht₂⟩ := hres
      have hne : ¬(setIndex s.cfg b = setIndex s.cfg a ∧ w₂ = w) := by
        rintro ⟨h1, rfl⟩
        rw [h1, h.tag] at ht₂
        exact hb ⟨h1, ht₂.symm⟩
      have hl := hline (setIndex s.cfg b) w₂
      rw [if_neg hne] at hl
      rw [view_of_line hcs hok (w := w₂) hw₂ (by rw [hcfg, hl]; exact hv₂) (by rw [hcfg, hl]; exact ht₂), hcfg, hl,
        view_of_line hct h.ok (w := w₂) hw₂ (by rw [h.cfg]; exact hv₂) (by rw [h.cfg]; exact ht₂), h.cfg]
    · have hnone : ∀ w₂ < t.cfg.ways, (t.line (setIndex t.cfg b) w₂).valid = true →
          (t.line (setIndex t.cfg b) w₂).tag ≠ tagOf t.cfg b := by
        rw [h.cfg]
        exact fun w₂ hw₂ hv₂ ht₂ => hres ⟨w₂, by rw [h.cfg]; exact hw₂, hv₂, ht₂⟩
      rw [view_of_mem hct h.ok hnone, view_of_mem hcs hok]
      · rfl
      · intro w₂ hw₂
        rw [hcfg, hline]
        split
        · next hx => intro _ ht; exact hb ⟨hx.1, by rw [← ht, htag]⟩
        · rw [h.cfg] at hnone; exact hnone w₂ (by rw [← h.cfg]; exact hw₂)

end

end Sys2Proof.Machine
end

