-- ==== Sys2Proof/Laws/Serve.lean ====
section
/-! SUPPORT. A served access: the Cache Store it leaves, `VIEW` after it, the word it returns (44_access_controller.md R117 to
R120; 20_memory.md R53). -/

namespace Sys2Proof.Machine

open Sys2Proof.Safety

section
variable {s : State} {a : Nat}

theorem served_emit_end (t : State) (k : EventKind) (b n : Nat) (hk : k = .c2p ∨ k = .p2c) :
    served (t.emit k b n) = served t + 1 := by
  unfold served
  rw [State.emit_trace, List.countP_append]
  rcases hk with rfl | rfl <;> simp [endsAccess]

/-- Everything a served read does to the cache, to `VIEW` and to the word returned. -/
theorem serveRead_spec (hc : LegalGeometry s.cfg) (h : CacheInv s) (ha : a < s.cfg.memWords) :
    CacheInv (s.serveRead a).1 ∧ (∀ b, (s.serveRead a).1.view b = s.view b) ∧
      (s.serveRead a).2 = .readOk (s.locate a).2.2 (s.view a) ∧ served (s.serveRead a).1 = served s + 1 := by
  have hL := located hc h ha
  have hT := located_touch hc hL
  have hserved : served (s.serveRead a).1 = served s + 1 :=
    (served_emit_end (s.locate a).1 .c2p a 1 (.inl rfl)).trans (congrArg (· + 1) hL.served)
  have hi := setIndex_lt hc a
  have hcl : LegalGeometry (s.locate a).1.cfg := by rw [hL.cfg]; exact hc
  have hline : (s.locate a).1.view a = ((s.locate a).1.line (setIndex s.cfg a) (s.locate a).2.1).data.getD
      (blockOffset s.cfg a) 0 := by
    have := view_of_line hcl hL.ok (a := a) (w := (s.locate a).2.1) (by rw [hL.cfg]; exact hL.way)
      (by rw [hL.cfg]; exact hL.valid) (by rw [hL.cfg]; exact hL.tag)
    rwa [hL.cfg] at this
  have hfin : (s.serveRead a).1 = (((s.locate a).1.touch (setIndex s.cfg a) (s.locate a).2.1).emit .c2p a 1).respond
      (.readOk (s.locate a).2.2 ((s.locate a).1.finishRead a (s.locate a).2.1).2) := by
    simp only [State.serveRead, State.finishRead, State.locate_cfg]
    rfl
  refine ⟨?_, ?_, ?_, hserved⟩
  · unfold CacheInv
    rw [hserved, hfin]
    exact cacheOk_congr hT rfl rfl rfl
  · intro b
    rw [hfin, view_respond, view_emit]
    have := located_view_setLine hc hL (l := { (s.locate a).1.line (setIndex s.cfg a) (s.locate a).2.1 with rc := 0 })
      hL.valid hL.tag hT b
    refine this.trans ?_
    split
    · next hb =>
      have hvb := view_of_line hcl hL.ok (a := b) (w := (s.locate a).2.1) (by rw [hL.cfg]; exact hL.way)
        (by rw [hL.cfg, hb.1]; exact hL.valid) (by rw [hL.cfg, hb.1, hb.2]; exact hL.tag)
      rw [hL.cfg, hb.1] at hvb
      rw [← hL.view b, hvb]
    · rfl
  · rw [← hL.view a, hline]
    simp only [State.serveRead, State.finishRead, State.locate_cfg]
    rfl

/-- Everything a served write does to the cache and to `VIEW`. -/
theorem serveWrite_spec (hc : LegalGeometry s.cfg) (h : CacheInv s) (ha : a < s.cfg.memWords) (v : Word) :
    CacheInv (s.serveWrite a v).1 ∧ (∀ b, (s.serveWrite a v).1.view b = if b = a then v else s.view b) ∧
      (s.serveWrite a v).2 = .writeOk (s.locate a).2.2 ∧ served (s.serveWrite a v).1 = served s + 1 := by
  have hL := located hc h ha
  have hi := setIndex_lt hc a
  generalize hw : (s.locate a).2.1 = w at hL
  generalize ht : (s.locate a).1 = t at hL
  have hi' : setIndex s.cfg a < t.cfg.sets := by rw [hL.cfg]; exact hi
  have hw' : w < t.cfg.ways := by rw [hL.cfg]; exact hL.way
  have hcl : LegalGeometry t.cfg := by rw [hL.cfg]; exact hc
  have hlen := hL.ok.words _ hi' _ hw'
  -- the line a write leaves, dirty, with counter 0
  let l : Line := { (markDirty { t.line (setIndex s.cfg a) w with
    data := (t.line (setIndex s.cfg a) w).data.set (blockOffset s.cfg a) v }) with rc := 0 }
  have hfin : (s.serveWrite a v).1 = ((t.setLine (setIndex s.cfg a) w l).emit .p2c a 1).respond
      (.writeOk (s.locate a).2.2) := by
    simp only [State.serveWrite, State.finishWrite, hw, ht, hL.cfg]
    have h1 : setIndex s.cfg a < t.lines.length := by rw [hL.ok.rows]; exact hi'
    have h2 : w < (t.ways (setIndex s.cfg a)).length := by rw [hL.ok.ways _ hi']; exact hw'
    have hl : (t.writeWord (setIndex s.cfg a) w (blockOffset s.cfg a) v).line (setIndex s.cfg a) w =
        markDirty { t.line (setIndex s.cfg a) w with
          data := (t.line (setIndex s.cfg a) w).data.set (blockOffset s.cfg a) v } := by
      rw [State.writeWord, State.line_setLine, if_pos ⟨rfl, rfl, h1, h2⟩]
    have hsw : ∀ x : State, (x.emit .p2c a 1).touch (setIndex s.cfg a) w =
        (x.touch (setIndex s.cfg a) w).emit .p2c a 1 := fun _ => rfl
    rw [hsw, State.touch, hl, State.writeWord, State.setLine_setLine]
  have hok : CacheOk (served s + 1) (t.setLine (setIndex s.cfg a) w l) := by
    refine cacheOk_setLine hL.ok hi' hw' (l := l) hL.valid (by simpa [l, markDirty] using hlen)
      (fun w' hlt => hL.ok.validPrefix _ hi' _ hw' w' hlt hL.valid) ?_ (hL.ok.inside _ hi' _ hw' hL.valid)
      (Nat.succ_pos _) ?_ (fun hd => by simp [l, markDirty] at hd)
    · intro w₂ hw₂ hne hv₂ htg
      exact hne (hL.ok.unique _ hi' w₂ hw₂ w hw' hv₂ hL.valid htg)
    · intro i₂ hi₂ w₂ hw₂ hne _
      rw [hL.cfg] at hi₂ hw₂
      rw [hL.others i₂ hi₂ w₂ hw₂ hne]
      exact Nat.succ_ne_zero _
  have hserved : served (s.serveWrite a v).1 = served s + 1 := by
    rw [hfin]
    refine (served_emit_end _ .p2c a 1 (.inr rfl)).trans (congrArg (· + 1) ?_)
    exact hL.served
  refine ⟨?_, ?_, ?_, hserved⟩
  · unfold CacheInv
    rw [hserved, hfin]
    exact cacheOk_congr hok rfl rfl rfl
  · intro b
    rw [hfin, view_respond, view_emit,
      located_view_setLine hc hL (l := l) hL.valid hL.tag hok b]
    have hsa := address_split hc a
    have hsb := address_split hc b
    have hoff := blockOffset_lt hc a
    rw [← hL.cfg, ← hlen, hL.cfg] at hoff
    by_cases hb : setIndex s.cfg b = setIndex s.cfg a ∧ tagOf s.cfg b = tagOf s.cfg a
    · rw [if_pos hb]
      simp only [l, markDirty, List.getD_eq_getElem?_getD, List.getElem?_set]
      by_cases ho : blockOffset s.cfg a = blockOffset s.cfg b
      · have : b = a := by rw [hsa, hsb, hb.1, hb.2, ho]
        rw [if_pos this, if_pos ho, if_pos hoff]
        rfl
      · have : ¬ b = a := fun hx => ho (by rw [hx])
        rw [if_neg this, if_neg ho, ← hL.view b, ← List.getD_eq_getElem?_getD]
        have hvb := view_of_line hcl hL.ok (a := b) (w := w) hw' (by rw [hL.cfg, hb.1]; exact hL.valid)
          (by rw [hL.cfg, hb.1, hb.2]; exact hL.tag)
        rw [hL.cfg, hb.1] at hvb
        exact hvb.symm
    · rw [if_neg hb, if_neg]
      rintro rfl
      exact hb ⟨rfl, rfl⟩
  · rfl

end

end Sys2Proof.Machine
end

