-- ==== Sys2Proof/Laws/Exec.lean ====
section
/-! SUPPORT. What each access-issuing instruction answers, and what a step can do: the lemmas the statements about `exec` and
`step` are proved from (44_access_controller.md R115; 45_execution_engine.md R135 to R147). -/

namespace Sys2Proof.Machine

open Sys2Proof.Safety

section
variable {s t : State} {a d v : Word} {f0 f1 : RegNum} {imm : Imm}

/-- A served `READ` answers the state a served read leaves. -/
theorem exec_read_served (hr : s.status = .ready) (hb : inBounds s.cfg a = true) (d : Word) :
    exec (.read a d) s = .next (s.serveRead a.toNat).1 := by
  show runRequest opRead a d s = _
  rw [runRequest, State.access_read hr hb]

/-- A served `WRITE` answers the state a served write leaves. -/
theorem exec_write_served (hr : s.status = .ready) (hb : inBounds s.cfg a = true) (v : Word) :
    exec (.write a v) s = .next (s.serveWrite a.toNat v).1 := by
  show runRequest opWrite a v s = _
  rw [runRequest, State.access_write hr hb]

/-- The four answers of a request. -/
theorem runRequest_cases (op : ReqOp) (a v : Word) (s : State) :
    (s.status ≠ .ready ∧ runRequest op a v s = .fault .blockNotReady) ∨
    (s.status = .ready ∧ ∃ f, runRequest op a v s = .next (s.raiseFatal f)) ∨
    (s.status = .ready ∧ op = opRead ∧ inBounds s.cfg a = true ∧ runRequest op a v s = .next (s.serveRead a.toNat).1) ∨
    (s.status = .ready ∧ op = opWrite ∧ inBounds s.cfg a = true ∧
      runRequest op a v s = .next (s.serveWrite a.toNat v).1) := by
  unfold runRequest
  rcases s.access_cases op a v with ⟨h, e⟩ | ⟨h, f, e⟩ | ⟨h, ho, hb, e⟩ | ⟨h, ho, hb, e⟩ <;> rw [e]
  · exact .inl ⟨h, rfl⟩
  · exact .inr (.inl ⟨h, f, rfl⟩)
  · exact .inr (.inr (.inl ⟨h, ho, hb, rfl⟩))
  · exact .inr (.inr (.inr ⟨h, ho, hb, rfl⟩))

/-- A served read primitive returns `VIEW` (R53). -/
theorem memRead_served (hr : s.status = .ready) (hc : LegalGeometry s.cfg) (h : CacheInv s)
    (hb : inBounds s.cfg a = true) : s.memRead a = .done (s.serveRead a.toNat).1 (s.view a.toNat) := by
  have hs := (serveRead_spec hc h ((inBounds_iff hc a).1 hb)).2.2.1
  rw [State.memRead, State.access_read hr hb]
  generalize s.serveRead a.toNat = p at hs ⊢
  obtain ⟨t, r⟩ := p
  simp only at hs
  rw [hs]

/-- A served write primitive. -/
theorem memWrite_served (hr : s.status = .ready) (hb : inBounds s.cfg a = true) (v : Word) :
    s.memWrite a v = .done (s.serveWrite a.toNat v).1 () := by
  rw [State.memWrite, State.access_write hr hb]
  rfl

/-! An access neither reads nor changes the pc (R24): it commutes with setting the pc. -/

theorem State.locate_setPc (s : State) (p : Word) (a : Nat) :
    (s.setPc p).locate a = ((s.locate a).1.setPc p, (s.locate a).2) := by
  unfold State.locate
  rw [show (s.setPc p).ageAll.lookup = s.ageAll.lookup from rfl, State.setPc_cfg]
  split
  · rfl
  · unfold State.missService State.evict
    have hv : ∀ i, (s.setPc p).ageAll.selectVictim i = s.ageAll.selectVictim i := fun _ => rfl
    have hl : ∀ i w, (s.setPc p).ageAll.line i w = s.ageAll.line i w := fun _ _ => rfl
    simp only [hv, hl]
    split_ifs <;> rfl

theorem State.serveRead_setPc (s : State) (p : Word) (a : Nat) :
    ((s.setPc p).serveRead a).1 = (s.serveRead a).1.setPc p := by
  simp only [State.serveRead, State.locate_setPc]
  rfl

theorem State.serveWrite_setPc (s : State) (p : Word) (a : Nat) (v : Word) :
    ((s.setPc p).serveWrite a v).1 = (s.serveWrite a v).1.setPc p := by
  simp only [State.serveWrite, State.locate_setPc]
  rfl

/-- `lw` in bounds: the read on the advanced pc, then the register (R143). -/
theorem exec_lw_served (hr : s.status = .ready) (hc : LegalGeometry s.cfg) (h : CacheInv s)
    (hb : inBounds s.cfg (dataAddress s f1 imm) = true) :
    exec (.lw f0 f1 imm) s = .next
      ((s.advancePc.serveRead (dataAddress s f1 imm).toNat).1.setReg f0 (s.view (dataAddress s f1 imm).toNat)) := by
  show execLw f0 f1 imm s = _
  have := memRead_served (s := s.advancePc) (a := dataAddress s f1 imm) hr hc (cacheOk_congr h rfl rfl rfl) hb
  rw [execLw, this]
  rfl

/-- `sw` in bounds: the write on the advanced pc (R144). -/
theorem exec_sw_served (hr : s.status = .ready) (hb : inBounds s.cfg (dataAddress s f1 imm) = true) :
    exec (.sw f0 f1 imm) s = .next (s.advancePc.serveWrite (dataAddress s f1 imm).toNat (s.reg f0)).1 := by
  have := memWrite_served (s := s.advancePc) (a := dataAddress s f1 imm) hr hb (s.reg f0)
  rw [show exec (.sw f0 f1 imm) s = execSw f0 f1 imm s from rfl, execSw,
    show regA s f0 = s.reg f0 from rfl, this]

/-- The three answers of `lw`. -/
theorem execLw_cases (f0 f1 : RegNum) (imm : Imm) (s : State) :
    (s.status ≠ .ready ∧ exec (.lw f0 f1 imm) s = .fault .blockNotReady) ∨
    (s.status = .ready ∧ inBounds s.cfg (dataAddress s f1 imm) = false ∧
      exec (.lw f0 f1 imm) s = .next ((s.advancePc.raiseFatal (.outOfBounds (dataAddress s f1 imm))).setRun .faulted)) ∨
    (s.status = .ready ∧ inBounds s.cfg (dataAddress s f1 imm) = true ∧
      ∃ w, exec (.lw f0 f1 imm) s = .next ((s.advancePc.serveRead (dataAddress s f1 imm).toNat).1.setReg f0 w)) := by
  have hex : exec (.lw f0 f1 imm) s = execLw f0 f1 imm s := rfl
  rw [hex]
  unfold execLw
  rcases s.advancePc.memRead_cases (dataAddress s f1 imm) with ⟨h, e⟩ | ⟨h, hb, e⟩ | ⟨h, hb, e⟩ <;> rw [e]
  · exact .inl ⟨h, rfl⟩
  · exact .inr (.inl ⟨h, hb, rfl⟩)
  · exact .inr (.inr ⟨h, hb, _, rfl⟩)

/-- The three answers of `sw`. -/
theorem execSw_cases (f0 f1 : RegNum) (imm : Imm) (s : State) :
    (s.status ≠ .ready ∧ exec (.sw f0 f1 imm) s = .fault .blockNotReady) ∨
    (s.status = .ready ∧ inBounds s.cfg (dataAddress s f1 imm) = false ∧
      exec (.sw f0 f1 imm) s = .next ((s.advancePc.raiseFatal (.outOfBounds (dataAddress s f1 imm))).setRun .faulted)) ∨
    (s.status = .ready ∧ inBounds s.cfg (dataAddress s f1 imm) = true ∧
      exec (.sw f0 f1 imm) s = .next (s.advancePc.serveWrite (dataAddress s f1 imm).toNat (s.reg f0)).1) := by
  have hex : exec (.sw f0 f1 imm) s = execSw f0 f1 imm s := rfl
  rw [hex]
  unfold execSw
  rcases s.advancePc.memWrite_cases (dataAddress s f1 imm) (regA s f0) with ⟨h, e⟩ | ⟨h, hb, e⟩ | ⟨h, hb, e⟩ <;> rw [e]
  · exact .inl ⟨h, rfl⟩
  · exact .inr (.inl ⟨h, hb, rfl⟩)
  · exact .inr (.inr ⟨h, hb, rfl⟩)

/-! ### The register instructions -/

/-- Registers after a write of one. -/
theorem State.reg_setReg (s : State) (d r : RegNum) (v : Word) :
    (s.setReg d v).reg r = if r = d then v else s.reg r := by
  unfold State.reg State.setReg
  by_cases h : r = d
  · subst h; simp
  · rw [if_neg h]
    have : d.toNat ≠ r.toNat := fun e => h (BitVec.eq_of_toNat_eq e.symm)
    simp [this]

/-- A register number in the immediate field names that register. -/
theorem destination_of (d : RegNum) {imm : Imm} (h : imm.toNat = d.toNat) : destination imm = some d := by
  unfold destination
  have hd := d.isLt
  rw [if_pos (by omega)]
  congr 1
  apply BitVec.eq_of_toNat_eq
  rw [BitVec.toNat_setWidth, h, Nat.mod_eq_of_lt d.isLt]

/-- An immediate field above 7 names none. -/
theorem destination_none {imm : Imm} (h : 7 < imm.toNat) : destination imm = none := by
  unfold destination
  rw [if_neg (by omega)]

/-- The two answers of `add` and `nand`. -/
theorem writeDestination_cases (imm : Imm) (v : Word) (s : State) :
    (∃ d : RegNum, imm.toNat = d.toNat ∧ writeDestination imm v s = .next (s.setReg d v)) ∨
    (7 < imm.toNat ∧ writeDestination imm v s = .refused (.destinationNamesNoRegister imm)) := by
  unfold writeDestination
  by_cases h : imm.toNat < 8
  · have hd : imm.toNat = (imm.setWidth 3).toNat := by rw [BitVec.toNat_setWidth]; omega
    exact .inl ⟨_, hd, by rw [destination_of _ hd]⟩
  · exact .inr ⟨by omega, by rw [destination_none (by omega)]⟩

/-! ### The program loader -/

/-- Where the loader may load, and up to how many words (R184). -/
theorem State.loadCapacity_cases (s : State) :
    (s.trace ≠ [] ∧ s.loadCapacity = none) ∨
    (s.trace = [] ∧ (s.resetIn = true ∨ s.status = .inReset) ∧ s.loadCapacity = some s.cfgIn.cfgMemWords.toNat) ∨
    (s.trace = [] ∧ s.resetIn = false ∧ s.status = .ready ∧ s.loadCapacity = some s.cfg.memWords) ∨
    (s.trace = [] ∧ s.resetIn = false ∧ (∃ f, s.status = .faulted f) ∧ s.loadCapacity = none) := by
  unfold State.loadCapacity
  by_cases ht : s.trace = []
  · cases hi : s.resetIn <;> cases hr : s.status <;> simp [ht]
  · simp [ht]

/-- The two answers of the loader (R184). -/
theorem State.loadImage_cases (s : State) (image : List Word) :
    (∃ n, s.loadCapacity = some n ∧ image.length ≤ n ∧
      s.loadImage image = some { s with mem := s.mem.writeBlock 0 image }) ∨
    ((∀ n, s.loadCapacity = some n → n < image.length) ∧ s.loadImage image = none) := by
  unfold State.loadImage
  cases s.loadCapacity with
  | none => simp
  | some n => by_cases h : image.length ≤ n <;> simp [h]; omega

/-! ### What a step does -/

/-- A fetch in bounds reads `VIEW(pc)` (R54, R136). -/
theorem step_fetch (hi : s.resetIn = false) (hr : s.status = .ready) (hq : s.requests = []) (hn : s.run = .running)
    (hc : LegalGeometry s.cfg) (h : CacheInv s) (hb : inBounds s.cfg s.pc = true) :
    step s = exec (decodeWordWith s.enc (s.view s.pc.toNat)) (s.serveRead s.pc.toNat).1 := by
  unfold step State.nextAction State.nextWhenReady State.nextOfRequester State.fetchWord
  simp only [hi, hr, hq, hn, memRead_served hr hc h hb, Bool.false_eq_true, if_false]

/-- Everything a step can be. -/
theorem step_cases (s : State) :
    (s.resetIn = true ∧ step s = .next s.holdReset) ∨
    (s.resetIn = false ∧ s.status = .inReset ∧ step s = .next s.releaseReset) ∨
    (s.resetIn = false ∧ (∃ f, s.status = .faulted f) ∧ step s = .fault .blockNotReady) ∨
    (s.resetIn = false ∧ s.status = .ready ∧ ∃ r rest, s.requests = r :: rest ∧
      step s = exec (decodeRequest r) { s with requests := rest }) ∨
    (s.resetIn = false ∧ s.status = .ready ∧ s.requests = [] ∧ s.run = .halted ∧ step s = .fault .requesterHalted) ∨
    (s.resetIn = false ∧ s.status = .ready ∧ s.requests = [] ∧ s.run = .faulted ∧ step s = .fault .requesterFaulted) ∨
    (s.resetIn = false ∧ s.status = .ready ∧ s.requests = [] ∧ s.run = .running ∧ inBounds s.cfg s.pc = false ∧
      step s = .next ((s.raiseFatal (.outOfBounds s.pc)).setRun .faulted)) ∨
    (s.resetIn = false ∧ s.status = .ready ∧ s.requests = [] ∧ s.run = .running ∧ inBounds s.cfg s.pc = true ∧
      ∃ w, step s = exec (decodeWordWith s.enc w) (s.serveRead s.pc.toNat).1) := by
  obtain hi | hi := Bool.eq_false_or_eq_true s.resetIn
  · exact .inl ⟨hi, by simp [step, State.nextAction, hi]⟩
  obtain ⟨x, hr⟩ : ∃ x, s.status = x := ⟨_, rfl⟩
  cases x with
  | inReset => exact .inr (.inl ⟨hi, hr, by simp [step, State.nextAction, hi, hr]⟩)
  | faulted f => exact .inr (.inr (.inl ⟨hi, ⟨f, hr⟩, by simp [step, State.nextAction, hi, hr]⟩))
  | ready =>
    obtain ⟨x, hq⟩ : ∃ x, s.requests = x := ⟨_, rfl⟩
    cases x with
    | cons r rest =>
      exact .inr (.inr (.inr (.inl ⟨hi, hr, r, rest, hq,
        by simp [step, State.nextAction, State.nextWhenReady, hi, hr, hq]⟩)))
    | nil =>
      obtain ⟨x, hn⟩ : ∃ x, s.run = x := ⟨_, rfl⟩
      cases x with
      | halted =>
        exact .inr (.inr (.inr (.inr (.inl ⟨hi, hr, hq, hn,
          by simp [step, State.nextAction, State.nextWhenReady, State.nextOfRequester, hi, hr, hq, hn]⟩))))
      | faulted =>
        exact .inr (.inr (.inr (.inr (.inr (.inl ⟨hi, hr, hq, hn,
          by simp [step, State.nextAction, State.nextWhenReady, State.nextOfRequester, hi, hr, hq, hn]⟩)))))
      | running =>
        have hs : s.nextAction = s.fetchWord := by
          simp [State.nextAction, State.nextWhenReady, State.nextOfRequester, hi, hr, hq, hn]
        rcases s.memRead_cases s.pc with ⟨h, e⟩ | ⟨h, hb, e⟩ | ⟨h, hb, e⟩
        · exact absurd hr h
        · refine .inr (.inr (.inr (.inr (.inr (.inr (.inl ⟨hi, hr, hq, hn, hb, ?_⟩))))))
          simp only [step, hs, State.fetchWord, e]
        · refine .inr (.inr (.inr (.inr (.inr (.inr (.inr ⟨hi, hr, hq, hn, hb,
            ((s.locate s.pc.toNat).1.finishRead s.pc.toNat (s.locate s.pc.toNat).2.1).2, ?_⟩))))))
          simp only [step, hs, State.fetchWord, e]

end

end Sys2Proof.Machine
end

