-- ==== Sys2Proof/Laws/PerInstr.lean ====
section
/-! SUPPORT. The statement made of every instruction as syntax: decoding what it encodes to gives it back. -/

namespace Sys2Proof.Laws.RoundTrip

/-- The default layout is usable (R70). -/
theorem defaultLayout_legal : defaultLayout.Legal := by decide

/-- The default encoding is usable (R70, R71). -/
theorem defaultEncoding_legal : defaultEncoding.Legal := by decide

/-- Decoding the encoding of a well-formed instruction gives it back, every operand at every value. -/
def Statement (i : Instr) : Prop := i.wf = true → decode (encode i) = i

/-- A word of the default layout decodes to what its opcode and fields name. -/
theorem decode_fields (op : Opcode) (f0 f1 : RegNum) (imm : Imm) :
    decode (.word (encodeFields defaultLayout op f0 f1 imm)) = ofFields defaultOpcodes op f0 f1 imm := by
  have hop : op.toNat < 2 ^ defaultLayout.opcodeWidth := op.isLt
  show ofFields _ (opcodeField defaultLayout _) (f0Field defaultLayout _) (f1Field defaultLayout _)
    (immField defaultLayout _) = _
  rw [opcodeField_encodeFields defaultLayout_legal hop, f0Field_encodeFields defaultLayout_legal hop,
    f1Field_encodeFields defaultLayout_legal hop, immField_encodeFields defaultLayout_legal hop]
  rfl

/-- A request decodes to what its operation code names. -/
theorem decode_request (op : ReqOp) (a d : Word) : decode (.request (encodeRequest op a d)) =
    if op = 0b00#2 then .read a d else if op = 0b01#2 then .write a d
    else if op = 0b10#2 then .reservedOp10 a d else .reservedOp11 a d := by
  show decodeRequest _ = _
  unfold decodeRequest
  rw [requestOp_encode, requestAddr_encode, requestData_encode]

theorem read (addr wdata : Word) : Statement (.read addr wdata) := fun _ => decode_request _ _ _
theorem write (addr wdata : Word) : Statement (.write addr wdata) := fun _ => decode_request _ _ _
theorem reservedOp10 (addr wdata : Word) : Statement (.reservedOp10 addr wdata) := fun _ => decode_request _ _ _
theorem reservedOp11 (addr wdata : Word) : Statement (.reservedOp11 addr wdata) := fun _ => decode_request _ _ _

theorem add (f0 f1 : RegNum) (imm : Imm) : Statement (.add f0 f1 imm) := fun _ => decode_fields _ _ _ _
theorem nand (f0 f1 : RegNum) (imm : Imm) : Statement (.nand f0 f1 imm) := fun _ => decode_fields _ _ _ _
theorem lw (f0 f1 : RegNum) (imm : Imm) : Statement (.lw f0 f1 imm) := fun _ => decode_fields _ _ _ _
theorem sw (f0 f1 : RegNum) (imm : Imm) : Statement (.sw f0 f1 imm) := fun _ => decode_fields _ _ _ _
theorem beq (f0 f1 : RegNum) (imm : Imm) : Statement (.beq f0 f1 imm) := fun _ => decode_fields _ _ _ _
theorem jalr (f0 f1 : RegNum) (imm : Imm) : Statement (.jalr f0 f1 imm) := fun _ => decode_fields _ _ _ _
theorem halt (f0 f1 : RegNum) (imm : Imm) : Statement (.halt f0 f1 imm) := fun _ => decode_fields _ _ _ _
theorem noop (f0 f1 : RegNum) (imm : Imm) : Statement (.noop f0 f1 imm) := fun _ => decode_fields _ _ _ _

theorem otherOpcode (opcode : Opcode) (f0 f1 : RegNum) (imm : Imm) : Statement (.otherOpcode opcode f0 f1 imm) := by
  intro hwf
  refine (decode_fields _ _ _ _).trans ?_
  simp only [Instr.wf, Instr.wfWith, Bool.and_eq_true, Bool.not_eq_true', List.contains_eq_mem, decide_eq_false_iff_not,
    OpcodeNumbers.all, List.mem_cons, List.not_mem_nil, or_false, not_or] at hwf
  obtain ⟨-, h0, h1, h2, h3, h4, h5, h6, h7⟩ := hwf
  exact (if_neg h0).trans ((if_neg h1).trans ((if_neg h2).trans ((if_neg h3).trans ((if_neg h4).trans ((if_neg h5).trans
    ((if_neg h6).trans (if_neg h7)))))))

end Sys2Proof.Laws.RoundTrip
end

