-- ==== Sys2Proof/Tests/Slice0.lean ====
section
/-! SUPPORT. The model's own tests. Every expected result is a vector of spec/95_test_vectors.md, named in the docstring; the
witnesses at the end show, for each statement with hypotheses, that something meets all of them. -/

namespace Sys2Proof.Tests

open Sys2Proof Sys2Proof.Machine Sys2Proof.Safety

/-! ### Building small states -/

/-- A state right after reset with another geometry, lines and memory image. -/
def small (c : Geometry) (lines : List (List Line)) (image : List Word) : State :=
  { State.reset with cfg := c, lines := lines, mem := Memory.writeBlock 0 image [] }

/-- The configuration `(SETS, WAYS, WPB, MEM_WORDS)`. -/
def geo (sets ways wpb memWords : Nat) : Geometry := { sets := sets, ways := ways, wpb := wpb, memWords := memWords }

/-- A line as the vectors write it: `(valid, dirty, tag, rc, data)`. -/
def line (v d : Bool) (tag rc : Nat) (data : List Word) : Line :=
  { valid := v, dirty := d, tag := tag, rc := rc, data := data }

/-- An event as the vectors write it. -/
def ev (k : EventKind) (a n : Nat) : Event := { kind := k, addr := a, size := n }

/-- What a test looks at in the next state, if there is one. -/
def look {α : Type} (f : State → α) : Host.Outcome State Fault Refusal → Option α
  | .next s => some (f s)
  | .fault _ => none
  | .refused _ => none

/-- What an access of the block shows: response, events, lines. -/
def seen (s : State) : Option Response × List Event × List (List Line) := (s.resp, s.trace, s.lines)

/-- The first words of the memory. -/
def words (n : Nat) (s : State) : List Word := s.mem.readBlock 0 n

/-- Registers 0 to 4 and the pc. -/
def regs5 (s : State) : List Word × Word := ([s.reg 0, s.reg 1, s.reg 2, s.reg 3, s.reg 4], s.pc)

/-- The memory image of sections 2.4 and 2.5 of the vectors. -/
def image8 : List Word := [10, 11, 12, 13, 14, 15, 16, 17]

/-- The one-line states of section 2.5: configuration `(1, 1, 2, 8)`. -/
def oneLine (l : Line) : State := small (geo 1 1 2 8) [[l]] image8

/-- A requester about to fetch word `w` at `pc` in a fresh one-line machine of `n` words, `x1` and `x2` and `x4` as given. -/
def atPc (n : Nat) (pc w x1 x2 x4 : Word) : State :=
  let s := small (geo 1 1 1 n) (freshLines (geo 1 1 1 n)) []
  { s with
    pc := pc
    mem := s.mem.writeWord pc.toNat w
    regs := ((s.regs.set 1 x1).set 2 x2).set 4 x4 }

/-! ### Decoding: words written out from the encoding tables (R58, R59, R68 to R72; T84 to T92, section 2.5) -/

theorem test_decode_read : decodeTableWord 66 0x0_00000004_00000000 = some (.read 4 0) := by decide
theorem test_decode_write : decodeTableWord 66 0x1_00000001_00000007 = some (.write 1 7) := by decide
theorem test_decode_reserved10 : decodeTableWord 66 0x2_00000000_00000000 = some (.reservedOp10 0 0) := by decide
theorem test_decode_reserved11 : decodeTableWord 66 0x3_00000008_00000000 = some (.reservedOp11 8 0) := by decide
/-- Opcode 0000000000, f0 001, f1 001, imm 2 (T84). -/
theorem test_decode_add : decodeTableWord 32 0b0000000000_001_001_0000000000000010 = some (.add 1 1 2) := by decide
/-- T87. -/
theorem test_decode_nand : decodeTableWord 32 0b0000000001_010_010_0000000000000011 = some (.nand 2 2 3) := by decide
/-- T88b: offset -1. -/
theorem test_decode_lw : decodeTableWord 32 0b0000000010_001_010_1111111111111111 = some (.lw 1 2 0xFFFF) := by decide
/-- T89. -/
theorem test_decode_sw : decodeTableWord 32 0b0000000011_010_000_0000000000000111 = some (.sw 2 0 7) := by decide
/-- T89c. -/
theorem test_decode_beq : decodeTableWord 32 0b0000000100_001_000_0000000000000010 = some (.beq 1 0 2) := by decide
/-- T89f. -/
theorem test_decode_jalr : decodeTableWord 32 0b0000000101_011_100_0000000000000000 = some (.jalr 3 4 0) := by decide
/-- T90. -/
theorem test_decode_halt : decodeTableWord 32 0b0000000110_000_000_0000000000000000 = some (.halt 0 0 0) := by decide
/-- T91. -/
theorem test_decode_noop : decodeTableWord 32 0b0000000111_000_000_0000000000000000 = some (.noop 0 0 0) := by decide
/-- T92: opcode fields 8 and 1023. -/
theorem test_decode_other : decodeTableWord 32 0x02000000 = some (.otherOpcode 8 0 0 0) ∧
    decodeTableWord 32 0xFFFFFFFF = some (.otherOpcode 1023 7 7 0xFFFF) := by decide

/-- The words of T84, T87 to T91 in the order of the opcode numbers. -/
theorem test_decode_vectors :
    [0x00090002, 0x00520003, 0x008AFFFF, 0x00D00007, 0x01080002, 0x015C0000, 0x01800000, 0x01C00000].map
      (fun w => decodeWord w) =
    [.add 1 1 2, .nand 2 2 3, .lw 1 2 0xFFFF, .sw 2 0 7, .beq 1 0 2, .jalr 3 4 0, .halt 0 0 0, .noop 0 0 0] := by decide

/-- Numbers that are no instruction are rejected by name. -/
theorem test_decode_rejects : packetOf 32 (2 ^ 32) = .error .wordTooLong ∧ packetOf 66 (2 ^ 66) = .error .requestTooLong ∧
    decodeTableWord 32 (2 ^ 32) = none ∧ decodeTableWord 66 (2 ^ 66) = none := ⟨rfl, rfl, rfl, rfl⟩

/-- The requests of section 2.5 as bits, and the encoder's words. -/
theorem test_encode : encodeRequest 1 0 99 = 0x1_00000000_00000063#66 ∧ encode (.read 4 0) = .request 0x0_00000004_00000000#66 ∧
    encode (.jalr 3 4 0) = .word 0x015C0000 ∧ encode (.otherOpcode 1023 7 7 0xFFFF) = .word 0xFFFFFFFF := by decide

/-! ### Well-formedness: an ill-formed term for each check -/

/-- A layout with a 6-bit opcode (the document's width, C5): opcode at 31:26, fields below it. -/
def layout6 : ILayout := { opcodeHi := 31, opcodeLo := 26, f0Lo := 23, f1Lo := 20, immLo := 0 }

/-- The inert row does not carry a number that names an instruction; a word for it would decode to that instruction. -/
theorem test_illformed_named : (Instr.otherOpcode 3 0 0 0).wf = false := by decide
/-- The inert row's opcode fits the opcode field. -/
theorem test_illformed_wide : (Instr.otherOpcode 100 0 0 0).wfWith { layout := layout6, opc := defaultOpcodes } = false ∧
    (Instr.otherOpcode 100 0 0 0).wf = true := by decide
/-- Overlapping fields make a layout unusable. -/
theorem test_illegal_layout : ¬ ILayout.Legal { layout6 with immLo := 8 } ∧ layout6.Legal := by decide
/-- Two instructions with one number make an encoding unusable. -/
theorem test_illegal_numbers :
    ¬ Encoding.Legal { layout := defaultLayout, opc := { defaultOpcodes with noop := 0 } } ∧
    Encoding.Legal defaultEncoding := by decide

/-! ### The Address Decoder (section 2.1) -/

/-- T7, T8, T12 and T13. -/
theorem test_decode_address :
    decodeAddress (geo 4 1 4 128) 77 = (4, 3, 1) ∧ blockBase (geo 4 1 4 128) 4 3 = 76 ∧
    decodeAddress (geo 4 1 4 128) 2147483647 = (134217727, 3, 3) ∧ blockBase (geo 4 1 4 128) 134217727 3 = 2147483644 ∧
    decodeAddress (geo 256 1 256 65536) 65535 = (0, 255, 255) ∧ decodeAddress (geo 2 1 2 32) 21 = (5, 0, 1) := by decide
/-- T10 and T11: no set bits, no offset bits. -/
theorem test_decode_address_edges : decodeAddress (geo 1 1 8 32) 29 = (3, 0, 5) ∧ blockBaseOf (geo 1 1 8 32) 29 = 24 ∧
    decodeAddress (geo 8 1 1 32) 29 = (3, 5, 0) ∧ blockBaseOf (geo 8 1 1 32) 29 = 29 := by decide
/-- T70 to T72 and T76: what is in bounds. -/
theorem test_bounds : inBounds (geo 1 1 2 8) 7 = true ∧ inBounds (geo 1 1 2 8) 8 = false ∧
    inBounds (geo 1 1 2 8) 0x80000000 = false ∧ inBounds (geo 1 1 2 8) 0xFFFFFFFF = false := by decide

/-! ### The Cache Store and the Replacement Engine (sections 2.2, 2.3) -/

/-- T20, T21 and T22. -/
theorem test_lookup :
    State.reset.lookup 0 0 = none ∧
    (small (geo 1 2 1 16) [[line true false 8 1 [108], line true false 4 0 [104]]] []).lookup 0 4 = some 1 ∧
    (small (geo 1 2 1 16) [[line true false 8 1 [108], line true false 4 0 [104]]] []).lookup 0 0 = none ∧
    (small (geo 2 1 1 16) [[line true false 5 0 [0]], [line false false 0 1 [0]]] []).lookup 1 5 = none := by decide
/-- T23 and T24. -/
theorem test_lookup_ties :
    (small (geo 1 2 1 16) [[line true true 3 7 [0], line false false 3 9 [0]]] []).lookup 0 3 = some 0 ∧
    (small (geo 1 2 1 16) [[line true false 3 7 [0], line true false 3 9 [0]]] []).lookup 0 3 = some 0 := by decide
/-- T25, T26 and T27. -/
theorem test_line_words :
    (oneLine (line true false 3 2 [5, 6])).readWord 0 0 1 = 6 ∧
    ((oneLine (line true false 3 2 [5, 6])).writeWord 0 0 1 9).lines = [[line true true 3 2 [5, 9]]] ∧
    ((oneLine (line true false 3 2 [5, 6])).writeWord 0 0 1 6).lines = [[line true true 3 2 [5, 6]]] := by decide

/-- A set of lines with the given valid bits and counters. -/
def counters (l : List (Bool × Nat)) : List Line := l.map fun p => line p.1 false 0 p.2 [0]

/-- T30 and T31. -/
theorem test_age_touch :
    ((small (geo 2 2 1 8) [counters [(true, 0), (false, 1)], counters [(false, 1), (false, 1)]] []).ageAll).lines =
      [counters [(true, 1), (false, 2)], counters [(false, 2), (false, 2)]] ∧
    ((small (geo 2 2 1 8) [counters [(true, 1), (true, 2)], counters [(true, 2), (true, 2)]] []).touch 0 1).lines =
      [counters [(true, 1), (true, 0)], counters [(true, 2), (true, 2)]] := by decide
/-- T32 to T39. -/
theorem test_victim :
    [counters [(false, 0), (false, 0)], counters [(true, 5), (false, 9)], counters [(true, 1), (false, 1), (false, 1)],
      counters [(true, 2), (true, 5), (true, 3)], counters [(true, 2), (true, 1)], counters [(true, 7)],
      counters [(true, 4), (true, 4), (true, 1)], counters [(true, 1), (true, 4), (true, 4)],
      counters [(false, 0), (true, 3)]].map victimOf = [0, 1, 1, 1, 0, 0, 0, 1, 0] := by decide

/-! ### The write-back controller (section 2.4) -/

/-- T41 and T42. -/
theorem test_evict_clean :
    (oneLine (line false false 0 4 [0, 0])).evict 0 0 = oneLine (line false false 0 4 [0, 0]) ∧
    ((oneLine (line true false 1 3 [12, 13])).evict 0 0).trace = [ev .c2n 2 2] ∧
    words 8 ((oneLine (line true false 1 3 [12, 13])).evict 0 0) = image8 := by decide
/-- T43: the dirty flag stays until the fill. -/
theorem test_evict_dirty :
    words 8 ((oneLine (line true true 0 3 [99, 11])).evict 0 0) = [99, 11, 12, 13, 14, 15, 16, 17] ∧
    ((oneLine (line true true 0 3 [99, 11])).evict 0 0).trace = [ev .c2m 0 2] ∧
    ((oneLine (line true true 0 3 [99, 11])).evict 0 0).lines = [[line true true 0 3 [99, 11]]] := by decide
/-- T43b: the block base comes from the tag and the set. -/
theorem test_evict_base :
    let s := small (geo 4 1 4 128) [[noLine], [noLine], [noLine], [line true true 4 0 [1, 2, 3, 4]]] []
    (s.evict 3 0).trace = [ev .c2m 76 4] ∧ (s.evict 3 0).mem.readBlock 75 6 = [0, 1, 2, 3, 4, 0] := by decide
/-- T43c and T43d. -/
theorem test_fill :
    ((oneLine (line true true 0 3 [99, 11])).fill 0 0 1).lines = [[line true false 1 0 [12, 13]]] ∧
    ((oneLine (line true true 0 3 [99, 11])).fill 0 0 1).trace = [ev .m2c 2 2] ∧
    ((small (geo 1 1 1 4) [[noLine]] [5, 6, 7, 8]).fill 0 0 3).lines = [[line true false 3 0 [8]]] := by decide

/-! ### READ and WRITE (section 2.5) -/

/-- T44, T49 (hits) and T50 (last address). -/
theorem test_read_hit :
    look seen (exec (.read 1 0) (oneLine (line true false 0 3 [10, 11]))) =
      some (some (.readOk true 11), [ev .c2p 1 1], [[line true false 0 0 [10, 11]]]) ∧
    look seen (exec (.read 0 0) (oneLine (line true true 0 3 [99, 11]))) =
      some (some (.readOk true 99), [ev .c2p 0 1], [[line true true 0 0 [99, 11]]]) ∧
    look (·.resp) (exec (.read 7 0) (oneLine noLine)) = some (some (.readOk false 17)) := by decide
/-- T44d (clean victim) and T45 (dirty victim). -/
theorem test_read_miss :
    look seen (exec (.read 3 0) (oneLine (line true false 0 3 [10, 11]))) =
      some (some (.readOk false 13), [ev .c2n 0 2, ev .m2c 2 2, ev .c2p 3 1], [[line true false 1 0 [12, 13]]]) ∧
    look seen (exec (.read 3 0) (oneLine (line true true 0 3 [99, 11]))) =
      some (some (.readOk false 13), [ev .c2m 0 2, ev .m2c 2 2, ev .c2p 3 1], [[line true false 1 0 [12, 13]]]) ∧
    look (words 8) (exec (.read 3 0) (oneLine (line true true 0 3 [99, 11]))) =
      some [99, 11, 12, 13, 14, 15, 16, 17] := by decide
/-- T44b and T46. -/
theorem test_write_hit_and_fill :
    look seen (exec (.write 1 5) (oneLine (line true false 0 3 [10, 11]))) =
      some (some (.writeOk true), [ev .p2c 1 1], [[line true true 0 0 [10, 5]]]) ∧
    look (words 8) (exec (.write 1 5) (oneLine (line true false 0 3 [10, 11]))) = some image8 ∧
    look seen (exec (.write 0 99) (oneLine (line false false 0 0 [0, 0]))) =
      some (some (.writeOk false), [ev .m2c 0 2, ev .p2c 0 1], [[line true true 0 0 [99, 11]]]) := by decide
/-- T47 and T48. -/
theorem test_write_miss :
    look seen (exec (.write 5 55) (oneLine (line true false 1 3 [12, 13]))) =
      some (some (.writeOk false), [ev .c2n 2 2, ev .m2c 4 2, ev .p2c 5 1], [[line true true 2 0 [14, 55]]]) ∧
    look seen (exec (.write 5 55) (oneLine (line true true 1 3 [12, 77]))) =
      some (some (.writeOk false), [ev .c2m 2 2, ev .m2c 4 2, ev .p2c 5 1], [[line true true 2 0 [14, 55]]]) ∧
    look (words 8) (exec (.write 5 55) (oneLine (line true true 1 3 [12, 77]))) =
      some [10, 11, 12, 77, 14, 15, 16, 17] := by decide

/-- P3, access 5: the set's older way is evicted, not the one filled first, and every counter of the other set ages. -/
theorem test_lru_step :
    look (fun s => (s.trace, s.lines.map (·.map (·.rc))))
      (exec (.read 16 0) (small (geo 2 2 2 32)
        [[line true true 0 0 [1000, 7], line true false 2 1 [1008, 1009]],
          [line true false 0 2 [1002, 1003], line false false 0 4 [0, 0]]] [])) =
    some ([ev .c2n 8 2, ev .m2c 16 2, ev .c2p 16 1], [[1, 0], [3, 5]]) := by decide

/-! ### Fatal conditions and the check of the configuration (section 2.7) -/

/-- T70 to T72: nothing but the status and the response changes. -/
theorem test_out_of_bounds :
    look (fun s => (s.status, seen s)) (exec (.read 8 0) (oneLine (line true false 0 3 [10, 11]))) =
      some (.faulted (.outOfBounds 8), some (.fatal (.outOfBounds 8)), [], [[line true false 0 3 [10, 11]]]) ∧
    look (·.status) (exec (.read 0x80000000 0) (oneLine noLine)) = some (.faulted (.outOfBounds 0x80000000)) ∧
    look (·.status) (exec (.write 0xFFFFFFFF 1) (oneLine noLine)) = some (.faulted (.outOfBounds 0xFFFFFFFF)) ∧
    responseStatus (.fatal (.outOfBounds 8)) = 2 := by decide
/-- T73. -/
theorem test_reserved10 :
    look (fun s => (s.status, seen s)) (exec (.reservedOp10 0 0) (oneLine (line true false 0 3 [10, 11]))) =
      some (.faulted (.invalidMode 2), some (.fatal (.invalidMode 2)), [], [[line true false 0 3 [10, 11]]]) ∧
    responseStatus (.fatal (.invalidMode 2)) = 3 := by decide
/-- T74: the operation code is checked before the address. -/
theorem test_reserved11 :
    look (·.status) (exec (.reservedOp11 8 0) (oneLine noLine)) = some (.faulted (.invalidMode 3)) := by decide
/-- T75. -/
theorem test_faulted_takes_nothing :
    (match exec (.read 0 0) { oneLine noLine with status := .faulted (.outOfBounds 8) } with
      | .fault f => some f
      | .next _ => none
      | .refused _ => none) = some .blockNotReady := by decide
/-- T77 to T82. -/
theorem test_config_errors :
    [geo 3 1 1 8, geo 0 1 1 8, geo 1 0 1 8, geo 1 1 0 8, geo 1 1 6 12, geo 1 1 4 6, geo 1 1 1 0, geo 1 1 1 2147483649,
      geo 65536 1 65536 65536].map configFault =
    [some .sets, some .sets, some .ways, some .wpb, some .wpb, some .memWords, some .memWords, some .memWords,
      some .setsAndWpb] := by decide
/-- T83. -/
theorem test_config_legal :
    [geo 1 1 1 1, geo 1 7 1 8, geo 4 3 2 64, geo 32768 1 65536 2147483648].map statusFor =
    [.ready, .ready, .ready, .ready] := by decide

/-! ### One step of the requester (section 2.9) -/

/-- T84 and T85b. -/
theorem test_add : look regs5 (step (atPc 16 1 0x00090002 21 0 0)) = some ([0, 21, 42, 0, 0], 2) ∧
    look regs5 (step (atPc 16 0 0x000A0003 0xFFFFFFFF 1 0)) = some ([0, 0xFFFFFFFF, 1, 0, 0], 1) := by decide
/-- T85, T85c and T86. -/
theorem test_add_edges : look regs5 (step (atPc 16 0 0x000A0003 0x7FFFFFFF 1 0)) =
      some ([0, 0x7FFFFFFF, 1, 0x80000000, 0], 1) ∧
    look regs5 (step (atPc 16 0 0x00090001 5 0 0)) = some ([0, 10, 0, 0, 0], 1) ∧
    (match step (atPc 16 0 0x00000008 0 0 0) with
      | .refused q => some q
      | .next _ => none
      | .fault _ => none) = some (.destinationNamesNoRegister 8) := by decide
/-- T87 and T87b. -/
theorem test_nand : look regs5 (step (atPc 16 2 0x00520003 0 42 0)) = some ([0, 0, 42, 0xFFFFFFD5, 0], 3) ∧
    look regs5 (step (atPc 16 0 0x004A0003 0 0xFFFFFFFF 0)) = some ([0, 0, 0xFFFFFFFF, 0xFFFFFFFF, 0], 1) := by decide
/-- T88b and T88c: a negative offset; the base read before the destination is written. -/
theorem test_lw :
    look regs5 (step { atPc 16 0 0x008AFFFF 0 4 0 with mem := [] |> Memory.writeWord 0 0x008AFFFF |> Memory.writeWord 3 77 }) =
      some ([0, 77, 4, 0, 0], 1) ∧
    look regs5 (step { atPc 16 0 0x00890000 6 0 0 with mem := [] |> Memory.writeWord 0 0x00890000 |> Memory.writeWord 6 21 }) =
      some ([0, 21, 0, 0, 0], 1) := by decide
/-- T88d and T88e. -/
theorem test_lw_out_of_bounds :
    look (fun s => (s.status, s.run, regs5 s, s.trace)) (step (atPc 4 0 0x008A0001 0 0x7FFFFFFF 0)) =
      some (.faulted (.outOfBounds 0x80000000), .faulted, ([0, 0, 0x7FFFFFFF, 0, 0], 1), [ev .m2c 0 1, ev .c2p 0 1]) ∧
    look (fun s => (s.status, s.run, s.pc)) (step (atPc 4 0 0x00880004 0 0 0)) =
      some (.faulted (.outOfBounds 4), .faulted, 1) := by decide
/-- T89: the store is in the cache and in `VIEW`, not in `mem`. -/
theorem test_sw :
    look (fun s => (s.view 7, s.mem.readWord 7, s.pc)) (step (atPc 16 3 0x00D00007 0 42 0)) = some (42, 0, 4) := by decide
/-- T89b and T89d. -/
theorem test_beq_always : look (·.pc) (step (atPc 16 5 0x0100FFFD 0 0 0)) = some 3 ∧
    look (·.pc) (step (atPc 16 0 0x0100FFFF 0 0 0)) = some 0 := by decide
/-- T89c. -/
theorem test_beq : look (·.pc) (step (atPc 16 3 0x01080002 2 0 0)) = some 4 ∧
    look (·.pc) (step (atPc 16 3 0x01080002 0 0 0)) = some 6 := by decide
/-- T89f and T89g. -/
theorem test_jalr : look regs5 (step (atPc 16 6 0x015C0000 0 0 8)) = some ([0, 0, 0, 7, 8], 8) ∧
    look regs5 (step (atPc 16 0 0x01520000 0 9 0)) = some ([0, 0, 9, 0, 0], 1) := by decide
/-- T90. -/
theorem test_halt : look (fun s => (s.run, s.pc, s.trace)) (step (atPc 16 4 0x01800000 0 0 0)) =
    some (.halted, 4, [ev .m2c 4 1, ev .c2p 4 1]) := by decide
/-- T91. -/
theorem test_noop : look regs5 (step (atPc 16 5 0x01C00000 1 2 4)) = some ([0, 1, 2, 0, 4], 6) := by decide
/-- T92. -/
theorem test_other : look regs5 (step (atPc 16 0 0x02000000 1 2 4)) = some ([0, 1, 2, 0, 4], 1) ∧
    look regs5 (step (atPc 16 0 0xFFFFFFFF 1 2 4)) = some ([0, 1, 2, 0, 4], 1) := by decide
/-- P4, step 1: the fetch and the data access of `lw` in two sets. -/
theorem test_p4_first_step :
    look (fun s => (s.reg 1, s.pc, s.trace)) (step (small (geo 2 1 2 8) (freshLines (geo 2 1 2 8))
      [0x00880006, 0x00090002, 0x00520003, 0x00D00007, 0x01800000, 0x01C00000, 21, 0])) =
    some (21, 1, [ev .m2c 0 2, ev .c2p 0 1, ev .m2c 6 2, ev .c2p 6 1]) := by decide

/-- A requester with a 6-bit opcode at 31:26 (the document's width, C5) and the default numbers. -/
def encoding6 : Encoding := { layout := layout6, opc := defaultOpcodes }

/-- The encoding is a parameter of the machine (R70, R71): under the layout of `encoding6` the word with opcode 6 in its top six bits
is the `halt`, and the default layout's `halt` word, whose top six bits are 0, is an `add`. -/
theorem test_other_encoding :
    look (·.run) (step { atPc 16 4 0b000110_000_000_0000_0000000000000000 0 0 0 with enc := encoding6 }) = some .halted ∧
    look (fun s => (s.run, s.pc)) (step { atPc 16 4 0x01800000 0 0 0 with enc := encoding6 }) = some (.running, 5) := by decide

/-- `withFetchWord` from reset: the very next step runs the word, and a request. -/
theorem test_withFetchWord :
    look regs5 (step (State.reset.withFetchWord 32 0x01C00000)) = some ([0, 0, 0, 0, 0], 1) ∧
    look (·.run) (step (State.reset.withFetchWord 32 0x01800000)) = some .halted ∧
    look (·.status) (step (State.reset.withFetchWord 66 0x2_00000000_00000000)) = some (.faulted (.invalidMode 2)) ∧
    look (·.resp) (step (State.reset.withFetchWord 66 0x1_00000001_00000007)) = some (some (.writeOk false)) := by decide

/-! ### Witnesses: for each statement with hypotheses, something that meets all of them

The states are those of section 2.5 and of program P1 with the trace that led to them. -/

/-- `(1, 1, 2, 8)` right after reset. -/
def fresh : State := oneLine (line false false 0 0 [0, 0])
/-- After `read(1)`. -/
def clean : State := { oneLine (line true false 0 0 [10, 11]) with trace := [ev .m2c 0 2, ev .c2p 1 1] }
/-- After `write(0, 99)`, with `x2 = 4`. -/
def dirty : State :=
  { oneLine (line true true 0 0 [99, 11]) with trace := [ev .m2c 0 2, ev .p2c 0 1], regs := State.reset.regs.set 2 4 }
/-- P1 after access 2: a full set of two ways; the requester is about to fetch from a third block. -/
def full : State :=
  { small (geo 1 2 1 16) [[line true false 0 1 [100], line true false 4 0 [104]]] [100, 0, 0, 0, 104] with
    trace := [ev .m2c 0 1, ev .c2p 0 1, ev .m2c 4 1, ev .c2p 4 1]
    pc := 8 }
/-- What `dirty` shows a program, in a machine of another geometry with nothing cached. -/
def uncached : State :=
  { small (geo 2 1 1 8) (freshLines (geo 2 1 1 8)) [99, 11, 12, 13, 14, 15, 16, 17] with regs := dirty.regs }
/-- A block that took a fatal condition. -/
def failed : State := { fresh with status := .faulted (.outOfBounds 8) }
/-- A block whose reset was held and is now released. -/
def releasing : State := { fresh with status := .inReset }

theorem legal_small : LegalGeometry (geo 1 1 2 8) := ⟨⟨0, rfl⟩, ⟨1, rfl⟩, by decide, by decide, by decide, rfl, by decide⟩
theorem legal_full : LegalGeometry (geo 1 2 1 16) := ⟨⟨0, rfl⟩, ⟨0, rfl⟩, by decide, by decide, by decide, rfl, by decide⟩
theorem legal_uncached : LegalGeometry (geo 2 1 1 8) := ⟨⟨1, rfl⟩, ⟨0, rfl⟩, by decide, by decide, by decide, rfl, by decide⟩
theorem legal_big : LegalGeometry (geo 4 1 4 (2 ^ 31)) := ⟨⟨2, rfl⟩, ⟨2, rfl⟩, by decide, by decide, by decide, rfl, by decide⟩

theorem cache_fresh : CacheInv fresh :=
  ⟨by decide, by decide, by decide, fun i (hi : i < 1) => by interval_cases i; decide, by decide, by decide, by decide,
    by decide, by decide,
    fun i (hi : i < 1) w (hw : w < 1) i' (hi' : i' < 1) => by
      interval_cases i; interval_cases w; interval_cases i'; decide, by decide⟩
theorem cache_clean : CacheInv clean :=
  ⟨by decide, by decide, by decide, fun i (hi : i < 1) => by interval_cases i; decide, by decide, by decide, by decide,
    by decide, by decide,
    fun i (hi : i < 1) w (hw : w < 1) i' (hi' : i' < 1) => by
      interval_cases i; interval_cases w; interval_cases i'; decide, by decide⟩
theorem cache_dirty : CacheInv dirty :=
  ⟨by decide, by decide, by decide, fun i (hi : i < 1) => by interval_cases i; decide, by decide, by decide, by decide,
    by decide, by decide,
    fun i (hi : i < 1) w (hw : w < 1) i' (hi' : i' < 1) => by
      interval_cases i; interval_cases w; interval_cases i'; decide, by decide⟩
theorem cache_full : CacheInv full :=
  ⟨by decide, by decide, by decide, fun i (hi : i < 1) => by interval_cases i; decide, by decide, by decide, by decide,
    by decide, by decide,
    fun i (hi : i < 1) w (hw : w < 2) i' (hi' : i' < 1) => by
      interval_cases i; interval_cases i'; interval_cases w <;> decide, by decide⟩
theorem cache_uncached : CacheInv uncached :=
  ⟨by decide, by decide, by decide, fun i (hi : i < 2) => by interval_cases i <;> decide, by decide, by decide, by decide,
    by decide, by decide,
    fun i (hi : i < 2) w (hw : w < 1) i' (hi' : i' < 2) => by
      interval_cases w; interval_cases i <;> interval_cases i' <;> decide, by decide⟩

theorem inv_fresh : Inv fresh := ⟨by decide, fun _ => legal_small, fun _ => cache_fresh, fun h => (by cases h), by decide⟩
theorem inv_clean : Inv clean := ⟨by decide, fun _ => legal_small, fun _ => cache_clean, fun h => (by cases h), by decide⟩
theorem inv_dirty : Inv dirty := ⟨by decide, fun _ => legal_small, fun _ => cache_dirty, fun h => (by cases h), by decide⟩
theorem inv_full : Inv full := ⟨by decide, fun _ => legal_full, fun _ => cache_full, fun h => (by cases h), by decide⟩
theorem inv_uncached : Inv uncached := ⟨by decide, fun _ => legal_uncached, fun _ => cache_uncached, fun h => (by cases h), by decide⟩

/-- The state answers a next state. -/
def goes (o : Host.Outcome State Fault Refusal) : Bool := (look (fun _ => ()) o).isSome

theorem next_of_goes {o : Host.Outcome State Fault Refusal} (h : goes o = true) : ∃ t, o = .next t := by
  cases o with
  | next t => exact ⟨t, rfl⟩
  | fault f => cases h
  | refused q => cases h

/-- DecodeEncodeEveryLayout: the default encoding with opcode 1023, and a layout with a 6-bit opcode and other numbers with
opcode 63. -/
theorem test_witness_decode_encode :
    (Encoding.Legal defaultEncoding ∧ (Instr.otherOpcode 1023 7 7 0xFFFF).wfWith defaultEncoding = true) ∧
    (Encoding.Legal { layout := layout6, opc := { defaultOpcodes with add := 62 } } ∧
      (Instr.otherOpcode 63 7 0 0x8000).wfWith { layout := layout6, opc := { defaultOpcodes with add := 62 } } = true) := by
  decide

/-- ReconstructionFromFields: the largest address (T8), in bounds. -/
theorem test_witness_reconstruction :
    LegalGeometry (geo 4 1 4 (2 ^ 31)) ∧ (2147483647 : Nat) < 2 ^ 31 ∧ 2147483647 < (geo 4 1 4 (2 ^ 31)).memWords :=
  ⟨legal_big, by decide, by decide⟩

/-- SameBlockSameTagAndSet: 76 and 79 share a block, 79 and 80 do not (section 2.1). -/
theorem test_witness_same_block : LegalGeometry (geo 4 1 4 (2 ^ 31)) ∧
    (tagOf (geo 4 1 4 (2 ^ 31)) 76 = tagOf (geo 4 1 4 (2 ^ 31)) 79 ∧ setIndex (geo 4 1 4 (2 ^ 31)) 76 = setIndex (geo 4 1 4 (2 ^ 31)) 79) ∧
    ¬ 79 >>> offBits (geo 4 1 4 (2 ^ 31)) = 80 >>> offBits (geo 4 1 4 (2 ^ 31)) :=
  ⟨legal_big, by decide, by decide⟩

/-- BlockBaseClearsOnlyTheOffsetBits: the largest address, and one below it in the same block. -/
theorem test_witness_block_base : LegalGeometry (geo 4 1 4 (2 ^ 31)) ∧ (2147483647 : Nat) < 2 ^ 31 ∧
    blockBaseOf (geo 4 1 4 (2 ^ 31)) 2147483647 = 2147483644 ∧ blockBaseOf (geo 4 1 4 (2 ^ 31)) 77 = 76 :=
  ⟨legal_big, by decide, by decide, by decide⟩

/-- WriteWordWritesOneWordAndMarksDirty: the last word of a clean line gets the value it has (R89), with a word beside it; a store
with another line beside the one written. -/
theorem test_witness_write_word :
    (0 < clean.lines.length ∧ 0 < (clean.ways 0).length ∧ 1 < (clean.line 0 0).data.length ∧
      ((clean.writeWord 0 0 1 11).line 0 0).dirty = true) ∧
    (0 < full.lines.length ∧ 1 < (full.ways 0).length ∧ 0 < (full.line 0 1).data.length) := by decide

/-- CanonicalMemoriesReadingAlikeAreEqual: a byte written and the list that holds it. -/
theorem test_witness_canonical : Memory.wf [(1, 5)] = true ∧ Memory.wf (Memory.writeByte 1 5 (Memory.writeByte 2 0 [])) = true ∧
    ∀ k, Memory.readByte k [(1, 5)] = Memory.readByte k (Memory.writeByte 1 5 (Memory.writeByte 2 0 [])) :=
  ⟨by decide, by decide, fun _ => rfl⟩

/-- LoadedImageIsWhatIsSeen: after release, an image that fills the memory and one word too many, every line invalid; before
release, the bound of the inputs; after the first access; a block that failed. -/
theorem test_witness_load : (fresh.resetIn = false ∧ fresh.status = .ready ∧ fresh.trace = []) ∧
    image8.length ≤ fresh.cfg.memWords ∧ fresh.cfg.memWords < (image8 ++ [0]).length ∧
    (∀ ls ∈ fresh.lines, ∀ l ∈ ls, l.valid = false) ∧
    (releasing.status = .inReset ∧ releasing.trace = [] ∧ image8.length ≤ releasing.cfgIn.cfgMemWords.toNat ∧
      releasing.cfgIn.cfgMemWords.toNat ≠ releasing.cfg.memWords) ∧
    { fresh with resetIn := true }.resetIn = true ∧ clean.trace ≠ [] ∧
    (failed.resetIn = false ∧ failed.status = .faulted (.outOfBounds 8)) := by decide

/-- The bound before release is the presented `MEM_WORDS`, 65536 here, and not the latched 8; after the first access nothing is
loaded (R184, R190). -/
theorem test_load_capacity : releasing.loadCapacity = some 65536 ∧ fresh.loadCapacity = some 8 ∧ clean.loadCapacity = none ∧
    failed.loadCapacity = none ∧ clean.loadImage [1] = none ∧ (fresh.loadImage [1, 2]).map (words 3) = some [1, 2, 12] := by
  decide

/-- LoadAndReleaseMayBeSwapped: the released state is `Ready`, and the load is accepted. -/
theorem test_witness_swap : releasing.status = .inReset ∧ releasing.resetIn = false ∧ releasing.trace = [] ∧
    look (·.status) (step releasing) = some .ready ∧ releasing.loadImage [1] ≠ none := by decide

/-- VictimIsInvalidOrOldest: a set with an invalid way, and a full one. -/
theorem test_witness_victim : (0 < (fresh.ways 0).length ∧ ∃ w < (fresh.ways 0).length, (fresh.line 0 w).valid = false) ∧
    (0 < (full.ways 0).length ∧ ¬ ∃ w < (full.ways 0).length, (full.line 0 w).valid = false) := by decide

/-- DirtyEvictionWritesTheBlock. -/
theorem test_witness_dirty_eviction : (dirty.line 0 0).valid = true ∧ (dirty.line 0 0).dirty = true ∧
    (dirty.line 0 0).data.length = dirty.cfg.wpb := by decide

/-- CleanAndInvalidVictimsWriteNothing: both clauses. -/
theorem test_witness_clean_eviction : ((clean.line 0 0).valid = true ∧ (clean.line 0 0).dirty = false) ∧
    (fresh.line 0 0).valid = false := by decide

/-- ReadHitReturnsTheCachedWord and WriteHitUpdatesTheLine: the last word of the cached block. -/
theorem test_witness_hit : clean.status = .ready ∧ inBounds clean.cfg 1 = true ∧
    clean.lookup (setIndex clean.cfg (1 : Word).toNat) (tagOf clean.cfg (1 : Word).toNat) = some 0 := by decide

/-- ReadMissFillsAndReturnsTheWord and WriteMissFetchesThenWrites: the last address, with a dirty and with an invalid victim. -/
theorem test_witness_miss :
    (dirty.status = .ready ∧ LegalGeometry dirty.cfg ∧ CacheInv dirty ∧ inBounds dirty.cfg 7 = true ∧
      dirty.lookup (setIndex dirty.cfg (7 : Word).toNat) (tagOf dirty.cfg (7 : Word).toNat) = none) ∧
    (fresh.status = .ready ∧ LegalGeometry fresh.cfg ∧ CacheInv fresh ∧ inBounds fresh.cfg 7 = true ∧
      fresh.lookup (setIndex fresh.cfg (7 : Word).toNat) (tagOf fresh.cfg (7 : Word).toNat) = none) :=
  ⟨⟨by decide, legal_small, cache_dirty, by decide, by decide⟩, by decide, legal_small, cache_fresh, by decide, by decide⟩

/-- OutOfBoundsRequestTakesTheFault: -1 and the first address past the end. -/
theorem test_witness_out_of_bounds :
    (clean.status = .ready ∧ (0xFFFFFFFF : Word).toInt < 0) ∧
    (clean.status = .ready ∧ (clean.cfg.memWords : Int) ≤ (8 : Word).toInt) := by decide

/-- ReservedOpTakesTheFault; NotReadyTakesNoRequest, both other values of the status. -/
theorem test_witness_status : clean.status = .ready ∧ failed.status ≠ .ready ∧ releasing.status ≠ .ready := by decide

/-- FaultedIsAbsorbing: a faulted block, and an instruction that goes on in it. -/
theorem test_witness_faulted : failed.status = .faulted (.outOfBounds 8) ∧ failed.resetIn = false ∧
    ∃ t, exec (.noop 0 0 0) failed = .next t := ⟨by decide, by decide, next_of_goes (by decide)⟩

/-- A block and a requester that are `Faulted`, as a fatal fetch leaves them. -/
def ended : State := { failed with run := .faulted }

theorem cache_ended : CacheInv ended :=
  ⟨cache_fresh.rows, cache_fresh.ways, cache_fresh.words, cache_fresh.unique, cache_fresh.invalidClean,
    cache_fresh.validPrefix, cache_fresh.inside, cache_fresh.invalidCounter, cache_fresh.validCounter,
    cache_fresh.countersApart, cache_fresh.cleanMatches⟩

theorem inv_ended : Inv ended := ⟨by decide, fun _ => legal_small, fun _ => cache_ended, fun _ => ⟨_, rfl⟩, by decide⟩

/-- StoppedRequesterHasNoStep: the three clauses. -/
theorem test_witness_stopped : fresh.resetIn = false ∧ fresh.status = .ready ∧ fresh.requests = [] ∧
    { fresh with run := .halted }.run = .halted ∧ { fresh with run := .faulted }.run = .faulted ∧
    (Inv ended ∧ ended.resetIn = false ∧ ended.status ≠ .inReset ∧ ended.run = .faulted) :=
  ⟨by decide, by decide, by decide, by decide, by decide, inv_ended, by decide, by decide, by decide⟩

/-- ResetHeldGivesResetValues. -/
theorem test_witness_reset_held : { dirty with resetIn := true }.resetIn = true := by decide

/-- ResetReleaseChecksTheConfiguration: a legal configuration and an illegal one (T77). -/
theorem test_witness_release : releasing.resetIn = false ∧ releasing.status = .inReset ∧
    statusFor (sampleConfig { cfgSets := 1, cfgWays := 1, cfgWpb := 2, cfgMemWords := 8 }) = .ready ∧
    statusFor (sampleConfig { cfgSets := 3, cfgWays := 1, cfgWpb := 1, cfgMemWords := 8 }) = .faulted (.configError .sets) := by
  decide

/-- ResetStateIsAReleasedReset. -/
theorem test_witness_reset_state : { releasing with mem := [] }.enc = defaultEncoding ∧ { releasing with mem := [] }.cfgIn = Config.inputs ∧ { releasing with mem := [] }.resetIn = false ∧
    { releasing with mem := [] }.status = .inReset ∧ { releasing with mem := [] }.mem = [] ∧
    { releasing with mem := [] }.requests = [] := by decide

theorem meaning_full : CounterMeaning full := by
  unfold CounterMeaning
  decide

/-- StepKeepsTheInvariant and StepKeepsTheCounterMeaning: a state with a full set whose next step fetches and evicts. -/
theorem test_witness_step_invariant : Inv full ∧ (LegalGeometry full.cfg → CounterMeaning full) ∧ LegalGeometry full.cfg ∧
    ∃ t, step full = .next t :=
  ⟨inv_full, fun _ => meaning_full, legal_full, next_of_goes (by decide)⟩

/-- VictimIsLeastRecentlyUsed. -/
theorem test_witness_lru : LegalGeometry full.cfg ∧ CacheInv full ∧ CounterMeaning full ∧ 0 < full.cfg.sets ∧ 1 < full.cfg.ways ∧
    (∀ w' < full.cfg.ways, (full.line 0 w').valid = true) ∧ 1 ≠ full.selectVictim 0 :=
  ⟨legal_full, cache_full, meaning_full, by decide, by decide, by decide, by decide⟩

/-- ConfigurationFixedAndTraceGrows; the premises of the frames of register, load and store instructions and of requests. -/
theorem test_witness_next : LegalGeometry dirty.cfg ∧ CacheInv dirty ∧ (∃ t, exec (.add 1 2 7) dirty = .next t) ∧
    (∃ t, exec (.nand 1 2 7) dirty = .next t) ∧ (∃ t, exec (.beq 0 0 0xFFFF) dirty = .next t) ∧
    (∃ t, exec (.jalr 3 4 0) dirty = .next t) ∧ (∃ t, exec (.halt 0 0 0) dirty = .next t) ∧
    (∃ t, exec (.noop 0 0 0) dirty = .next t) ∧ (∃ t, exec (.otherOpcode 8 0 0 0) dirty = .next t) ∧
    (∃ t, exec (.lw 1 0 7) dirty = .next t) ∧ (∃ t, exec (.sw 1 0 7) dirty = .next t) ∧
    (∃ t, exec (.read 7 0) dirty = .next t) ∧ (∃ t, exec (.write 7 1) dirty = .next t) ∧
    (∃ t, exec (.reservedOp10 0 0) dirty = .next t) ∧ (∃ t, exec (.reservedOp11 0 0) dirty = .next t) := by
  refine ⟨legal_small, cache_dirty, ?_, ?_, ?_, ?_, ?_, ?_, ?_, ?_, ?_, ?_, ?_, ?_, ?_⟩ <;> exact next_of_goes (by decide)

/-- LoadStoreFrame and DataAccessOutOfBoundsFaults: `lw` and `sw` one word past the end, and at -1. -/
theorem test_witness_data_out_of_bounds : dirty.status = .ready ∧ inBounds dirty.cfg (dataAddress dirty 0 8) = false ∧
    inBounds dirty.cfg (dataAddress dirty 0 0xFFFF) = false ∧ inBounds dirty.cfg (dataAddress dirty 0 7) = true := by decide

/-- MemChangesOnlyByWriteback: a read that evicts the dirty line changes `mem`. -/
theorem test_witness_mem_changes : LegalGeometry dirty.cfg ∧ CacheInv dirty ∧
    ∃ t, exec (.read 7 0) dirty = .next t ∧ t.mem ≠ dirty.mem := by
  refine ⟨legal_small, cache_dirty, ?_⟩
  obtain ⟨t, h⟩ := next_of_goes (o := exec (.read 7 0) dirty) (by decide)
  refine ⟨t, h, ?_⟩
  have : look (fun s => decide (s.mem = dirty.mem)) (exec (.read 7 0) dirty) = some false := by decide
  rw [h] at this
  simpa [look] using this

/-- ReadReturnsViewAndKeepsIt, WriteSetsViewAtItsAddressOnly, SecondReadHitsWithTheSameValue: first and last address, cached and
not. -/
theorem test_witness_view : dirty.status = .ready ∧ LegalGeometry dirty.cfg ∧ CacheInv dirty ∧ inBounds dirty.cfg 0 = true ∧
    inBounds dirty.cfg 7 = true := ⟨by decide, legal_small, cache_dirty, by decide, by decide⟩

/-- WrittenWordIsReadBack: reads and a write of other blocks come between, the line is evicted. -/
theorem test_witness_read_back : fresh.status = .ready ∧ LegalGeometry fresh.cfg ∧ CacheInv fresh ∧
    inBounds fresh.cfg 0 = true ∧ ∀ i ∈ [Instr.read 2 0, Instr.write 7 5], ∃ b x, inBounds fresh.cfg b = true ∧
      (i = .read b x ∨ (i = .write b x ∧ b ≠ 0)) := by
  refine ⟨by decide, legal_small, cache_fresh, by decide, ?_⟩
  simp only [List.mem_cons, List.not_mem_nil, or_false]
  rintro i (rfl | rfl)
  · exact ⟨2, 0, by decide, .inl rfl⟩
  · exact ⟨7, 5, by decide, .inr ⟨rfl, by decide⟩⟩

/-- CacheIsInvisibleToPrograms: a dirty line in one machine, its word in the memory of another of a different geometry. -/
theorem test_witness_invisible : Inv dirty ∧ Inv uncached ∧ dirty.resetIn = false ∧ uncached.resetIn = false ∧
    dirty.status ≠ .inReset ∧ SameView dirty uncached ∧ dirty.cfg ≠ uncached.cfg ∧ dirty.mem ≠ uncached.mem :=
  ⟨inv_dirty, inv_uncached, by decide, by decide, by decide,
    ⟨by decide, by decide, by decide, by decide, by decide, by decide, by decide, by decide⟩, by decide, by decide⟩

/-- A machine `(1, 1, 2, 8)` with the given words, nothing cached. -/
def program (ws : List Word) : State := small (geo 1 1 2 8) [[line false false 0 0 [0, 0]]] ws

theorem inv_program_lw : Inv (program [0x00880007]) :=
  ⟨by decide, fun _ => legal_small, fun _ => ⟨by decide, by decide, by decide,
    fun i (hi : i < 1) => by interval_cases i; decide, by decide, by decide, by decide, by decide, by decide,
    fun i (hi : i < 1) w (hw : w < 1) i' (hi' : i' < 1) => by
      interval_cases i; interval_cases w; interval_cases i'; decide, by decide⟩, fun h => (by cases h), by decide⟩

theorem inv_program_halt : Inv (program [0x01800000]) :=
  ⟨by decide, fun _ => legal_small, fun _ => ⟨by decide, by decide, by decide,
    fun i (hi : i < 1) => by interval_cases i; decide, by decide, by decide, by decide, by decide, by decide,
    fun i (hi : i < 1) w (hw : w < 1) i' (hi' : i' < 1) => by
      interval_cases i; interval_cases w; interval_cases i'; decide, by decide⟩, fun h => (by cases h), by decide⟩

/-- AccessesPerInstruction, FetchReadsTheViewAtPc, StoreIsSeenByTheNextFetch (its first clause): the requester at a `lw`, at a
`sw` and at a `noop`. -/
theorem test_witness_running : Inv (program [0x00880007]) ∧ (program [0x00880007]).resetIn = false ∧
    (program [0x00880007]).status = .ready ∧ (program [0x00880007]).requests = [] ∧ (program [0x00880007]).run = .running ∧
    inBounds (program [0x00880007]).cfg (program [0x00880007]).pc = true ∧
    look (fun t => decide (t.run = .running)) (step (program [0x00880007])) = some true ∧
    look (fun t => decide (t.run = .running)) (step (program [0x00D00007])) = some true ∧
    look (fun t => decide (t.run = .running)) (step (program [0x01C00000])) = some true :=
  ⟨inv_program_lw, by decide, by decide, by decide, by decide, by decide, by decide, by decide, by decide⟩

/-- StepRunsTheDecodedInstruction: a waiting request; a fetch that is served. -/
theorem test_witness_step_runs : clean.resetIn = false ∧ clean.status = .ready ∧
    { clean with requests := [0x1_00000001_00000007] }.requests = 0x1_00000001_00000007 :: [] ∧ clean.requests = [] ∧
    clean.run = .running ∧ (clean.access opRead clean.pc 0).map (·.2) = some (.readOk true 10) := by decide

/-- FetchOutOfBoundsFaults: the first address past the end, and a negative pc. -/
theorem test_witness_fetch_out_of_bounds : { clean with pc := 8 }.resetIn = false ∧ { clean with pc := 8 }.status = .ready ∧
    { clean with pc := 8 }.requests = [] ∧ { clean with pc := 8 }.run = .running ∧
    inBounds { clean with pc := 8 }.cfg { clean with pc := 8 }.pc = false ∧
    inBounds clean.cfg 0xFFFFFFFF = false := by decide

/-- StoreIsSeenByTheNextFetch, its second clause: `sw 1 0 1` run at address 0 stores to 1, the next pc. -/
theorem test_witness_store_seen : Inv clean ∧ clean.resetIn = false ∧ clean.status = .ready ∧ clean.requests = [] ∧
    clean.run = .running ∧ inBounds clean.cfg (dataAddress clean 0 1) = true ∧
    ∃ t, exec (.sw 1 0 1) clean = .next t ∧ t.pc = dataAddress clean 0 1 := by
  refine ⟨inv_clean, by decide, by decide, by decide, by decide, by decide, ?_⟩
  obtain ⟨t, h⟩ := next_of_goes (o := exec (.sw 1 0 1) clean) (by decide)
  refine ⟨t, h, ?_⟩
  have : look (·.pc) (exec (.sw 1 0 1) clean) = some 1 := by decide
  rw [h] at this
  rw [show dataAddress clean 0 1 = 1 by decide]
  simpa [look] using this

/-- HaltStopsWithoutFurtherMutation. -/
theorem test_witness_halt : Inv (program [0x01800000]) ∧ (program [0x01800000]).resetIn = false ∧
    (program [0x01800000]).status = .ready ∧ (program [0x01800000]).requests = [] ∧ (program [0x01800000]).run = .running ∧
    inBounds (program [0x01800000]).cfg (program [0x01800000]).pc = true ∧
    opcodeField (program [0x01800000]).enc.layout ((program [0x01800000]).view (program [0x01800000]).pc.toNat) =
      (program [0x01800000]).enc.opc.halt :=
  ⟨inv_program_halt, by decide, by decide, by decide, by decide, by decide, by decide⟩

/-- EncodedWordRunsAsItsInstruction: a `lw` under the default encoding, and a `halt` under `encoding6`. -/
theorem test_witness_encoded : (Instr.lw 1 0 7).wfWith (program [0x00880007]).enc = true ∧
    encodeWith (program [0x00880007]).enc (.lw 1 0 7) = .word 0x00880007 ∧ (program [0x00880007]).view 0 = 0x00880007 ∧
    encoding6.Legal ∧ (Instr.halt 0 0 0).wfWith encoding6 = true ∧
    encodeWith encoding6 (.halt 0 0 0) = .word 0x18000000 := by decide

/-- ValidLinesStayValid: a full set whose next step fetches and evicts. -/
theorem test_witness_valid_stays : Inv full ∧ full.resetIn = false ∧ full.status = .ready ∧
    (∃ t, step full = .next t) ∧ 0 < full.cfg.sets ∧ 1 < full.cfg.ways ∧ (full.line 0 1).valid = true :=
  ⟨inv_full, by decide, by decide, next_of_goes (by decide), by decide, by decide, by decide⟩

/-- AddWritesTheSum and NandWritesTheNegatedConjunction: destinations 0 and 7; DestinationAboveSevenIsRefused: 8. -/
theorem test_witness_destination : (0 : Imm).toNat = (0 : RegNum).toNat ∧ (7 : Imm).toNat = (7 : RegNum).toNat ∧
    7 < (8 : Imm).toNat ∧ 7 < (0xFFFF : Imm).toNat := by decide

/-- LwLoadsTheViewedWord and SwStoresIntoTheView: base 4 with offset -1 (T88b), base 0 with offset 7. -/
theorem test_witness_data_address : dirty.status = .ready ∧ LegalGeometry dirty.cfg ∧ CacheInv dirty ∧
    BitVec.ofInt 32 ((dirty.reg 2).toInt + signedOffset 0xFFFF) = (3 : Word) ∧
    BitVec.ofInt 32 ((dirty.reg 0).toInt + signedOffset 7) = (7 : Word) ∧
    inBounds dirty.cfg 3 = true ∧ inBounds dirty.cfg 7 = true :=
  ⟨by decide, legal_small, cache_dirty, by decide, by decide, by decide, by decide⟩

/-- JalrLinksAndJumpsUnlessFieldsEqual: different fields with a target out of bounds (T89h), equal fields. -/
theorem test_witness_jalr : (3 : RegNum) ≠ 4 ∧ (2 : RegNum) = 2 ∧
    inBounds (clean.setReg 4 100).cfg ((clean.setReg 4 100).reg 4) = false ∧ (clean.setReg 4 100).resetIn = false ∧
    (clean.setReg 4 100).status = .ready ∧ (clean.setReg 4 100).requests = [] ∧ (clean.setReg 4 100).run = .running := by decide

/-- NoopAndOtherOpcodesOnlyAdvance: a fetched `noop` and a fetched word of opcode 1023. -/
theorem test_witness_noop : (program [0x01C00000]).resetIn = false ∧ (program [0x01C00000]).status = .ready ∧
    (program [0x01C00000]).requests = [] ∧ (program [0x01C00000]).run = .running ∧
    ((program [0x01C00000]).access opRead 0 0).map (·.2) = some (.readOk false 0x01C00000) ∧
    (program [0x01C00000]).enc.Legal ∧
    opcodeField (program [0x01C00000]).enc.layout 0x01C00000 = (program [0x01C00000]).enc.opc.noop ∧
    opcodeField (program [0x01C00000]).enc.layout 0xFFFFFFFF ∉ (program [0x01C00000]).enc.opc.all := by decide

end Sys2Proof.Tests
end

section
/-! SUPPORT and PROOFS. Memory: a served access beyond its own word, and the statements about `VIEW` and `mem` over whole
instructions (20_memory.md R52 to R54; 43_writeback_controller.md R112; 44_access_controller.md R127). -/

namespace Sys2Proof.Machine

open Sys2Proof.Safety

/-! ### Ageing changes neither the victim nor its eviction -/

/-- Adding one to every counter keeps each comparison of the scan for the oldest way. -/
theorem oldestFrom_map_ageLine (v m w : Nat) (ls : List Line) :
    oldestFrom v (m + 1) w (ls.map ageLine) = oldestFrom v m w ls := by
  induction ls generalizing v m w with
  | nil => rfl
  | cons l ls ih => simp only [List.map_cons, oldestFrom, ageLine, Nat.add_lt_add_iff_right, ih]

theorem victimOf_map_ageLine (ls : List Line) : victimOf (ls.map ageLine) = victimOf ls := by
  have hinvalid : (ls.map ageLine).findIdx? (fun l => !l.valid) = ls.findIdx? (fun l => !l.valid) := List.findIdx?_map
  have holdest : oldestWay (ls.map ageLine) = oldestWay ls := by
    cases ls with
    | nil => rfl
    | cons l ls => exact oldestFrom_map_ageLine 0 l.rc 1 ls
  rw [victimOf, victimOf, hinvalid, holdest]

@[simp] theorem State.selectVictim_ageAll (s : State) (i : Nat) : s.ageAll.selectVictim i = s.selectVictim i := by
  rw [State.selectVictim, State.ways_ageAll, victimOf_map_ageLine, State.selectVictim]

/-- An eviction writes a line's flags, tag and data, none of which ageing changes. -/
theorem State.evict_ageAll_mem {s : State} {i v : Nat} (hv : v < (s.ways i).length) :
    (s.ageAll.evict i v).mem = (s.evict i v).mem := by
  rw [State.evict_mem, State.evict_mem, State.lineBase, State.line_ageAll s i v hv]
  rfl

section
variable {n : Nat} {s t : State}

/-! ### What an access does to `mem` -/

/-- An eviction changes bytes of the victim's block alone (R105, R106). -/
theorem State.evict_readByte_changed (h : CacheOk n s) {i v k : Nat} (hi : i < s.cfg.sets) (hv : v < s.cfg.ways)
    (hk : (s.evict i v).mem.readByte k ≠ s.mem.readByte k) :
    s.lineBase i v ≤ k / 4 ∧ k / 4 < s.lineBase i v + s.cfg.wpb := by
  rw [State.evict_mem] at hk
  split at hk
  · rw [Memory.readByte_writeBlock, h.words i hi v hv] at hk
    by_contra hout
    exact hk (if_neg hout)
  · exact absurd rfl hk

/-- An eviction of a line that needs no write-back leaves `mem` alone (R107, R108). -/
theorem State.evict_mem_of_not_needsWriteback {i v : Nat} (h : needsWriteback (s.line i v) = false) :
    (s.evict i v).mem = s.mem := by
  rw [State.evict_mem, if_neg]
  rintro ⟨hv, hd⟩
  simp [needsWriteback, hv, hd] at h

/-- `LOCATE` changes `mem` by the eviction of the victim, and only where the address is not resident (R112). -/
theorem State.locate_mem (hc : LegalGeometry s.cfg) (h : CacheOk n s) (a : Nat) :
    (s.locate a).1.mem = if s.resident a = true then s.mem
      else (s.evict (setIndex s.cfg a) (s.selectVictim (setIndex s.cfg a))).mem := by
  have hi := setIndex_lt hc a
  cases hx : s.lookup (setIndex s.cfg a) (tagOf s.cfg a) with
  | some w => rw [State.locate_hit hx, State.resident, hx]; rfl
  | none =>
    rw [State.locate_miss hx, State.resident, hx, missService_mem, State.selectVictim_ageAll]
    exact State.evict_ageAll_mem ((selectVictim_lt hc h hi).trans_eq (h.ways _ hi).symm)

/-- The way `LOCATE` answers is the one of the resident block, or the victim. -/
theorem State.locate_way (s : State) (a : Nat) : (s.locate a).2.1 = touchedWay s a := by
  cases hx : s.lookup (setIndex s.cfg a) (tagOf s.cfg a) with
  | some w => rw [State.locate_hit hx, touchedWay, hx]; rfl
  | none => rw [State.locate_miss hx, touchedWay, hx, State.selectVictim_ageAll]; rfl

/-! ### The frame of a served access -/

/-- What an access served from `s` may change of `mem` and of the lines on the way to `t`: bytes of the victim's block, none
where the address is resident or the victim needs no write-back (R112); the touched line, with counter 0 after it, and of every
other line the counter, by one (R93, R95, R127). -/
structure ServedFrame (s t : State) (a : Nat) : Prop where
  memBlock : ∀ k, t.mem.readByte k ≠ s.mem.readByte k →
    s.lineBase (setIndex s.cfg a) (s.selectVictim (setIndex s.cfg a)) ≤ k / 4 ∧
      k / 4 < s.lineBase (setIndex s.cfg a) (s.selectVictim (setIndex s.cfg a)) + s.cfg.wpb
  memKept : s.resident a = true ∨
    needsWriteback (s.line (setIndex s.cfg a) (s.selectVictim (setIndex s.cfg a))) = false → t.mem = s.mem
  touched : (t.line (setIndex s.cfg a) (touchedWay s a)).rc = 0
  others : ∀ i' < s.cfg.sets, ∀ w' < s.cfg.ways, ¬(i' = setIndex s.cfg a ∧ w' = touchedWay s a) →
    t.line i' w' = { s.line i' w' with rc := (s.line i' w').rc + 1 }

/-- The frame speaks of `mem` and the lines alone. -/
theorem ServedFrame.congr {u : State} {a : Nat} (h : ServedFrame s t a) (hm : u.mem = t.mem) (hl : u.lines = t.lines) :
    ServedFrame s u a := by
  obtain ⟨hblock, hkept, htouched, hothers⟩ := h
  exact ⟨by rwa [hm], by rwa [hm], by rwa [State.line_congr hl],
    fun i' hi' w' hw' hne => (State.line_congr hl i' w').trans (hothers i' hi' w' hw' hne)⟩

/-- Replacing the located line by one with counter 0 completes a served access. -/
theorem servedFrame_locate_setLine (hc : LegalGeometry s.cfg) (h : CacheOk n s) {a : Nat} (ha : a < s.cfg.memWords)
    {l : Line} (hl : l.rc = 0) :
    ServedFrame s ((s.locate a).1.setLine (setIndex s.cfg a) (s.locate a).2.1 l) a := by
  have hi := setIndex_lt hc a
  have hv : s.selectVictim (setIndex s.cfg a) < s.cfg.ways := selectVictim_lt hc h hi
  have hL := located hc h ha
  have hline := line_setLine_of_ok hL.ok (hi.trans_eq (by rw [hL.cfg])) (hL.way.trans_eq (by rw [hL.cfg])) l
  rw [State.locate_way] at hL hline ⊢
  refine ⟨fun k hk => ?_, fun hkept => ?_, ?_, fun i' hi' w' hw' hne => ?_⟩
  · rw [State.setLine_mem, State.locate_mem hc h] at hk
    split at hk
    · exact absurd rfl hk
    · exact State.evict_readByte_changed h hi hv hk
  · rw [State.setLine_mem, State.locate_mem hc h]
    split
    · rfl
    · next hres => exact State.evict_mem_of_not_needsWriteback (hkept.resolve_left hres)
  · rw [hline, if_pos ⟨rfl, rfl⟩, hl]
  · rw [hline, if_neg hne, hL.others i' hi' w' hw' hne]
    rfl

/-- The frame of a served read (R118). -/
theorem serveRead_frame (hc : LegalGeometry s.cfg) (h : CacheOk n s) {a : Nat} (ha : a < s.cfg.memWords) :
    ServedFrame s (s.serveRead a).1 a := by
  refine (servedFrame_locate_setLine hc h ha
    (l := { (s.locate a).1.line (setIndex s.cfg a) (s.locate a).2.1 with rc := 0 }) rfl).congr rfl ?_
  simp only [State.serveRead, State.finishRead, State.locate_cfg]
  rfl

/-- The frame of a served write (R120). -/
theorem serveWrite_frame (hc : LegalGeometry s.cfg) (h : CacheOk n s) {a : Nat} (ha : a < s.cfg.memWords) (v : Word) :
    ServedFrame s (s.serveWrite a v).1 a := by
  refine (servedFrame_locate_setLine hc h ha (l := { ((s.locate a).1.writeWord (setIndex s.cfg a) (s.locate a).2.1
    (blockOffset s.cfg a) v).line (setIndex s.cfg a) (s.locate a).2.1 with rc := 0 }) rfl).congr rfl ?_
  rw [← State.setLine_setLine]
  simp only [State.serveWrite, State.finishWrite, State.locate_cfg]
  rfl

end

/-! ### The answers of requests, `lw`, `sw` and the fetch -/

theorem State.reg_congr {s t : State} (h : t.regs = s.regs) (r : RegNum) : t.reg r = s.reg r := by
  simp only [State.reg, h]

section
variable {s t : State} {i : Instr} {a v : Word} {f0 f1 : RegNum} {imm : Imm}

/-- A request is `ACCESS` with the operation code of its kind (R59, R66). -/
theorem exec_request_eq_runRequest (hi : i = .read a v ∨ i = .write a v ∨ i = .reservedOp10 a v ∨ i = .reservedOp11 a v)
    (s : State) : ∃ op, exec i s = runRequest op a v s ∧ (op = opRead → i = .read a v) ∧ (op = opWrite → i = .write a v) := by
  rcases hi with rfl | rfl | rfl | rfl
  · exact ⟨0b00, rfl, fun _ => rfl, fun h => absurd h (by decide)⟩
  · exact ⟨0b01, rfl, fun h => absurd h (by decide), fun _ => rfl⟩
  · exact ⟨0b10, rfl, fun h => absurd h (by decide), fun h => absurd h (by decide)⟩
  · exact ⟨0b11, rfl, fun h => absurd h (by decide), fun h => absurd h (by decide)⟩

/-- A request that answers a next state is a served read, a served write, or takes a fatal condition (R115). -/
theorem exec_request_next (hi : i = .read a v ∨ i = .write a v ∨ i = .reservedOp10 a v ∨ i = .reservedOp11 a v)
    (h : exec i s = .next t) :
    (i = .read a v ∧ inBounds s.cfg a = true ∧ t = (s.serveRead a.toNat).1) ∨
    (i = .write a v ∧ inBounds s.cfg a = true ∧ t = (s.serveWrite a.toNat v).1) ∨
    (¬(inBounds s.cfg a = true ∧ (i = .read a v ∨ i = .write a v)) ∧ ∃ f, t = s.raiseFatal f) := by
  obtain ⟨op, hop, hread, hwrite⟩ := exec_request_eq_runRequest hi s
  rcases runRequest_cases op a v s with ⟨-, e⟩ | ⟨hr, f, e⟩ | ⟨-, ho, hb, e⟩ | ⟨-, ho, hb, e⟩ <;> rw [hop, e] at h <;> cases h
  · refine .inr (.inr ⟨?_, f, rfl⟩)
    rintro ⟨hb, hi⟩
    have hserved : (s.raiseFatal f).status = s.status := by
      have hf := hop.trans e
      rcases hi with rfl | rfl
      · rw [exec_read_served hr hb, Host.Outcome.next.injEq] at hf
        rw [← hf, State.serveRead_status]
      · rw [exec_write_served hr hb, Host.Outcome.next.injEq] at hf
        rw [← hf, State.serveWrite_status]
    cases hserved.trans hr
  · exact .inl ⟨hread ho, hb, rfl⟩
  · exact .inr (.inl ⟨hwrite ho, hb, rfl⟩)

/-- `lw` or `sw` that answers a next state is served or takes the fatal condition `OutOfBounds`; the pc is advanced either way
(R143, R144, R153). -/
theorem exec_loadStore_next (hi : i = .lw f0 f1 imm ∨ i = .sw f0 f1 imm) (h : exec i s = .next t) :
    (i = .lw f0 f1 imm ∧ inBounds s.cfg (dataAddress s f1 imm) = true ∧
      ∃ w, t = ((s.serveRead (dataAddress s f1 imm).toNat).1.setPc (s.pc + 1)).setReg f0 w) ∨
    (i = .sw f0 f1 imm ∧ inBounds s.cfg (dataAddress s f1 imm) = true ∧
      t = (s.serveWrite (dataAddress s f1 imm).toNat (s.reg f0)).1.setPc (s.pc + 1)) ∨
    (inBounds s.cfg (dataAddress s f1 imm) = false ∧
      t = (s.advancePc.raiseFatal (.outOfBounds (dataAddress s f1 imm))).setRun .faulted) := by
  rcases hi with rfl | rfl
  · rcases execLw_cases f0 f1 imm s with ⟨-, e⟩ | ⟨-, hb, e⟩ | ⟨-, hb, w, e⟩ <;> cases h.symm.trans e
    · exact .inr (.inr ⟨hb, rfl⟩)
    · exact .inl ⟨rfl, hb, w, by rw [State.advancePc, State.serveRead_setPc]⟩
  · rcases execSw_cases f0 f1 imm s with ⟨-, e⟩ | ⟨-, hb, e⟩ | ⟨-, hb, e⟩ <;> cases h.symm.trans e
    · exact .inr (.inr ⟨hb, rfl⟩)
    · exact .inr (.inl ⟨rfl, hb, by rw [State.advancePc, State.serveWrite_setPc]⟩)

/-- A fetch in bounds is a READ that answers `VIEW(pc)`, and the step goes on from the state it leaves (R54, R136). -/
theorem access_fetch (hi : s.resetIn = false) (hr : s.status = .ready) (hq : s.requests = []) (hn : s.run = .running)
    (hc : LegalGeometry s.cfg) (h : CacheInv s) (hb : inBounds s.cfg s.pc = true) :
    ∃ u x, s.access opRead s.pc 0 = some (u, .readOk x (s.view s.pc.toNat)) ∧
      step s = exec (decodeWordWith s.enc (s.view s.pc.toNat)) u := by
  obtain ⟨-, -, hresp, -⟩ := serveRead_spec hc h ((inBounds_iff hc _).1 hb)
  exact ⟨_, _, by rw [State.access_read hr hb, ← hresp], step_fetch hi hr hq hn hc h hb⟩

end

/-! ### The statements -/

/-- Settles O41: the state after `sw` is again one whose fetch returns `VIEW(pc)`, and `VIEW` there is the stored word. -/
theorem storeIsSeenByTheNextFetch : Obligations.StoreIsSeenByTheNextFetch := by
  intro s hinv hi hr hq hn
  have hc := hinv.legal hr
  have hcache := hinv.cache hc
  refine ⟨access_fetch hi hr hq hn hc hcache, fun f0 f1 imm t hb he hpc => ?_⟩
  rw [exec_sw_served hr hb, State.advancePc, State.serveWrite_setPc, Host.Outcome.next.injEq] at he
  obtain ⟨hcache', hview, -, -⟩ := serveWrite_spec hc hcache ((inBounds_iff hc _).1 hb) (s.reg f0)
  have hcfg : t.cfg = s.cfg := by simp [← he]
  have hstored : t.view t.pc.toNat = s.reg f0 := by rw [hpc, ← he, view_setPc, hview, if_pos rfl]
  have hcacheT : CacheInv t := by rw [← he]; exact cacheOk_congr hcache' rfl rfl rfl
  have hfetch := access_fetch (s := t) (by simp [← he, hi]) (by simp [← he, hr]) (by simp [← he, hq]) (by simp [← he, hn])
    (by rwa [hcfg]) hcacheT (by rwa [hcfg, hpc])
  rwa [hstored, show t.enc = s.enc by simp [← he]] at hfetch

/-- Settles O54, by the three answers of `lw` and `sw`: a served read, a served write, a fatal condition. -/
theorem loadStoreFrame : Obligations.LoadStoreFrame := by
  intro s t i f0 f1 imm hc h hi he
  rcases exec_loadStore_next hi he with ⟨rfl, hb, w, rfl⟩ | ⟨rfl, hb, rfl⟩ | ⟨hb, rfl⟩
  · have ha := (inBounds_iff hc _).1 hb
    obtain ⟨hblock, hkept, htouched, hothers⟩ := serveRead_frame hc h ha
    obtain ⟨-, hview, -, -⟩ := serveRead_spec hc h ha
    refine ⟨fun r hr => ?_, by simp, by simp, by simp, by simp, by simp, fun _ => by simp, fun b _ _ => hview b,
      hblock, hkept, fun ho => absurd (hb.symm.trans ho) (by decide), fun _ => ⟨htouched, hothers⟩⟩
    rw [State.reg_setReg, if_neg fun hd => hr ⟨rfl, hd⟩]
    exact State.reg_congr (State.serveRead_regs _ _) r
  · have ha := (inBounds_iff hc _).1 hb
    obtain ⟨hblock, hkept, htouched, hothers⟩ := serveWrite_frame hc h ha (s.reg f0)
    obtain ⟨-, hview, -, -⟩ := serveWrite_spec hc h ha (s.reg f0)
    exact ⟨fun r _ => State.reg_congr (by simp) r, by simp, by simp, by simp, by simp, by simp, fun _ => by simp,
      fun b _ hne => (hview b).trans (if_neg fun hx => hne ⟨rfl, hx⟩),
      hblock, hkept, fun ho => absurd (hb.symm.trans ho) (by decide), fun _ => ⟨htouched, hothers⟩⟩
  · exact ⟨fun r _ => rfl, rfl, rfl, rfl, rfl, rfl, fun ho => absurd (hb.symm.trans ho) (by decide), fun b _ _ => rfl,
      fun k hk => absurd rfl hk, fun _ => rfl, fun _ => ⟨rfl, rfl, rfl⟩,
      fun ho => absurd (hb.symm.trans ho) (by decide)⟩

/-- Settles O55, by the three answers of a request: a served read, a served write, a fatal condition. -/
theorem requestsFrame : Obligations.RequestsFrame := by
  intro s t i a v hc h hi he
  rcases exec_request_next hi he with ⟨rfl, hb, rfl⟩ | ⟨rfl, hb, rfl⟩ | ⟨hno, f, rfl⟩
  · have ha := (inBounds_iff hc _).1 hb
    obtain ⟨hblock, hkept, htouched, hothers⟩ := serveRead_frame hc h ha
    obtain ⟨-, hview, -, -⟩ := serveRead_spec hc h ha
    exact ⟨by simp, by simp, by simp, by simp, by simp, by simp, by simp, by simp, fun _ _ => by simp,
      fun b _ _ => hview b, fun k hk => ⟨hb, .inl rfl, hblock k hk⟩, hkept, fun ho => absurd ⟨hb, .inl rfl⟩ ho,
      fun _ => ⟨htouched, hothers⟩⟩
  · have ha := (inBounds_iff hc _).1 hb
    obtain ⟨hblock, hkept, htouched, hothers⟩ := serveWrite_frame hc h ha v
    obtain ⟨-, hview, -, -⟩ := serveWrite_spec hc h ha v
    exact ⟨by simp, by simp, by simp, by simp, by simp, by simp, by simp, by simp, fun _ _ => by simp,
      fun b _ hne => (hview b).trans (if_neg fun hx => hne ⟨rfl, hx⟩),
      fun k hk => ⟨hb, .inr rfl, hblock k hk⟩, hkept, fun ho => absurd ⟨hb, .inr rfl⟩ ho,
      fun _ => ⟨htouched, hothers⟩⟩
  · exact ⟨rfl, rfl, rfl, rfl, rfl, rfl, rfl, rfl, fun hb ho => absurd ⟨hb, ho⟩ hno, fun b _ _ => rfl,
      fun k hk => absurd rfl hk, fun _ => rfl, fun _ => ⟨rfl, rfl, rfl⟩, fun ho => absurd ho hno⟩

end Sys2Proof.Machine
end

section
/-! SUPPORT and PROOFS. The instruction words under any usable encoding, and the fetch of an encoded one (30_encoding.md R68 to
R72; 45_execution_engine.md R136). -/

namespace Sys2Proof

/-! ### The instruction an opcode names -/

section
variable {N : OpcodeNumbers} {op : Opcode} (f0 f1 : RegNum) (imm : Imm)

/-- Pairwise different opcode numbers each name their own instruction (R71): the tests before a number's own all fail. -/
theorem ofFields_number (h : N.all.Nodup) :
    ofFields N N.add f0 f1 imm = .add f0 f1 imm ∧ ofFields N N.nand f0 f1 imm = .nand f0 f1 imm ∧
    ofFields N N.lw f0 f1 imm = .lw f0 f1 imm ∧ ofFields N N.sw f0 f1 imm = .sw f0 f1 imm ∧
    ofFields N N.beq f0 f1 imm = .beq f0 f1 imm ∧ ofFields N N.jalr f0 f1 imm = .jalr f0 f1 imm ∧
    ofFields N N.halt f0 f1 imm = .halt f0 f1 imm ∧ ofFields N N.noop f0 f1 imm = .noop f0 f1 imm := by
  have later_ne : N.all.reverse.Nodup := List.nodup_reverse.2 h
  simp only [OpcodeNumbers.all, List.reverse_cons, List.reverse_nil, List.nil_append, List.cons_append, List.nodup_cons,
    List.mem_cons, List.not_mem_nil, or_false, not_or] at later_ne
  simp [ofFields, later_ne]

/-- An opcode that is none of the eight numbers names the inert row (R72, R140). -/
theorem ofFields_of_notMem (h : op ∉ N.all) : ofFields N op f0 f1 imm = .otherOpcode op f0 f1 imm := by
  simp only [OpcodeNumbers.all, List.mem_cons, List.not_mem_nil, or_false, not_or] at h
  simp [ofFields, h]

end

/-! ### Decoding an encoded word -/

section
variable {E : Encoding} {op : Opcode} {i : Instr} {w : Word}

/-- An encoded word decodes to what its opcode and fields name. -/
theorem decodeWordWith_encodeFields (hL : E.layout.Legal) (hop : op.toNat < 2 ^ E.layout.opcodeWidth) (f0 f1 : RegNum)
    (imm : Imm) : decodeWordWith E (encodeFields E.layout op f0 f1 imm) = ofFields E.opc op f0 f1 imm := by
  rw [decodeWordWith, opcodeField_encodeFields hL hop, f0Field_encodeFields hL hop, f1Field_encodeFields hL hop,
    immField_encodeFields hL hop]

/-- The word of a well-formed instruction decodes to that instruction (R68 to R72). -/
theorem decodeWordWith_of_encodeWith_eq_word (hE : E.Legal) (hwf : i.wfWith E = true) (h : encodeWith E i = .word w) :
    decodeWordWith E w = i := by
  obtain ⟨hL, hnodup, hfit⟩ := hE
  cases i with
  | read | write | reservedOp10 | reservedOp11 => cases h
  | otherOpcode op f0 f1 imm =>
    cases h
    obtain ⟨hop, hnot⟩ : op.toNat < 2 ^ E.layout.opcodeWidth ∧ op ∉ E.opc.all := by simpa [Instr.wfWith] using hwf
    rw [decodeWordWith_encodeFields hL hop, ofFields_of_notMem _ _ _ hnot]
  | add f0 f1 imm | nand f0 f1 imm | lw f0 f1 imm | sw f0 f1 imm | beq f0 f1 imm | jalr f0 f1 imm | halt f0 f1 imm
  | noop f0 f1 imm =>
    cases h
    rw [decodeWordWith_encodeFields hL (hfit _ (by simp [OpcodeNumbers.all]))]
    simp [ofFields_number f0 f1 imm hnodup]

end

end Sys2Proof

namespace Sys2Proof.Machine

open Sys2Proof.Safety

/-- Settles O57: the fetch answers `VIEW(pc)`, and under a legal encoding the word there decodes to its instruction. -/
theorem encodedWordRunsAsItsInstruction : Obligations.EncodedWordRunsAsItsInstruction := by
  intro s i w hinv hi hr hq hn hb hwf hword hview
  have hc := hinv.legal hr
  obtain ⟨t, x, hread, hstep⟩ := access_fetch hi hr hq hn hc (hinv.cache hc) hb
  rw [hview] at hread hstep
  rw [decodeWordWith_of_encodeWith_eq_word hinv.encoding hwf hword] at hstep
  exact ⟨t, x, hread, hstep⟩

end Sys2Proof.Machine
end

section
/-! SUPPORT and PROOFS. The Address Decoder's own statements: the forms of the block base and the reconstruction of an address
from its fields (40_address_decoder.md R77 to R79). -/

namespace Sys2Proof.Machine

open Sys2Proof.Safety

/-- Clearing the low `k` bits through a mask at the address width drops no higher bit (R77, C4). -/
theorem toNat_and_not_lowMask {a : Nat} (k : Nat) (ha : a < 2 ^ 32) :
    (BitVec.ofNat 32 a &&& ~~~(BitVec.ofNat 32 ((1 <<< k) - 1))).toNat = (a >>> k) <<< k := by
  refine Nat.eq_of_testBit_eq fun j => ?_
  simp only [BitVec.testBit_toNat, BitVec.getLsbD_and, BitVec.getLsbD_not, BitVec.getLsbD_ofNat, Nat.one_shiftLeft,
    Nat.testBit_two_pow_sub_one, Nat.testBit_shiftLeft, Nat.testBit_shiftRight]
  by_cases hwidth : j < 32
  · by_cases hlow : j < k
    · simp [hwidth, hlow]
    · simp [hwidth, hlow, Nat.le_of_not_lt hlow]
  · have hzero : a.testBit j = false :=
      Nat.testBit_lt_two_pow (ha.trans_le (Nat.pow_le_pow_right (by decide) (Nat.le_of_not_lt hwidth)))
    by_cases hlow : j < k
    · simp [hwidth, Nat.not_le_of_lt hlow]
    · simp [hwidth, hzero, Nat.add_sub_cancel' (Nat.le_of_not_lt hlow)]

section
variable {c : Geometry}

/-- `BLOCKBASE(A) = floor(A / WPB) * WPB` (R77). -/
theorem blockBaseOf_eq (h : LegalGeometry c) (a : Nat) : blockBaseOf c a = a / c.wpb * c.wpb := by
  rw [blockBaseOf, Nat.shiftLeft_eq, Nat.shiftRight_eq_div_pow, two_pow_offBits h]

/-- `BASE` of the tag and the set of `A` is `BLOCKBASE(A)` (R77, R78). -/
theorem blockBase_fields (h : LegalGeometry c) (a : Nat) :
    blockBase c (tagOf c a) (setIndex c a) = blockBaseOf c a := by
  rw [blockBase_eq h (setIndex_lt h a), tag_mul_add_setIndex h, blockBaseOf_eq h]

/-- Joining the three fields gives the address back: the `|` never carries into the block number (R78). -/
theorem join_fields (h : LegalGeometry c) (a : Nat) :
    ((((tagOf c a <<< setBits c) ||| setIndex c a) <<< offBits c) ||| blockOffset c a) = a := by
  have ho : blockOffset c a < 2 ^ offBits c := (blockOffset_lt h a).trans_eq (two_pow_offBits h).symm
  rw [← Nat.shiftLeft_add_eq_or_of_lt ho]
  exact (address_split h a).symm

end

/-- Settles O59: the mask, the pair of shifts and the remainder clear the same bits, and `BASE` joins the others. -/
theorem blockBaseClearsOnlyTheOffsetBits : Obligations.BlockBaseClearsOnlyTheOffsetBits := by
  intro c a h ha
  have hsub : blockBaseOf c a = a - a % c.wpb := by
    rw [blockBaseOf_eq h]
    exact Nat.eq_sub_of_add_eq (Nat.div_add_mod' a c.wpb)
  exact ⟨(toNat_and_not_lowMask _ (by omega)).symm, rfl, hsub, (blockBase_fields h a).symm⟩

/-- Settles O4: each field is a quotient or a remainder by a power of two, and the base is the multiple of `WPB` below `A`. -/
theorem reconstructionFromFields : Obligations.ReconstructionFromFields := by
  intro c a h _
  have hsplit := address_split h a
  have hoffset := blockOffset_lt h a
  refine ⟨?_, ?_, Nat.shiftRight_eq_div_pow _ _, hsplit.symm, join_fields h a, blockBase_fields h a, by omega, by omega, ?_,
    block_inside h⟩
  · rw [blockOffset_eq h, two_pow_offBits h]
  · rw [setIndex_eq h, two_pow_offBits h, two_pow_setBits h]
  · rw [blockBase_fields h, blockBaseOf_eq h, Nat.mul_mod_left]

end Sys2Proof.Machine
end

section
/-! SUPPORT and PROOFS. The Cache Store's own statements: which way `LOOKUP` answers, and what `WRITE_WORD` changes
(41_cache_store.md R85, R89). -/

namespace Sys2Proof.Machine

open Sys2Proof.Safety

section
variable (s : State) (i w : Nat)

/-! ### LOOKUP -/

theorem lineMatches_iff (t : Nat) (l : Line) : lineMatches t l = true ↔ l.valid = true ∧ l.tag = t := by
  simp [lineMatches]

/-- `LOOKUP` answers exactly the first way that matches (R85, D34). -/
theorem State.lookup_eq_some_iff (t : Nat) :
    s.lookup i t = some w ↔ w < (s.ways i).length ∧ (s.line i w).valid = true ∧ (s.line i w).tag = t ∧
      ∀ w' < w, ¬((s.line i w').valid = true ∧ (s.line i w').tag = t) := by
  rw [State.lookup, List.findIdx?_eq_some_iff_getElem]
  simp only [← State.line_eq_getElem, lineMatches_iff, exists_prop, and_assoc]

/-- `LOOKUP` answers none exactly when no way matches (R85). -/
theorem State.lookup_eq_none_iff (t : Nat) :
    s.lookup i t = none ↔ ∀ w < (s.ways i).length, ¬((s.line i w).valid = true ∧ (s.line i w).tag = t) := by
  constructor
  · rintro hnone w hw ⟨hvalid, htag⟩
    exact State.lookup_none hnone hw hvalid htag
  · intro hno
    rw [Option.eq_none_iff_forall_ne_some]
    intro w hsome
    obtain ⟨hw, hmatch⟩ := State.lookup_some hsome
    exact hno w hw hmatch

/-! ### WRITE_WORD -/

/-- `WRITE_WORD` replaces one line: by itself with the word written, dirty (R89). -/
theorem State.line_writeWord (o i' w' : Nat) (v : Word) :
    (s.writeWord i w o v).line i' w' =
      if i' = i ∧ w' = w ∧ i < s.lines.length ∧ w < (s.ways i).length then
        { s.line i w with dirty := true, data := (s.line i w).data.set o v }
      else s.line i' w' :=
  State.line_setLine s i w i' w' _

end

/-! ### The statements -/

/-- Settles O8: `LOOKUP` is a search for the first matching way. -/
theorem lookupFindsTheMatchingWay : Obligations.LookupFindsTheMatchingWay := by
  intro s i t
  exact ⟨fun w => State.lookup_eq_some_iff s i w t, State.lookup_eq_none_iff s i t⟩

/-- Settles O58: the line written is the old one with its data set at `o` and its dirty flag set; no other line is touched. -/
theorem writeWordWritesOneWordAndMarksDirty : Obligations.WriteWordWritesOneWordAndMarksDirty := by
  intro s i w o v hi hw ho
  have hline : (s.writeWord i w o v).line i w = { s.line i w with dirty := true, data := (s.line i w).data.set o v } := by
    rw [State.line_writeWord, if_pos ⟨rfl, rfl, hi, hw⟩]
  refine ⟨_, rfl, rfl, ?_, ?_, ?_, fun o' hne => ?_, fun i' w' _ _ hne => ?_⟩
  · rw [hline]
  · rw [hline, List.getElem?_set_self ho]
  · rw [hline, List.length_set]
  · rw [hline, List.getElem?_set_ne hne.symm]
  · rw [State.line_writeWord, if_neg fun ⟨hi', hw', _⟩ => hne ⟨hi', hw'⟩]

end Sys2Proof.Machine
end

section
/-! SUPPORT and PROOFS. The choice of a victim: the lowest invalid way, else the lowest way with the largest counter
(42_replacement_engine.md R96 to R98). -/

namespace Sys2Proof.Machine

/-- The oldest way of a set is the lowest of those with the largest counter (R98). -/
theorem oldestWay_spec {ls : List Line} (hne : ls ≠ []) :
    ∃ v, ∃ h : v < ls.length, oldestWay ls = v ∧ (∀ l ∈ ls, l.rc ≤ ls[v].rc) ∧
      ∀ k, (hk : k < v) → ls[k].rc < ls[v].rc := by
  cases ls with
  | nil => exact absurd rfl hne
  | cons l ls =>
    rcases oldestFrom_spec 0 l.rc 1 ls with ⟨hstay, hmax⟩ | ⟨j, hj, hmove, hfirst, hmax, hbelow⟩
    · exact ⟨0, by simp, hstay, by simpa using hmax, by simp⟩
    · refine ⟨j + 1, by simpa using hj, by rw [oldestWay, hmove, Nat.add_comm], ?_, fun k hk => ?_⟩
      · simpa using ⟨hfirst.le, hmax⟩
      · cases k with
        | zero => exact hfirst
        | succ k => exact hbelow k (by omega)

/-- A set without an invalid way gives up its oldest one (R98). -/
theorem victimOf_eq_oldestWay {ls : List Line} (hfull : ∀ l ∈ ls, l.valid = true) : victimOf ls = oldestWay ls := by
  have hnone : ls.findIdx? (fun l => !l.valid) = none := by simpa using hfull
  rw [victimOf, hnone]

section
variable {s : State} {i : Nat}

theorem State.selectVictim_lt_length (hpos : 0 < (s.ways i).length) : s.selectVictim i < (s.ways i).length :=
  victimOf_lt (List.ne_nil_of_length_pos hpos)

/-- In a set with an invalid way the victim is the lowest invalid one (R96, R97). -/
theorem State.selectVictim_of_invalid (hinv : ∃ w < (s.ways i).length, (s.line i w).valid = false) :
    (s.line i (s.selectVictim i)).valid = false ∧ ∀ w < s.selectVictim i, (s.line i w).valid = true := by
  obtain ⟨w, hw, hwinv⟩ := hinv
  have hpos : 0 < (s.ways i).length := Nat.zero_lt_of_lt hw
  have hlt := State.selectVictim_lt_length hpos
  obtain ⟨hbelow, hfull⟩ := victimOf_valid (List.ne_nil_of_length_pos hpos)
  have hvinv : (s.ways i)[s.selectVictim i].valid = false := by
    rw [State.line_eq_getElem s i w hw] at hwinv
    exact Bool.eq_false_of_not_eq_true fun hval =>
      Bool.false_ne_true (hwinv.symm.trans (hfull hval _ (List.getElem_mem hw)))
  refine ⟨by rwa [State.line_eq_getElem s i _ hlt], fun k hk => ?_⟩
  rw [State.line_eq_getElem s i k (hk.trans hlt)]
  exact hbelow k hk (hk.trans hlt) hvinv

/-- In a set of valid ways alone the victim is the lowest way with the largest counter (R98). -/
theorem State.selectVictim_of_valid (hpos : 0 < (s.ways i).length)
    (hfull : ∀ w < (s.ways i).length, (s.line i w).valid = true) :
    (∀ w < (s.ways i).length, (s.line i w).rc ≤ (s.line i (s.selectVictim i)).rc) ∧
      ∀ w < s.selectVictim i, (s.line i w).rc < (s.line i (s.selectVictim i)).rc := by
  have hvalid : ∀ l ∈ s.ways i, l.valid = true := by
    refine List.forall_mem_iff_forall_getElem.2 fun w hw => ?_
    rw [← State.line_eq_getElem s i w hw]
    exact hfull w hw
  obtain ⟨v, hv, heq, hmax, hbelow⟩ := oldestWay_spec (List.ne_nil_of_length_pos hpos)
  have hsel : s.selectVictim i = v := (victimOf_eq_oldestWay hvalid).trans heq
  rw [hsel, State.line_eq_getElem s i v hv]
  refine ⟨fun w hw => ?_, fun w hw => ?_⟩
  · rw [State.line_eq_getElem s i w hw]
    exact hmax _ (List.getElem_mem hw)
  · rw [State.line_eq_getElem s i w (hw.trans hv)]
    exact hbelow w hw

end

/-! ### The statement -/

/-- Settles O9: by whether the set has an invalid way. -/
theorem victimIsInvalidOrOldest : Obligations.VictimIsInvalidOrOldest := by
  intro s i hpos
  refine ⟨State.selectVictim_lt_length hpos, ?_⟩
  split_ifs with hinv
  · exact State.selectVictim_of_invalid hinv
  · exact State.selectVictim_of_valid hpos fun w hw =>
      Bool.eq_true_of_not_eq_false fun hw' => hinv ⟨w, hw, hw'⟩

end Sys2Proof.Machine
end

section
/-! SUPPORT and PROOFS. The write-back controller: the eviction of a valid dirty line
(43_writeback_controller.md section 1, R106). -/

namespace Sys2Proof.Machine

/-- Evicting a valid dirty line is its write-back to the line's base (R105, R106). -/
theorem State.evict_of_dirty {s : State} {i v : Nat} (hvalid : (s.line i v).valid = true)
    (hdirty : (s.line i v).dirty = true) : s.evict i v = s.writeback i v (s.lineBase i v) := by
  rw [State.evict, if_pos hvalid, if_pos hdirty]

/-- Settles O11: the eviction is a `writeBlock` of the line's data, whose words and bytes are known inside and outside the
block. -/
theorem dirtyEvictionWritesTheBlock : Obligations.DirtyEvictionWritesTheBlock := by
  intro s i v hvalid hdirty hlen
  refine ⟨_, State.evict_of_dirty hvalid hdirty, rfl, fun o ho => ?_, fun a ha => ?_, fun k hk => ?_⟩
  · have hin : s.lineBase i v ≤ s.lineBase i v + o ∧ s.lineBase i v + o < s.lineBase i v + s.cfg.wpb := by omega
    rw [State.writeback_mem, Memory.readWord_writeBlock, hlen, if_pos hin, Nat.add_sub_cancel_left]
  · rw [State.writeback_mem, Memory.readWord_writeBlock, hlen, if_neg ha]
  · rw [State.writeback_mem, Memory.readByte_writeBlock, hlen, if_neg hk]

end Sys2Proof.Machine
end

section
/-! SUPPORT and PROOFS. The Memory Hierarchy Controller: the state a served access leaves, on a hit and on a miss, and the
residency of its block (44_access_controller.md R117 to R119, R122, R126). -/

namespace Sys2Proof.Machine

open Sys2Proof.Safety

section
variable {n : Nat} {s t : State} {a : Nat}

/-! ### Sets and lines after one line was replaced -/

@[simp] theorem State.length_ways_setLine (s : State) (i w i' : Nat) (l : Line) :
    ((s.setLine i w l).ways i').length = (s.ways i').length := by
  rw [State.ways_setLine]
  split
  · next h => rw [List.length_set, h.1]
  · rfl

/-- A set with a way is a set of the store. -/
theorem State.set_lt_of_way_lt {i w : Nat} (hw : w < (s.ways i).length) : i < s.lines.length := by
  by_contra hi
  simp [State.ways, List.getD_eq_getElem?_getD, hi] at hw

/-- A line after one line of the store was replaced. -/
theorem State.line_setLine_of_way_lt {i w : Nat} (hw : w < (s.ways i).length) (l : Line) (i' w' : Nat) :
    (s.setLine i w l).line i' w' = if i' = i ∧ w' = w then l else s.line i' w' := by
  simp [State.line_setLine, State.set_lt_of_way_lt hw, hw]

/-- A line after ageing and the replacement of one line. -/
theorem State.line_ageAll_setLine {i w i' w' : Nat} (hw : w < (s.ways i).length) (hw' : w' < (s.ways i').length) (l : Line) :
    (s.ageAll.setLine i w l).line i' w' = if i' = i ∧ w' = w then l else ageLine (s.line i' w') := by
  rw [State.line_setLine_of_way_lt (by rwa [State.ways_ageAll, List.length_map]), State.line_ageAll s i' w' hw']

/-! ### A served access as the replacement of the located line -/

/-- A served read replaces the located line by itself with counter 0 (R115, R117, R118). -/
theorem serveRead_eq (s : State) (a : Nat) :
    (s.serveRead a).1 =
      (((s.locate a).1.setLine (setIndex s.cfg a) (s.locate a).2.1
        { (s.locate a).1.line (setIndex s.cfg a) (s.locate a).2.1 with rc := 0 }).emit .c2p a 1).respond
        (s.serveRead a).2 := by
  simp only [State.serveRead, State.finishRead, State.locate_cfg]
  rfl

/-- The write arm replaces the line of its block by itself with the word written, dirty, counter 0 (R89, R95). -/
theorem State.finishWrite_eq {w : Nat} (hw : w < (s.ways (setIndex s.cfg a)).length) (v : Word) :
    s.finishWrite a w v =
      (s.setLine (setIndex s.cfg a) w
        { s.line (setIndex s.cfg a) w with
          dirty := true, rc := 0, data := (s.line (setIndex s.cfg a) w).data.set (blockOffset s.cfg a) v }).emit .p2c a 1 := by
  have hline := State.line_writeWord s (setIndex s.cfg a) w (blockOffset s.cfg a) (setIndex s.cfg a) w v
  rw [if_pos ⟨rfl, rfl, State.set_lt_of_way_lt hw, hw⟩] at hline
  show ((s.writeWord _ _ _ v).setLine _ _ { (s.writeWord _ _ _ v).line _ _ with rc := 0 }).emit .p2c a 1 = _
  rw [hline, State.writeWord, State.setLine_setLine]

/-- A served write is the write arm on the located line and its response (R115, R119, R120). -/
theorem serveWrite_eq (hw : (s.locate a).2.1 < ((s.locate a).1.ways (setIndex s.cfg a)).length) (v : Word) :
    (s.serveWrite a v).1 =
      (((s.locate a).1.setLine (setIndex s.cfg a) (s.locate a).2.1
        { (s.locate a).1.line (setIndex s.cfg a) (s.locate a).2.1 with
          dirty := true, rc := 0
          data := ((s.locate a).1.line (setIndex s.cfg a) (s.locate a).2.1).data.set (blockOffset s.cfg a) v }).emit
        .p2c a 1).respond (.writeOk (s.locate a).2.2) := by
  have hfinish := State.finishWrite_eq (s := (s.locate a).1) (a := a) (w := (s.locate a).2.1)
    (by rwa [State.locate_cfg]) v
  rw [State.locate_cfg] at hfinish
  rw [State.serveWrite, hfinish]

/-! ### A hit -/

section
variable {w : Nat} (hx : s.lookup (setIndex s.cfg a) (tagOf s.cfg a) = some w)
include hx

/-- The state a read hit leaves (R117). -/
theorem serveRead_of_hit :
    (s.serveRead a).1 = ((s.ageAll.setLine (setIndex s.cfg a) w
      { s.line (setIndex s.cfg a) w with rc := 0 }).emit .c2p a 1).respond
        (.readOk true ((s.line (setIndex s.cfg a) w).data.getD (blockOffset s.cfg a) 0)) := by
  have hline := State.line_ageAll s _ w (State.lookup_some hx).1
  rw [serveRead_eq, State.serveRead, State.finishRead, State.locate_hit hx, State.readWord, State.ageAll_cfg, hline]
  rfl

/-- The state a write hit leaves (R119). -/
theorem serveWrite_of_hit (v : Word) :
    (s.serveWrite a v).1 = ((s.ageAll.setLine (setIndex s.cfg a) w
      { s.line (setIndex s.cfg a) w with
        dirty := true, rc := 0
        data := (s.line (setIndex s.cfg a) w).data.set (blockOffset s.cfg a) v }).emit .p2c a 1).respond
        (.writeOk true) := by
  have hw := (State.lookup_some hx).1
  rw [serveWrite_eq (by rwa [State.locate_hit hx, State.ways_ageAll, List.length_map]), State.locate_hit hx,
    State.line_ageAll s _ w hw]
  rfl

/-- The lines after a hit: the located one is `l`, every other one is aged (R93, R95). -/
theorem hit_ways_line {u : State} {l : Line} (hu : u.lines = (s.ageAll.setLine (setIndex s.cfg a) w l).lines) :
    (∀ i', (u.ways i').length = (s.ways i').length) ∧
      ∀ i', ∀ w' < (s.ways i').length,
        u.line i' w' = if i' = setIndex s.cfg a ∧ w' = w then l else ageLine (s.line i' w') := by
  refine ⟨fun i' => ?_, fun i' w' hw' => ?_⟩
  · rw [State.ways_congr hu, State.length_ways_setLine, State.ways_ageAll, List.length_map]
  · rw [State.line_congr hu, State.line_ageAll_setLine (State.lookup_some hx).1 hw']

end

/-! ### A miss -/

section
variable {i v g : Nat}

/-- Ageing changes no event of an eviction (R93, R122). -/
theorem victimEvents_ageAll (hv : v < (s.ways i).length) : victimEvents s.ageAll i v = victimEvents s i v := by
  rw [victimEvents, victimEvents, State.lineBase, State.line_ageAll s i v hv]
  rfl

/-- An eviction changes `mem` and the trace alone (R105, R122). -/
theorem State.evict_eq (s : State) (i v : Nat) :
    s.evict i v = { s with mem := (s.evict i v).mem, trace := s.trace ++ victimEvents s i v } := by
  rw [← State.evict_trace]
  unfold State.evict
  split_ifs <;> rfl

/-- The eviction before a fill leaves the block to be filled as it was: no line of the set holds it (R30, R111). -/
theorem evict_readWord_of_lookup_none (hc : LegalGeometry s.cfg) (h : CacheOk n s) (hi : i < s.cfg.sets)
    (hv : v < s.cfg.ways) (hx : s.lookup i g = none) {o : Nat} (ho : o < s.cfg.wpb) :
    (s.evict i v).mem.readWord (blockBase s.cfg g i + o) = s.mem.readWord (blockBase s.cfg g i + o) := by
  cases hval : (s.line i v).valid with
  | true =>
    have htag := State.lookup_none hx (hv.trans_eq (h.ways i hi).symm) hval
    exact evict_readWord_outside hc h hi hv hi ho fun hsame => htag hsame.2.symm
  | false => rw [State.evict_mem_of_not_needsWriteback (by simp [needsWriteback, hval])]

end

section
variable (hc : LegalGeometry s.cfg) (h : CacheOk n s) (hx : s.lookup (setIndex s.cfg a) (tagOf s.cfg a) = none)
include hc h hx

/-- After a miss service `mem` still holds the word of the address (R118). -/
theorem locate_miss_readWord : (s.locate a).1.mem.readWord a = s.mem.readWord a := by
  have hi := setIndex_lt hc a
  have hblock := evict_readWord_of_lookup_none hc h hi (selectVictim_lt hc h hi) hx (blockOffset_lt hc a)
  rw [← address_split hc a] at hblock
  rw [State.locate_mem hc h, State.resident, hx]
  exact hblock

/-- On a miss `LOCATE` changes the lines, `mem` by the eviction, and the trace by the victim's events and the fill's (R121,
R122). -/
theorem locate_miss_eq :
    (s.locate a).1 = { s with
      lines := (s.locate a).1.lines
      mem := (s.evict (setIndex s.cfg a) (s.selectVictim (setIndex s.cfg a))).mem
      trace := s.trace ++ victimEvents s (setIndex s.cfg a) (s.selectVictim (setIndex s.cfg a)) ++
        [{ kind := .m2c, addr := blockBaseOf s.cfg a, size := s.cfg.wpb }] } := by
  have hi := setIndex_lt hc a
  have hv : s.selectVictim (setIndex s.cfg a) < (s.ways (setIndex s.cfg a)).length :=
    (selectVictim_lt hc h hi).trans_eq (h.ways _ hi).symm
  rw [State.locate_miss hx, State.missService, State.selectVictim_ageAll, State.evict_eq, State.evict_ageAll_mem hv,
    victimEvents_ageAll hv, ← blockBase_fields hc]
  rfl

/-- The line a miss service leaves: valid, clean, with the tag and the words of the block, counter 0 (R109, R118). -/
theorem locate_miss_line :
    (s.locate a).1.line (setIndex s.cfg a) (s.selectVictim (setIndex s.cfg a)) =
      { valid := true, dirty := false, tag := tagOf s.cfg a, rc := 0
        data := s.mem.readBlock (blockBaseOf s.cfg a) s.cfg.wpb } := by
  have hi := setIndex_lt hc a
  have hv := selectVictim_lt hc h hi
  have hblock : (s.evict (setIndex s.cfg a) (s.selectVictim (setIndex s.cfg a))).mem.readBlock (blockBaseOf s.cfg a) s.cfg.wpb
      = s.mem.readBlock (blockBaseOf s.cfg a) s.cfg.wpb := by
    rw [← blockBase_fields hc]
    exact Memory.readBlock_congr fun o ho => evict_readWord_of_lookup_none hc h hi hv hx ho
  rw [State.locate_miss hx, line_missService (s := s.ageAll) hc (cacheOk_ageAll h) hi,
    if_pos ⟨rfl, (State.selectVictim_ageAll s _).symm⟩, filledLine, State.selectVictim_ageAll,
    State.evict_ageAll_mem (hv.trans_eq (h.ways _ hi).symm), State.evict_cfg, State.ageAll_cfg, blockBase_fields hc, hblock]

end

/-! ### The located line -/

section
variable {w : Nat} (hc : LegalGeometry s.cfg) (h : Located n s t a w)
include hc h

/-- The located way is a way of its set. -/
theorem located_way_lt_length : w < (t.ways (setIndex s.cfg a)).length := by
  rw [h.ok.ways _ ((setIndex_lt hc a).trans_eq (by rw [h.cfg])), h.cfg]
  exact h.way

/-- Replacing the located line puts the new one in its place. -/
theorem located_line_setLine (l : Line) : (t.setLine (setIndex s.cfg a) w l).line (setIndex s.cfg a) w = l := by
  rw [State.line_setLine_of_way_lt (located_way_lt_length hc h), if_pos ⟨rfl, rfl⟩]

end

/-- A read miss leaves the victim's line as the fill left it: the touch finds its counter at 0 already (R118). -/
theorem serveRead_line_of_miss (hc : LegalGeometry s.cfg) (h : CacheOk n s) (ha : a < s.cfg.memWords)
    (hx : s.lookup (setIndex s.cfg a) (tagOf s.cfg a) = none) :
    (s.serveRead a).1.line (setIndex s.cfg a) (s.selectVictim (setIndex s.cfg a)) =
      { valid := true, dirty := false, tag := tagOf s.cfg a, rc := 0
        data := s.mem.readBlock (blockBaseOf s.cfg a) s.cfg.wpb } := by
  have hway : (s.locate a).2.1 = s.selectVictim (setIndex s.cfg a) := by
    rw [State.locate_miss hx, State.selectVictim_ageAll]
  have hline := located_line_setLine hc (located hc h ha)
  rw [hway] at hline
  rw [serveRead_eq, hway]
  refine (hline _).trans ?_
  rw [locate_miss_line hc h hx]

/-! ### Residency after an access (R126) -/

/-- Addresses of one block have the same set and tag (R75, R77). -/
theorem fields_eq_of_blockBaseOf_eq {c : Geometry} (hc : LegalGeometry c) {b : Nat} (hb : blockBaseOf c b = blockBaseOf c a) :
    setIndex c b = setIndex c a ∧ tagOf c b = tagOf c a := by
  rw [blockBaseOf_eq hc, blockBaseOf_eq hc] at hb
  have hblock := Nat.eq_of_mul_eq_mul_right (wpb_pos hc) hb
  constructor
  · rw [setIndex_eq hc, setIndex_eq hc, hblock]
  · rw [tagOf_eq hc, tagOf_eq hc, hblock]

/-- The hit bit of an access says whether the address was resident (R90, R115). -/
theorem State.locate_hitBit (s : State) (a : Nat) : (s.locate a).2.2 = s.resident a := by
  cases hx : s.lookup (setIndex s.cfg a) (tagOf s.cfg a) with
  | some w => rw [State.locate_hit hx, State.resident, hx]; rfl
  | none => rw [State.locate_miss hx, State.resident, hx]; rfl

/-- When the located line is replaced by a valid one with its tag, every address of its block is resident. -/
theorem located_resident_setLine {w b : Nat} (hc : LegalGeometry s.cfg) (h : Located n s t a w) {l : Line}
    (hval : l.valid = true) (htag : l.tag = tagOf s.cfg a) (hb : blockBaseOf s.cfg b = blockBaseOf s.cfg a) :
    (t.setLine (setIndex s.cfg a) w l).resident b = true := by
  obtain ⟨hset, htagb⟩ := fields_eq_of_blockBaseOf_eq hc hb
  have hline := located_line_setLine hc h l
  have hw := located_way_lt_length hc h
  rw [State.resident, State.setLine_cfg, h.cfg, hset, htagb, Option.isSome_iff_ne_none]
  intro hnone
  exact State.lookup_none hnone (by rwa [State.length_ways_setLine]) (by rwa [hline]) (by rwa [hline])

/-- Right after a served read the whole block is resident (R126). -/
theorem serveRead_resident (hc : LegalGeometry s.cfg) (h : CacheOk n s) (ha : a < s.cfg.memWords) {b : Nat}
    (hb : blockBaseOf s.cfg b = blockBaseOf s.cfg a) : (s.serveRead a).1.resident b = true := by
  have hL := located hc h ha
  rw [serveRead_eq]
  exact located_resident_setLine hc hL (l := { (s.locate a).1.line _ _ with rc := 0 }) hL.valid hL.tag hb

/-- Right after a served write the whole block is resident (R126). -/
theorem serveWrite_resident (hc : LegalGeometry s.cfg) (h : CacheOk n s) (ha : a < s.cfg.memWords) (v : Word) {b : Nat}
    (hb : blockBaseOf s.cfg b = blockBaseOf s.cfg a) : (s.serveWrite a v).1.resident b = true := by
  have hL := located hc h ha
  rw [serveWrite_eq (located_way_lt_length hc hL)]
  exact located_resident_setLine hc hL (l := { (s.locate a).1.line _ _ with dirty := true, rc := 0, data := _ })
    hL.valid hL.tag hb

end

/-! ### The statements -/

/-- Settles O13: a hit is ageing, one event and the located line's counter set to 0. -/
theorem readHitReturnsTheCachedWord : Obligations.ReadHitReturnsTheCachedWord := by
  intro s a d w hr hb hx
  refine ⟨_, exec_read_served hr hb d, ?_⟩
  rw [serveRead_of_hit hx]
  obtain ⟨hways, hline⟩ := hit_ways_line hx (l := { s.line (setIndex s.cfg a.toNat) w with rc := 0 }) rfl
  refine ⟨rfl, hways, fun i' w' hw' => (hline i' w' hw').trans ?_⟩
  split_ifs with hsame
  · rw [hsame.1, hsame.2]
  · rfl

/-- Settles O15: a hit is ageing, one event and the located line replaced by the written one. -/
theorem writeHitUpdatesTheLine : Obligations.WriteHitUpdatesTheLine := by
  intro s a v w hr hb hx
  refine ⟨_, exec_write_served hr hb v, ?_⟩
  rw [serveWrite_of_hit hx]
  obtain ⟨hways, hline⟩ := hit_ways_line hx (l := { s.line (setIndex s.cfg a.toNat) w with
    dirty := true, rc := 0
    data := (s.line (setIndex s.cfg a.toNat) w).data.set (blockOffset s.cfg a.toNat) v }) rfl
  refine ⟨rfl, hways, fun i' w' hw' => (hline i' w' hw').trans ?_⟩
  split_ifs with hsame
  · rw [hsame.1, hsame.2]
  · rfl

/-- Settles O14: the miss service changes `mem` by the eviction, which leaves the requested block alone; the read arm adds an
event and sets a counter that is already 0. -/
theorem readMissFillsAndReturnsTheWord : Obligations.ReadMissFillsAndReturnsTheWord := by
  intro s a d hr hc h hb hx
  have ha := (inBounds_iff hc a).1 hb
  have hview : s.view a.toNat = s.mem.readWord a.toNat := by rw [State.view, hx]
  have hmiss : (s.locate a.toNat).2.2 = false := by rw [State.locate_miss hx]
  have hway : touchedWay s a.toNat = s.selectVictim (setIndex s.cfg a.toNat) := by rw [touchedWay, hx]; rfl
  obtain ⟨-, -, hresp, -⟩ := serveRead_spec hc h ha
  obtain ⟨-, -, -, hothers⟩ := serveRead_frame hc h ha
  refine ⟨_, exec_read_served hr hb d, ?_, ?_, fun i' hi' w' hw' => ?_⟩
  · rw [serveRead_eq, hresp, hmiss, hview, List.append_cons _ _ [_], locate_miss_eq hc h hx]
    rfl
  · rw [serveRead_eq]
    exact locate_miss_readWord hc h hx
  · rw [hway] at hothers
    split_ifs with hvictim
    · obtain ⟨rfl, rfl⟩ := hvictim
      exact serveRead_line_of_miss hc h ha hx
    · exact hothers i' hi' w' hw' hvictim

/-- Settles O33: after an access its block is resident, so the second read of the address is a hit, and it returns `VIEW`,
which the first one left alone. -/
theorem secondReadHitsWithTheSameValue : Obligations.SecondReadHitsWithTheSameValue := by
  intro s a d d' v hr hc h hb
  have ha := (inBounds_iff hc a).1 hb
  obtain ⟨hcache, hview, hresp, -⟩ := serveRead_spec hc h ha
  have hcfg := State.serveRead_cfg s a.toNat
  have hsecond := exec_read_served (s := (s.serveRead a.toNat).1) (a := a) (by rwa [State.serveRead_status]) (by rwa [hcfg]) d'
  refine ⟨⟨_, _, _, _, exec_read_served hr hb d, hsecond, congrArg some hresp, ?_, fun b => serveRead_resident hc h ha⟩,
    _, exec_write_served hr hb v, fun b => serveWrite_resident hc h ha v⟩
  obtain ⟨-, -, hresp', -⟩ := serveRead_spec (by rwa [hcfg]) hcache (ha.trans_eq (by rw [hcfg]))
  rw [State.locate_hitBit, serveRead_resident hc h ha rfl, hview] at hresp'
  exact congrArg some hresp'

end Sys2Proof.Machine
end

section
/-! SUPPORT and PROOFS. The Execution Engine: the fetch, and what `lw`, `sw`, `nand`, `jalr`, `halt`, `noop` and the inert row
do (45_execution_engine.md R136 to R149, R159). -/

namespace Sys2Proof.Machine

open Sys2Proof.Safety

/-! ### The operand forms -/

/-- The sign extension R69 spells out is the two's complement value of the field. -/
theorem signedOffset_eq_toInt (imm : Imm) : signedOffset imm = imm.toInt := by
  rw [BitVec.toInt_eq_msb_cond, BitVec.msb_eq_getLsbD_last]
  rfl

/-- A word plus the offset of an immediate field is the integer sum modulo `2^32` (R69, R150). -/
theorem add_offsetOf (x : Word) (imm : Imm) : x + offsetOf imm = BitVec.ofInt 32 (x.toInt + signedOffset imm) := by
  rw [BitVec.ofInt_add, BitVec.ofInt_toInt, signedOffset_eq_toInt]
  rfl

/-- A register number in the immediate field makes the instruction complete with the result in that register (R141, R142). -/
theorem writeDestination_of {d : RegNum} {imm : Imm} (h : imm.toNat = d.toNat) (v : Word) (s : State) :
    writeDestination imm v s = .next (s.setReg d v) := by
  rw [writeDestination, destination_of d h]

section
variable {s t : State}

/-! ### The state a served access leaves -/

/-- A served read changes the lines, `mem`, the trace and the response alone (R117, R118). -/
theorem serveRead_eq_with (s : State) (a : Nat) :
    (s.serveRead a).1 = { s with
      lines := (s.serveRead a).1.lines, mem := (s.serveRead a).1.mem, trace := (s.serveRead a).1.trace
      resp := (s.serveRead a).1.resp } := by
  calc (s.serveRead a).1 = { (s.serveRead a).1 with cfg := (s.serveRead a).1.cfg } := rfl
    _ = _ := by simp

/-- A READ that answers a word was served (R115, R116). -/
theorem eq_serveRead_of_access_readOk {a d w : Word} {h : Bool} (hread : s.access opRead a d = some (t, .readOk h w)) :
    t = (s.serveRead a.toNat).1 := by
  rcases s.access_cases opRead a d with ⟨-, e⟩ | ⟨-, f, e⟩ | ⟨-, -, -, e⟩ | ⟨-, ho, -⟩
  · cases e.symm.trans hread
  · cases e.symm.trans hread
  · exact congrArg Prod.fst (Option.some.inj (hread.symm.trans e))
  · cases ho

/-! ### The fetch -/

section
variable (hi : s.resetIn = false) (hr : s.status = .ready) (hq : s.requests = []) (hn : s.run = .running)
include hi hr hq hn

/-- A running requester with no request waiting fetches (R135, R136). -/
theorem nextAction_eq_fetchWord : s.nextAction = s.fetchWord := by
  rw [State.nextAction, hi, hr, State.nextWhenReady, hq, State.nextOfRequester, hn]
  rfl

/-- A served fetch runs what the word it returned decodes to (R136). -/
theorem step_of_access_readOk {h : Bool} {w : Word} (ha : s.access opRead s.pc 0 = some (t, .readOk h w)) :
    step s = exec (decodeWordWith s.enc w) t := by
  rw [step, nextAction_eq_fetchWord hi hr hq hn, State.fetchWord, State.memRead, ha]

/-- A fetch outside the memory takes the fatal condition `OutOfBounds` (R136, R153). -/
theorem step_fetch_outOfBounds (hb : inBounds s.cfg s.pc = false) :
    step s = .next ((s.raiseFatal (.outOfBounds s.pc)).setRun .faulted) := by
  rw [step, nextAction_eq_fetchWord hi hr hq hn, State.fetchWord, State.memRead, State.access_outOfBounds hr (.inl rfl) hb]
  rfl

end

/-! ### Words whose opcode is known (R71, R140) -/

section
variable {E : Encoding} (hE : E.Legal) {w : Word}
include hE

theorem decodeWordWith_of_halt (hop : opcodeField E.layout w = E.opc.halt) :
    decodeWordWith E w = .halt (f0Field E.layout w) (f1Field E.layout w) (immField E.layout w) := by
  obtain ⟨-, hnodup, -⟩ := hE
  simp only [decodeWordWith, hop, ofFields_number _ _ _ hnodup]

theorem decodeWordWith_of_noop (hop : opcodeField E.layout w = E.opc.noop) :
    decodeWordWith E w = .noop (f0Field E.layout w) (f1Field E.layout w) (immField E.layout w) := by
  obtain ⟨-, hnodup, -⟩ := hE
  simp only [decodeWordWith, hop, ofFields_number _ _ _ hnodup]

end

/-! ### The register instructions by cases -/

section
variable {f0 f1 d : RegNum} {imm : Imm}

/-- `nand` with an immediate that names a register writes that register (R142). -/
theorem exec_nand_of (hd : imm.toNat = d.toNat) (s : State) :
    exec (.nand f0 f1 imm) s = .next (s.advancePc.setReg d (~~~(s.reg f0 &&& s.reg f1))) :=
  writeDestination_of hd _ _

/-- `jalr` with different fields links and jumps (R146). -/
theorem exec_jalr_of_ne (hne : f0 ≠ f1) (s : State) :
    exec (.jalr f0 f1 imm) s = .next ((s.advancePc.setReg f0 (s.pc + 1)).setPc (s.reg f1)) :=
  if_pos hne

/-- `jalr` with equal fields only advances the pc (R146). -/
theorem exec_jalr_of_eq (heq : f0 = f1) (s : State) : exec (.jalr f0 f1 imm) s = .next s.advancePc :=
  if_neg (not_not_intro heq)

end

end

/-! ### The statements -/

/-- Settles O39: a fetch in bounds is a served READ of the pc. -/
theorem fetchReadsTheViewAtPc : Obligations.FetchReadsTheViewAtPc := by
  intro s hinv hi hr hq hn hb
  have hc := hinv.legal hr
  have h := hinv.cache hc
  obtain ⟨hcache, hview, hresp, -⟩ := serveRead_spec hc h ((inBounds_iff hc _).1 hb)
  exact ⟨_, _, by rw [State.access_read hr hb, ← hresp], step_fetch hi hr hq hn hc h hb, serveRead_eq_with s _, hcache,
    fun b _ => hview b⟩

/-- Settles O42: the fetched word decodes to `halt`, which changes the run state of the state the READ leaves. -/
theorem haltStopsWithoutFurtherMutation : Obligations.HaltStopsWithoutFurtherMutation := by
  intro s hinv hi hr hq hn hb hop
  obtain ⟨u, x, hread, hstep, hframe, -, hview⟩ := fetchReadsTheViewAtPc s hinv hi hr hq hn hb
  have hpc : u.pc = s.pc := by rw [hframe]
  have hregs : u.regs = s.regs := by rw [hframe]
  rw [decodeWordWith_of_halt hinv.encoding hop] at hstep
  exact ⟨u.setRun .halted, u, _, hread, hstep, rfl, rfl, hpc, hregs, hview⟩

/-- Settles O46: `lw` is a served READ of its address, then the word read in `x[f0]`. -/
theorem lwLoadsTheViewedWord : Obligations.LwLoadsTheViewedWord := by
  intro s f0 f1 imm a hr hc h haddr hb
  obtain rfl : dataAddress s f1 imm = a := (add_offsetOf _ _).trans haddr.symm
  obtain ⟨-, hview, -, hserved⟩ := serveRead_spec hc h ((inBounds_iff hc _).1 hb)
  have hexec := exec_lw_served (f0 := f0) hr hc h hb
  rw [State.advancePc, State.serveRead_setPc] at hexec
  refine ⟨_, hexec, rfl, ?_, fun r hne => ?_, by simp, by simp, fun b _ => hview b, hserved,
    fun d => ⟨_, exec_read_served hr hb d, rfl⟩⟩
  · rw [State.reg_setReg, if_pos rfl]
  · rw [State.reg_setReg, if_neg hne]
    exact State.reg_congr (State.serveRead_regs _ _) r

/-- Settles O47: `sw` is a served WRITE of `x[f0]` to its address. -/
theorem swStoresIntoTheView : Obligations.SwStoresIntoTheView := by
  intro s f0 f1 imm a hr hc h haddr hb
  obtain rfl : dataAddress s f1 imm = a := (add_offsetOf _ _).trans haddr.symm
  obtain ⟨-, hview, -, hserved⟩ := serveWrite_spec hc h ((inBounds_iff hc _).1 hb) (s.reg f0)
  have hexec := exec_sw_served (f0 := f0) hr hb
  rw [State.advancePc, State.serveWrite_setPc] at hexec
  exact ⟨_, hexec, rfl, by simp, by simp, by simp, (hview _).trans (if_pos rfl), fun b _ hne => (hview b).trans (if_neg hne),
    hserved, _, exec_write_served hr hb _, rfl⟩

/-- Settles O44: the complement of the conjunction is written to the register the immediate names. -/
theorem nandWritesTheNegatedConjunction : Obligations.NandWritesTheNegatedConjunction := by
  intro s f0 f1 d imm hd
  have hresult : (s.advancePc.setReg d (~~~(s.reg f0 &&& s.reg f1))).reg d = ~~~(s.reg f0 &&& s.reg f1) := by
    rw [State.reg_setReg, if_pos rfl]
  refine ⟨_, exec_nand_of hd s, rfl, fun k hk => ?_, ?_, fun r hne => ?_⟩
  · refine (congrArg (·.getLsbD k) hresult).trans ?_
    simp [hk]
  · rintro rfl
    exact hresult.trans (by rw [BitVec.and_self])
  · rw [State.reg_setReg, if_neg hne]
    rfl

/-- Settles O50: by the two cases of `jalr`; the fetch after it is at the target. -/
theorem jalrLinksAndJumpsUnlessFieldsEqual : Obligations.JalrLinksAndJumpsUnlessFieldsEqual := by
  intro s f0 f1 imm
  refine ⟨fun hne => ⟨_, exec_jalr_of_ne hne s, rfl, ?_, fun r hr => ?_, fun hi hready hq hn hb =>
    step_fetch_outOfBounds hi hready hq hn hb⟩, fun heq => exec_jalr_of_eq heq s⟩
  · exact (State.reg_setReg s.advancePc f0 f0 (s.pc + 1)).trans (if_pos rfl)
  · exact (State.reg_setReg s.advancePc f0 r (s.pc + 1)).trans (if_neg hr)

/-- Settles O52: the fetched word decodes to `noop` or to the inert row, and both only advance the pc. -/
theorem noopAndOtherOpcodesOnlyAdvance : Obligations.NoopAndOtherOpcodesOnlyAdvance := by
  refine ⟨fun s op f0 f1 imm => ⟨rfl, rfl⟩, fun s t h w hi hr hq hn hread hop => ?_⟩
  have hpc : t.pc = s.pc := by rw [eq_serveRead_of_access_readOk hread, State.serveRead_pc]
  rw [step_of_access_readOk hi hr hq hn hread, ← hpc]
  rcases hop with ⟨hE, hnoop⟩ | hother
  · rw [decodeWordWith_of_noop hE hnoop]
    rfl
  · rw [decodeWordWith, ofFields_of_notMem _ _ _ hother]
    rfl

end Sys2Proof.Machine
end

section
/-! SUPPORT and PROOFS. The program loader: when it loads, what is seen after it, and its order with the release of reset
(70_reset_and_hazards.md R184, R190). -/

namespace Sys2Proof.Machine

open Sys2Proof.Safety

section
variable {s : State}

/-! ### The answers of the loader -/

/-- Where the loader has no capacity it loads nothing (R184, R190). -/
theorem State.loadImage_of_no_capacity (hcap : s.loadCapacity = none) (image : List Word) : s.loadImage image = none := by
  rw [State.loadImage, hcap]

/-- An image is loaded exactly when it fits (R184, U17). -/
theorem State.loadImage_of_capacity {n : Nat} (hcap : s.loadCapacity = some n) (image : List Word) :
    s.loadImage image = if image.length ≤ n then some { s with mem := s.mem.writeBlock 0 image } else none := by
  rw [State.loadImage, hcap]

/-- The loader has no capacity after the first access (R190). -/
theorem State.loadCapacity_of_trace_ne_nil (ht : s.trace ≠ []) : s.loadCapacity = none := if_neg ht

/-- The loader has no capacity in a block that failed (log entry 27). -/
theorem State.loadCapacity_of_faulted (hi : s.resetIn = false) (hf : ∃ f, s.status = .faulted f) :
    s.loadCapacity = none := by
  obtain ⟨f, hf⟩ := hf
  simp [State.loadCapacity, hi, hf]

/-- Until reset is released the capacity is the one the provider presents (R184, steps 1 and 2). -/
theorem State.loadCapacity_before_release (ht : s.trace = []) (hr : s.resetIn = true ∨ s.status = .inReset) :
    s.loadCapacity = some s.cfgIn.cfgMemWords.toNat := by
  rw [State.loadCapacity, if_pos ht, if_pos hr]

/-- After the release the capacity is the latched one (R20, R184). -/
theorem State.loadCapacity_of_ready (ht : s.trace = []) (hi : s.resetIn = false) (hr : s.status = .ready) :
    s.loadCapacity = some s.cfg.memWords := by
  simp [State.loadCapacity, ht, hi, hr]

/-- Image word `a` is at word `a` of the memory, and the words above the image are as they were (R184). -/
theorem Memory.readWord_writeBlock_zero (image : List Word) (m : Memory) (a : Nat) :
    (m.writeBlock 0 image).readWord a = if h : a < image.length then image[a] else m.readWord a := by
  rw [Memory.readWord_writeBlock]
  by_cases h : a < image.length <;> simp [h]

/-! ### A Cache Store before the first access -/

/-- Before the first access no counter is below the number of accesses served, so no line is valid (R34). -/
theorem line_invalid_of_trace_eq_nil (h : CacheInv s) (ht : s.trace = []) {i w : Nat} (hi : i < s.cfg.sets)
    (hw : w < s.cfg.ways) : (s.line i w).valid = false := by
  rw [← Bool.not_eq_true]
  intro hvalid
  have hserved : served s = 0 := by rw [served, ht, List.countP_nil]
  have hlt := h.validCounter i hi w hw hvalid
  omega

/-- Before the first access the Cache Store is well-formed whatever the memory holds: no clean line has to match it. -/
theorem cacheInv_with_mem (h : CacheInv s) (ht : s.trace = []) (m : Memory) : CacheInv { s with mem := m } :=
  { h with
    cleanMatches := fun _ hi _ hw hvalid _ =>
      absurd hvalid (Bool.eq_false_iff.1 (line_invalid_of_trace_eq_nil h ht hi hw)) }

/-- Before the first access a load keeps the invariant (R184). -/
theorem inv_writeBlock (h : Inv s) (ht : s.trace = []) (b : Nat) (image : List Word) :
    Inv { s with mem := s.mem.writeBlock b image } :=
  { h with
    memory := Memory.wf_writeBlock b image s.mem h.memory
    cache := fun hc => cacheInv_with_mem (h.cache hc) ht _ }

/-- `VIEW` is the memory where no line is valid (R52). -/
theorem view_of_lines_invalid (h : ∀ ls ∈ s.lines, ∀ l ∈ ls, l.valid = false) (a : Nat) :
    s.view a = s.mem.readWord a := by
  have hways : ∀ i, ∀ l ∈ s.ways i, l.valid = false := by
    intro i l hl
    rw [State.ways, List.getD_eq_getElem?_getD] at hl
    cases hi : s.lines[i]? with
    | none => simp [hi] at hl
    | some ls => exact h ls (List.mem_of_getElem? hi) l (by simpa [hi] using hl)
  have hnone : s.lookup (setIndex s.cfg a) (tagOf s.cfg a) = none :=
    List.findIdx?_eq_none_iff.2 fun l hl => by simp [lineMatches, hways _ l hl]
  rw [State.view, hnone]

/-- `VIEW` is the memory before the first access (R52, R184). -/
theorem view_of_trace_eq_nil (hc : LegalGeometry s.cfg) (h : CacheInv s) (ht : s.trace = []) (a : Nat) :
    s.view a = s.mem.readWord a :=
  view_of_mem hc h fun _ hw hvalid =>
    absurd hvalid (Bool.eq_false_iff.1 (line_invalid_of_trace_eq_nil h ht (setIndex_lt hc a) hw))

/-! ### The releasing step -/

/-- With reset released, a block in reset takes the configuration inputs in its next step (R181). -/
theorem step_of_inReset (hr : s.status = .inReset) (hi : s.resetIn = false) : step s = .next s.releaseReset := by
  simp [step, State.nextAction, hr, hi]

/-- The release into `Ready` keeps the capacity: the presented `MEM_WORDS` becomes the latched one (R65, R184). -/
theorem loadCapacity_releaseReset (hi : s.resetIn = false) (hready : s.releaseReset.status = .ready) :
    s.releaseReset.loadCapacity = some s.cfgIn.cfgMemWords.toNat :=
  State.loadCapacity_of_ready rfl hi hready

end

/-! ### The statements -/

/-- Settles O7: the loader's answer is its capacity's; before the first access no line is valid, so the memory is what is seen
and the invariant has nothing to say about it but its canonical form. -/
theorem loadedImageIsWhatIsSeen : Obligations.LoadedImageIsWhatIsSeen := by
  intro s image
  refine ⟨fun ht => State.loadImage_of_no_capacity (State.loadCapacity_of_trace_ne_nil ht) image,
    fun hi hf => State.loadImage_of_no_capacity (State.loadCapacity_of_faulted hi hf) image, fun n hn ht => ?_⟩
  have hcap : s.loadCapacity = some n := by
    rcases hn with ⟨hr, rfl⟩ | ⟨hi, hr, rfl⟩
    · exact State.loadCapacity_before_release ht hr
    · exact State.loadCapacity_of_ready ht hi hr
  have hload := State.loadImage_of_capacity hcap image
  refine ⟨fun hlong => hload.trans (if_neg (Nat.not_le.2 hlong)), fun hfits => ?_⟩
  refine ⟨_, hload.trans (if_pos hfits), rfl, fun hinv => inv_writeBlock hinv ht 0 image, fun a =>
    ⟨Memory.readWord_writeBlock_zero image s.mem a, ?_⟩⟩
  rintro (hinvalid | ⟨hc, hcache⟩)
  · exact view_of_lines_invalid (s := { s with mem := s.mem.writeBlock 0 image }) hinvalid a
  · exact view_of_trace_eq_nil (s := { s with mem := s.mem.writeBlock 0 image }) hc (cacheInv_with_mem hcache ht _) ht a

/-- Settles O56: the capacity is the same before and after the release, and the release neither reads nor changes `mem`. -/
theorem loadAndReleaseMayBeSwapped : Obligations.LoadAndReleaseMayBeSwapped := by
  intro s r image hr hi ht hstep hready
  obtain rfl : s.releaseReset = r := Host.Outcome.next.inj ((step_of_inReset hr hi).symm.trans hstep)
  have hbefore := State.loadImage_of_capacity (State.loadCapacity_before_release ht (.inr hr)) image
  have hafter := State.loadImage_of_capacity (loadCapacity_releaseReset hi hready) image
  rw [hbefore, hafter]
  by_cases hfits : image.length ≤ s.cfgIn.cfgMemWords.toNat
  · simp only [if_pos hfits, Option.some.injEq, reduceCtorEq, true_and]
    rintro t rfl
    exact ⟨_, step_of_inReset hr hi, rfl⟩
  · simp [hfits]

end Sys2Proof.Machine
end

section
/-! SUPPORT and PROOFS. The encoding of the instruction set: both directions of the round trip (30_encoding.md R58, R59, R68 to
R74). -/

namespace Sys2Proof

/-! ### From an instruction to its bits and back -/

/-- Settles O2: a word by the round trip of instruction words, a request by that of requests. -/
theorem decodeEncodeEveryLayout : Obligations.DecodeEncodeEveryLayout := by
  intro E hE i hwf
  cases henc : encodeWith E i with
  | word w => exact decodeWordWith_of_encodeWith_eq_word hE hwf henc
  | request r => cases i <;> cases henc <;> exact Laws.RoundTrip.decode_request _ _ _

/-! ### From bits to an instruction and back -/

section
variable (E : Encoding) (op : Opcode) (f0 f1 : RegNum) (imm : Imm)

/-- What an opcode and its operands name is encoded with that opcode and those operands (R71, R72). -/
theorem encodeWith_ofFields :
    encodeWith E (ofFields E.opc op f0 f1 imm) = .word (encodeFields E.layout op f0 f1 imm) := by
  unfold ofFields
  split_ifs <;> simp only [encodeWith, *]

/-- What an opcode that fits its field names is well-formed: the inert row comes after all eight numbers (R72). -/
theorem wfWith_ofFields (hop : op.toNat < 2 ^ E.layout.opcodeWidth) : (ofFields E.opc op f0 f1 imm).wfWith E = true := by
  unfold ofFields
  split_ifs <;> simp [Instr.wfWith, OpcodeNumbers.all, *]

end

/-- Bit `k` of a field, seen from the word the field was taken from. -/
theorem getLsbD_extractLsb'_sub {m : Nat} (w : BitVec m) (lo n k : Nat) :
    (decide (lo ≤ k ∧ k < lo + n) && (w.extractLsb' lo n).getLsbD (k - lo)) =
      (decide (lo ≤ k ∧ k < lo + n) && w.getLsbD k) := by
  by_cases h : lo ≤ k ∧ k < lo + n
  · have hin : k - lo < n := by omega
    simp [hin, Nat.add_sub_cancel' h.1]
  · simp [h]

theorem opcodeField_defaultLayout (w : Word) : opcodeField defaultLayout w = w.extractLsb' 22 10 :=
  BitVec.eq_of_toNat_eq (by simp [opcodeField, defaultLayout])

/-- The default layout's four fields cover the word: no bit is dropped (R68, R70). -/
theorem encodeFields_defaultLayout (w : Word) :
    encodeFields defaultLayout (opcodeField defaultLayout w) (f0Field defaultLayout w) (f1Field defaultLayout w)
      (immField defaultLayout w) = w := by
  have hop : (opcodeField defaultLayout w).toNat < 2 ^ defaultLayout.opcodeWidth := BitVec.isLt _
  ext k hk
  have hopcode := getLsbD_extractLsb'_sub w 22 10 k
  have hf0 := getLsbD_extractLsb'_sub w 19 3 k
  have hf1 := getLsbD_extractLsb'_sub w 16 3 k
  have himm := getLsbD_extractLsb'_sub w 0 16 k
  rw [← BitVec.getLsbD_eq_getElem hk, getLsbD_encodeFields Laws.RoundTrip.defaultLayout_legal hop,
    opcodeField_defaultLayout, f0Field, f1Field, immField, ← BitVec.getLsbD_eq_getElem hk]
  simp only [defaultLayout, ILayout.opcodeWidth]
  grind

/-- A request is made of its operation code, its address and its write value: no bit is dropped (R58). -/
theorem encodeRequest_fields (r : RequestBits) : encodeRequest (requestOp r) (requestAddr r) (requestData r) = r := by
  ext k hk
  have hop := getLsbD_extractLsb'_sub r 64 2 k
  have haddr := getLsbD_extractLsb'_sub r 32 32 k
  have hdata := getLsbD_extractLsb'_sub r 0 32 k
  rw [← BitVec.getLsbD_eq_getElem hk, getLsbD_encodeRequest, requestOp, requestAddr, requestData,
    ← BitVec.getLsbD_eq_getElem hk]
  grind

/-- There are four operation codes (R59). -/
theorem reqOp_cases (op : ReqOp) : op = 0b00#2 ∨ op = 0b01#2 ∨ op = 0b10#2 ∨ op = 0b11#2 := by
  revert op
  decide

/-- An operation code's request decodes to the constructor that encodes to it (R59). -/
theorem encodeWith_decodeRequest (E : Encoding) (r : RequestBits) :
    encodeWith E (decodeRequest r) = .request r ∧ (decodeRequest r).wfWith E = true := by
  have hbits := encodeRequest_fields r
  rcases reqOp_cases (requestOp r) with h | h | h | h <;> rw [h] at hbits <;>
    simp [decodeRequest, h, encodeWith, hbits, Instr.wfWith]

/-- Settles O3: the default layout covers every bit of a word, and the three fields of a request every bit of it. -/
theorem everyPacketReencodes : Obligations.EveryPacketReencodes := by
  intro p
  cases p with
  | request r => exact encodeWith_decodeRequest defaultEncoding r
  | word w =>
    refine ⟨(encodeWith_ofFields defaultEncoding _ _ _ _).trans ?_, wfWith_ofFields defaultEncoding _ _ _ _ (BitVec.isLt _)⟩
    exact congrArg Packet.word (encodeFields_defaultLayout w)

/-- Settles O1: each of the fourteen vectors is a closed computation of the decoder. -/
theorem specWordsDecode : Obligations.SpecWordsDecode := by
  unfold Obligations.SpecWordsDecode
  decide

end Sys2Proof
end

section
/-! SUPPORT and PROOFS. Addresses of one block, and canonical memories as data (40_address_decoder.md R82; 20_memory.md
section 1). -/

namespace Sys2Proof.Machine

open Sys2Proof.Safety

/-! ### Addresses of one block -/

section
variable {c : Geometry} {a b : Nat}

/-- Agreeing above the offset bits is having one block number (R75). -/
theorem shiftRight_offBits_eq_iff (hc : LegalGeometry c) :
    a >>> offBits c = b >>> offBits c ↔ a / c.wpb = b / c.wpb := by
  rw [Nat.shiftRight_eq_div_pow, Nat.shiftRight_eq_div_pow, two_pow_offBits hc]

/-- The tag and the set are the block number (R75). -/
theorem fields_eq_iff (hc : LegalGeometry c) :
    (tagOf c a = tagOf c b ∧ setIndex c a = setIndex c b) ↔ a / c.wpb = b / c.wpb := by
  constructor
  · rintro ⟨htag, hset⟩
    rw [← tag_mul_add_setIndex hc, ← tag_mul_add_setIndex hc, htag, hset]
  · intro h
    rw [tagOf_eq hc, tagOf_eq hc, setIndex_eq hc, setIndex_eq hc, h]
    exact ⟨rfl, rfl⟩

/-- The block base is the block number times `WPB` (R77). -/
theorem blockBaseOf_eq_iff (hc : LegalGeometry c) : blockBaseOf c a = blockBaseOf c b ↔ a / c.wpb = b / c.wpb := by
  rw [blockBaseOf_eq hc, blockBaseOf_eq hc, Nat.mul_left_inj (wpb_pos hc).ne']

end

/-- Settles O5: each of the three says that the two addresses have one block number. -/
theorem sameBlockSameTagAndSet : Obligations.SameBlockSameTagAndSet := by
  intro c a b hc
  rw [fields_eq_iff hc, blockBaseOf_eq_iff hc, shiftRight_offBits_eq_iff hc]
  exact ⟨Iff.rfl, Iff.rfl⟩

/-! ### Canonical memories -/

/-- A canonical memory lists its keys in strictly rising order. -/
theorem Memory.pairwise_of_wf {m : Memory} (h : m.wf = true) : m.Pairwise (fun c d => c.1 < d.1) := by
  induction m with
  | nil => exact .nil
  | cons c m ih =>
    obtain ⟨-, hlt, hm⟩ := (Memory.wf_cons c m).1 h
    exact .cons hlt (ih hm)

/-- Settles O6: memories that read alike list the same entries, and a list in rising order is determined by its entries. -/
theorem canonicalMemoriesReadingAlikeAreEqual : Obligations.CanonicalMemoriesReadingAlikeAreEqual := by
  intro m m' hm hm' hread
  have hmem : ∀ c, c ∈ m ↔ c ∈ m' := fun ⟨k, v⟩ => by
    rw [Memory.mem_iff_readByte hm, Memory.mem_iff_readByte hm', hread]
  exact (Memory.pairwise_of_wf hm).eq_of_mem_iff (Memory.pairwise_of_wf hm') hmem

end Sys2Proof.Machine
end

section
/-! SUPPORT and PROOFS. The Replacement Engine and the write-back controller: victims under ageing, the least recently used line,
evictions that write nothing (42_replacement_engine.md R99 to R102; 43_writeback_controller.md R107, R108). -/

namespace Sys2Proof.Machine

open Sys2Proof.Safety

/-- Settles O10: ageing adds one to every counter that is compared. -/
theorem ageingChangesNoVictim : Obligations.AgeingChangesNoVictim := by
  intro s i
  exact ⟨State.selectVictim_ageAll s i, victimOf_map_ageLine _⟩

/-- Settles O28: the victim's counter is the largest and no other line has it, and a counter is a staleness. -/
theorem victimIsLeastRecentlyUsed : Obligations.VictimIsLeastRecentlyUsed := by
  intro s i w hc h hmeaning hi hw hfull hne
  have hv := selectVictim_lt hc h hi
  have hlen := h.ways i hi
  obtain ⟨hmax, -⟩ := State.selectVictim_of_valid (hc.ways.trans_eq hlen.symm) (by rwa [hlen])
  obtain ⟨hrc, -⟩ := hmeaning i hi w hw (hfull w hw)
  obtain ⟨hrcv, -⟩ := hmeaning i hi _ hv (hfull _ hv)
  rw [← hrc, ← hrcv]
  refine lt_of_le_of_ne (hmax w (hw.trans_eq hlen.symm)) fun heq => ?_
  exact hne (h.countersApart i hi w hw i hi _ hv (hfull w hw) (hfull _ hv) heq).2

/-- Settles O12: by the two flags of the line. -/
theorem cleanAndInvalidVictimsWriteNothing : Obligations.CleanAndInvalidVictimsWriteNothing := by
  intro s i v
  refine ⟨fun hvalid hclean => ?_, fun hinvalid => ?_⟩
  · rw [State.evict, if_pos hvalid, if_neg (by simp [hclean])]
    rfl
  · rw [State.evict, if_neg (by simp [hinvalid])]

end Sys2Proof.Machine
end

section
/-! SUPPORT and PROOFS. The classes of instructions, and the frame of those that run on the registers alone (45_execution_engine.md
R140 to R149). -/

namespace Sys2Proof.Machine

/-! ### The three classes of instructions -/

/-- What an instruction runs on: the request interface, one data access, or the registers alone (R59, R141 to R149). -/
inductive InstrClass where
  | request
  | loadStore
  | register

/-- The data accesses an instruction of the class issues beside its fetch (R138). -/
def InstrClass.dataAccesses : InstrClass → Nat
  | .loadStore => 1
  | .request | .register => 0

/-- The class of an instruction. -/
def classOf : Instr → InstrClass
  | .read _ _ | .write _ _ | .reservedOp10 _ _ | .reservedOp11 _ _ => .request
  | .lw _ _ _ | .sw _ _ _ => .loadStore
  | .add _ _ _ | .nand _ _ _ | .beq _ _ _ | .jalr _ _ _ | .halt _ _ _ | .noop _ _ _ | .otherOpcode _ _ _ _ => .register

/-- No instruction word decodes to a request (R140). -/
theorem classOf_decodeWordWith (E : Encoding) (w : Word) : classOf (decodeWordWith E w) ≠ .request := by
  unfold decodeWordWith ofFields
  split_ifs <;> exact nofun

/-- The load-store instructions are `lw` and `sw`. -/
theorem loadStore_of_classOf {i : Instr} (hi : classOf i = .loadStore) :
    ∃ f0 f1 imm, i = .lw f0 f1 imm ∨ i = .sw f0 f1 imm := by
  cases i with
  | lw f0 f1 imm => exact ⟨f0, f1, imm, .inl rfl⟩
  | sw f0 f1 imm => exact ⟨f0, f1, imm, .inr rfl⟩
  | _ => cases hi

/-- The register a register instruction writes, if any (R141, R142, R146). -/
def destinationOf : Instr → Option RegNum
  | .add _ _ imm | .nand _ _ imm => destination imm
  | .jalr f0 _ _ => some f0
  | _ => none

/-- The destination named by an immediate field is the register of that number (R69, R154). -/
theorem toNat_of_destination {imm : Imm} {r : RegNum} (h : destination imm = some r) : imm.toNat = r.toNat := by
  unfold destination at h
  split at h
  · cases h
    rw [BitVec.toNat_setWidth]
    omega
  · cases h

section
variable {s t : State} {i : Instr}

/-- What a register instruction leaves of the requester: its pc, every register but its destination, and the run state unless it is
`halt`; and everything else but the pc and the registers it leaves alone. -/
structure RegisterFrame (s t : State) (i : Instr) : Prop where
  block : t = { s with pc := t.pc, regs := t.regs, run := t.run }
  regs : ∀ r, destinationOf i ≠ some r → t.reg r = s.reg r
  run : t.run = s.run ∨ t.run = .halted ∧ ∃ f0 f1 imm, i = .halt f0 f1 imm

/-- A write of the result leaves every register but the destination (R141, R142). -/
theorem writeDestination_frame {imm : Imm} {v : Word} (h : writeDestination imm v s.advancePc = .next t)
    (hdest : destinationOf i = destination imm) : RegisterFrame s t i := by
  rcases writeDestination_cases imm v s.advancePc with ⟨d, hd, e⟩ | ⟨-, e⟩ <;> cases h.symm.trans e
  refine ⟨rfl, fun r hr => (State.reg_setReg s.advancePc d r v).trans (if_neg ?_), .inl rfl⟩
  rintro rfl
  exact hr (hdest.trans (destination_of r hd))

theorem exec_register_frame (hi : classOf i = .register) (h : exec i s = .next t) : RegisterFrame s t i := by
  cases i with
  | read | write | reservedOp10 | reservedOp11 | lw | sw => cases hi
  | add f0 f1 imm | nand f0 f1 imm => exact writeDestination_frame h rfl
  | beq f0 f1 imm =>
    by_cases heq : s.reg f0 = s.reg f1
    · cases (show exec (.beq f0 f1 imm) s = _ from if_pos heq).symm.trans h
      exact ⟨rfl, fun r _ => rfl, .inl rfl⟩
    · cases (show exec (.beq f0 f1 imm) s = _ from if_neg heq).symm.trans h
      exact ⟨rfl, fun r _ => rfl, .inl rfl⟩
  | jalr f0 f1 imm =>
    by_cases heq : f0 = f1
    · cases (exec_jalr_of_eq heq s).symm.trans h
      exact ⟨rfl, fun r _ => rfl, .inl rfl⟩
    · cases (exec_jalr_of_ne heq s).symm.trans h
      refine ⟨rfl, fun r hr => (State.reg_setReg s.advancePc f0 r (s.pc + 1)).trans (if_neg ?_), .inl rfl⟩
      rintro rfl
      exact hr rfl
  | halt f0 f1 imm =>
    cases h
    exact ⟨rfl, fun r _ => rfl, .inr ⟨rfl, f0, f1, imm, rfl⟩⟩
  | noop f0 f1 imm | otherOpcode op f0 f1 imm =>
    cases h
    exact ⟨rfl, fun r _ => rfl, .inl rfl⟩

end

/-! ### The statement -/

/-- Settles O53: a register instruction changes the requester alone; which register, by the instruction. -/
theorem registerInstructionsFrame : Obligations.RegisterInstructionsFrame := by
  intro s t i op f0 f1 imm hi h
  have hclass : classOf i = .register := by rcases hi with rfl | rfl | rfl | rfl | rfl | rfl | rfl <;> rfl
  obtain ⟨heq, hregs, hrun⟩ := exec_register_frame hclass h
  have hview (b : Nat) : t.view b = s.view b := by rw [heq]; rfl
  refine ⟨fun r hdest hlink => hregs r fun hr => ?_, fun hhalt => hrun.resolve_right ?_, by rw [heq], by rw [heq],
    by rw [heq], by rw [heq], by rw [heq], by rw [heq], by rw [heq], by rw [heq], by rw [heq], fun k => by rw [heq], hview⟩
  · rcases hi with rfl | rfl | rfl | rfl | rfl | rfl | rfl
    · exact hdest ⟨.inl rfl, toNat_of_destination hr⟩
    · exact hdest ⟨.inr rfl, toNat_of_destination hr⟩
    · cases hr
    · exact hlink ⟨rfl, (Option.some.inj hr).symm⟩
    · cases hr
    · cases hr
    · cases hr
  · rintro ⟨-, g0, g1, imm', rfl⟩
    simp only [reduceCtorEq, false_or, or_false] at hi
    exact hhalt hi

end Sys2Proof.Machine
end

section
/-! SUPPORT and PROOFS. What an instruction and a step can do, said once as a chain of four moves of the machine
(44_access_controller.md R115; 45_execution_engine.md R135 to R155): every invariant is proved per move. -/

namespace Sys2Proof.Machine

open Sys2Proof.Safety

/-! ### The moves -/

/-- One move of an instruction: the requester's pc, registers and run state (never to `Faulted` beside a block that is not), a
fatal condition of a ready block, a served read, a served write. -/
inductive Move (s : State) : State → Prop where
  | requester (pc : Word) (regs : Vector Word 8) (run : RunState)
      (hrun : run = .faulted → s.run = .faulted ∨ ∃ f, s.status = .faulted f) :
      Move s { s with pc := pc, regs := regs, run := run }
  | fatal (hr : s.status = .ready) (f : Fatal) : Move s (s.raiseFatal f)
  | read (hr : s.status = .ready) (a : Word) (hb : inBounds s.cfg a = true) : Move s (s.serveRead a.toNat).1
  | write (hr : s.status = .ready) (a v : Word) (hb : inBounds s.cfg a = true) : Move s (s.serveWrite a.toNat v).1

/-- A chain of moves. -/
abbrev Moves : State → State → Prop := Relation.ReflTransGen Move

section
variable {s t : State} {i : Instr}

theorem move_advancePc (s : State) : Move s s.advancePc := .requester _ _ _ .inl

theorem move_setReg (s : State) (r : RegNum) (v : Word) : Move s (s.setReg r v) := .requester _ _ _ .inl

theorem move_setRun_faulted (s : State) (f : Fatal) : Move (s.raiseFatal f) ((s.raiseFatal f).setRun .faulted) :=
  .requester _ _ _ fun _ => .inr ⟨f, rfl⟩

/-- A request is at most one move. -/
theorem moves_of_runRequest {op : ReqOp} {a v : Word} (h : runRequest op a v s = .next t) : Moves s t := by
  rcases runRequest_cases op a v s with ⟨-, e⟩ | ⟨hr, f, e⟩ | ⟨hr, -, hb, e⟩ | ⟨hr, -, hb, e⟩ <;> cases h.symm.trans e
  · exact .single (.fatal hr f)
  · exact .single (.read hr a hb)
  · exact .single (.write hr a v hb)

/-- A register instruction moves the requester alone. -/
theorem move_of_register (hi : classOf i = .register) (h : exec i s = .next t) : Move s t := by
  obtain ⟨hblock, -, hrun⟩ := exec_register_frame hi h
  rw [hblock]
  refine .requester _ _ _ fun hfaulted => ?_
  rcases hrun with hrun | ⟨hrun, -⟩
  · exact .inl (hrun.symm.trans hfaulted)
  · cases hrun.symm.trans hfaulted

/-- What an instruction can do. -/
theorem moves_of_exec (h : exec i s = .next t) : Moves s t := by
  cases i with
  | read a v | write a v | reservedOp10 a v | reservedOp11 a v => exact moves_of_runRequest h
  | lw f0 f1 imm =>
    refine .head (move_advancePc s) ?_
    rcases execLw_cases f0 f1 imm s with ⟨-, e⟩ | ⟨hr, -, e⟩ | ⟨hr, hb, w, e⟩ <;> cases h.symm.trans e
    · exact .head (.fatal (s := s.advancePc) hr _) (.single (move_setRun_faulted _ _))
    · exact .head (.read (s := s.advancePc) hr _ hb) (.single (move_setReg _ _ _))
  | sw f0 f1 imm =>
    refine .head (move_advancePc s) ?_
    rcases execSw_cases f0 f1 imm s with ⟨-, e⟩ | ⟨hr, -, e⟩ | ⟨hr, hb, e⟩ <;> cases h.symm.trans e
    · exact .head (.fatal (s := s.advancePc) hr _) (.single (move_setRun_faulted _ _))
    · exact .single (.write (s := s.advancePc) hr _ _ hb)
  | add | nand | beq | jalr | halt | noop | otherOpcode => exact .single (move_of_register rfl h)

/-- What a step can do: the two kinds of reset; else the block is ready, and the step takes a waiting request from the stream, if
there is one, and moves. -/
theorem step_next_cases (h : step s = .next t) :
    (s.resetIn = true ∧ t = s.holdReset) ∨ (s.status = .inReset ∧ t = s.releaseReset) ∨
      s.status = .ready ∧ Moves { s with requests := s.requests.tail } t := by
  have htail : s.requests = [] → ({ s with requests := s.requests.tail } : State) = s := fun hq => by
    rw [hq, List.tail_nil, ← hq]
  rcases step_cases s with ⟨hi, e⟩ | ⟨-, hr, e⟩ | ⟨-, -, e⟩ | ⟨-, hr, r, rest, hq, e⟩ | ⟨-, -, -, -, e⟩ |
    ⟨-, -, -, -, e⟩ | ⟨-, hr, hq, -, -, e⟩ | ⟨-, hr, hq, -, hb, w, e⟩ <;> rw [e] at h
  · exact .inl ⟨hi, (Host.Outcome.next.inj h).symm⟩
  · exact .inr (.inl ⟨hr, (Host.Outcome.next.inj h).symm⟩)
  · cases h
  · exact .inr (.inr ⟨hr, by rw [hq]; exact moves_of_exec h⟩)
  · cases h
  · cases h
  · cases h
    rw [htail hq]
    exact .inr (.inr ⟨hr, .head (.fatal hr _) (.single (move_setRun_faulted _ _))⟩)
  · rw [htail hq]
    exact .inr (.inr ⟨hr, .head (.read hr _ hb) (moves_of_exec h)⟩)

/-- What every move keeps, a chain of moves keeps. -/
theorem Moves.keep {P : State → Prop} (hkeep : ∀ u v, Move u v → P u → P v) (h : Moves s t) (hs : P s) : P t := by
  induction h with
  | refl => exact hs
  | tail _ hmove ih => exact hkeep _ _ hmove ih

end

/-! ### The trace of an access -/

/-- `LOCATE` writes only events that end no access: those of the eviction and of the fill (R122, R130). -/
theorem locate_trace (s : State) (a : Nat) :
    ∃ l, (s.locate a).1.trace = s.trace ++ l ∧ ∀ e ∈ l, endsAccess e = false := by
  cases hx : s.lookup (setIndex s.cfg a) (tagOf s.cfg a) with
  | some w => exact ⟨[], by simp [State.locate_hit hx], by simp⟩
  | none =>
    refine ⟨_, by rw [State.locate_miss hx, State.missService, State.fill_trace, State.evict_trace, State.ageAll_trace,
      List.append_assoc], ?_⟩
    intro e he
    rcases List.mem_append.1 he with he | he
    · unfold victimEvents at he
      split_ifs at he <;> simp only [List.mem_singleton, List.not_mem_nil] at he <;> rw [he] <;> rfl
    · rw [List.mem_singleton.1 he]
      rfl

/-- The trace of a served read: events that end no access, then `C2P` (R118, R130). -/
theorem serveRead_trace (s : State) (a : Nat) :
    ∃ l, (s.serveRead a).1.trace = s.trace ++ l ++ [{ kind := .c2p, addr := a, size := 1 }] ∧
      ∀ e ∈ l, endsAccess e = false := by
  obtain ⟨l, htrace, hl⟩ := locate_trace s a
  exact ⟨l, by rw [← htrace]; rfl, hl⟩

/-- The trace of a served write: events that end no access, then `P2C` (R120, R130). -/
theorem serveWrite_trace (s : State) (a : Nat) (v : Word) :
    ∃ l, (s.serveWrite a v).1.trace = s.trace ++ l ++ [{ kind := .p2c, addr := a, size := 1 }] ∧
      ∀ e ∈ l, endsAccess e = false := by
  obtain ⟨l, htrace, hl⟩ := locate_trace s a
  exact ⟨l, by rw [← htrace]; rfl, hl⟩

/-! ### The statements -/

/-- Settles O20: every move but the requester's own takes a ready block. -/
theorem faultedIsAbsorbing : Obligations.FaultedIsAbsorbing := by
  intro s f hf
  refine ⟨fun hi => by simp [step, State.nextAction, hi, hf], fun i t h =>
    (moves_of_exec h).keep (P := fun u => u.status = .faulted f) (fun u v hmove hu => ?_) hf⟩
  cases hmove with
  | requester => exact hu
  | fatal hr | read hr | write hr => cases hu.symm.trans hr

/-- From `s` to `t` the configuration, the encoding and the inputs stay, and the trace only grows at its end (R20, R27). -/
structure ExtendsTrace (s t : State) : Prop where
  cfg : t.cfg = s.cfg
  enc : t.enc = s.enc
  cfgIn : t.cfgIn = s.cfgIn
  resetIn : t.resetIn = s.resetIn
  requests : t.requests = s.requests
  trace : ∃ l, t.trace = s.trace ++ l

theorem ExtendsTrace.trans {s t u : State} (h : ExtendsTrace s t) (h' : ExtendsTrace t u) : ExtendsTrace s u := by
  obtain ⟨l, hl⟩ := h.trace
  obtain ⟨l', hl'⟩ := h'.trace
  exact ⟨h'.cfg.trans h.cfg, h'.enc.trans h.enc, h'.cfgIn.trans h.cfgIn, h'.resetIn.trans h.resetIn,
    h'.requests.trans h.requests, l ++ l', by rw [hl', hl, List.append_assoc]⟩

/-- A move keeps what `ExtendsTrace` says. -/
theorem Move.extendsTrace {s t : State} (h : Move s t) : ExtendsTrace s t := by
  cases h with
  | requester | fatal => exact ⟨rfl, rfl, rfl, rfl, rfl, [], (List.append_nil _).symm⟩
  | read _ a =>
    obtain ⟨l, htrace, -⟩ := serveRead_trace s a.toNat
    exact ⟨by simp, by simp, by simp, by simp, by simp, _, by rw [htrace, List.append_assoc]⟩
  | write _ a v =>
    obtain ⟨l, htrace, -⟩ := serveWrite_trace s a.toNat v
    exact ⟨by simp, by simp, by simp, by simp, by simp, _, by rw [htrace, List.append_assoc]⟩

/-- A chain of moves keeps what `ExtendsTrace` says (R20, R27). -/
theorem Moves.extendsTrace {s t : State} (h : Moves s t) : ExtendsTrace s t :=
  h.keep (P := ExtendsTrace s) (fun _ _ hmove hu => hu.trans hmove.extendsTrace)
    ⟨rfl, rfl, rfl, rfl, rfl, [], (List.append_nil _).symm⟩

/-- Settles O29: an instruction is a chain of moves, each of which keeps the inputs and extends the trace. -/
theorem configurationFixedAndTraceGrows : Obligations.ConfigurationFixedAndTraceGrows := by
  intro i s t h
  obtain ⟨hcfg, henc, hcfgIn, hresetIn, hrequests, l, htrace⟩ := (moves_of_exec h).extendsTrace
  exact ⟨hcfg, henc, hcfgIn, hresetIn, hrequests, l, htrace⟩

end Sys2Proof.Machine
end

section
/-! SUPPORT and PROOFS. Reset and the check of the configuration (70_reset_and_hazards.md R181 to R183; 60_exceptions.md R163). -/

namespace Sys2Proof.Machine

open Sys2Proof.Safety

/-! ### The check of the configuration -/

theorem isPowerOfTwo_iff (n : Nat) : isPowerOfTwo n = true ↔ ∃ k, n = 2 ^ k := by
  rw [isPowerOfTwo, decide_eq_true_iff]
  constructor
  · exact fun h => ⟨_, h.symm⟩
  · rintro ⟨k, rfl⟩
    rw [Nat.log2_two_pow]

/-- The check of R163 finds no fault exactly in a configuration that R7 and R10 accept. -/
theorem configFault_eq_none_iff (c : Geometry) : configFault c = none ↔ LegalGeometry c := by
  constructor
  · intro h
    unfold configFault at h
    split_ifs at h with hsets hways hwpb hpsets hpwpb hpos hmax hblocks hbits
    exact ⟨(isPowerOfTwo_iff _).1 (Bool.eq_true_of_not_eq_false hpsets),
      (isPowerOfTwo_iff _).1 (Bool.eq_true_of_not_eq_false hpwpb), by omega, by omega, by omega, by omega, by omega⟩
  · intro h
    obtain ⟨hsets, hwpb, hways, hpos, hmax, hblocks, hbits⟩ := id h
    have hsets0 := sets_pos h
    have hwpb0 := wpb_pos h
    rw [← isPowerOfTwo_iff] at hsets hwpb
    rw [configFault, if_neg hsets0.ne', if_neg hways.ne', if_neg hwpb0.ne', if_neg (by simp [hsets]),
      if_neg (by simp [hwpb]), if_neg hpos.ne', if_neg hmax.not_gt, if_neg (not_not_intro hblocks), if_neg hbits.not_gt]

/-- The status after release is `Ready` for a legal configuration and `Faulted(ConfigError)` for any other (R163, R181). -/
theorem statusFor_cases (c : Geometry) :
    (LegalGeometry c ∧ statusFor c = .ready) ∨
      (¬LegalGeometry c ∧ ∃ p, statusFor c = .faulted (.configError p)) := by
  rw [← configFault_eq_none_iff, statusFor]
  cases configFault c with
  | none => exact .inl ⟨rfl, rfl⟩
  | some p => exact .inr ⟨by simp, p, rfl⟩

/-! ### The state reset leaves -/

section
variable (s : State) (c : Geometry) (st : Status)

/-- A set of the lines reset creates (R13, R181). -/
theorem State.ways_clearFor {i : Nat} (hi : i < c.sets) :
    (s.clearFor c st).ways i = List.replicate c.ways (freshLine c.wpb) := by
  simp [State.ways, State.clearFor, freshLines, hi]

/-- A line reset creates (R29, R181). -/
theorem State.line_clearFor {i w : Nat} (hi : i < c.sets) (hw : w < c.ways) :
    (s.clearFor c st).line i w = freshLine c.wpb := by
  simp [State.line, State.ways_clearFor s c st hi, hw]

/-- Every register is 0 after reset (R183). -/
theorem State.reg_clearFor (r : RegNum) : (s.clearFor c st).reg r = 0 := by
  simp [State.reg, State.clearFor]

/-- A line reset created is not valid. -/
theorem not_valid_clearFor {i w : Nat} (hi : i < c.sets) (hw : w < c.ways) :
    ¬ ((s.clearFor c st).line i w).valid = true := by
  simp [State.line_clearFor s c st hi hw, freshLine]

/-- The Cache Store reset creates is well-formed: it has no valid line, and no access has aged it (R29 to R34). -/
theorem cacheInv_clearFor : CacheInv (s.clearFor c st) := by
  have hline {i w} := State.line_clearFor s c st (i := i) (w := w)
  have hinvalid {i w} hi hw := not_valid_clearFor s c st (i := i) (w := w) hi hw
  exact {
    rows := List.length_replicate
    ways := fun i hi => by rw [State.ways_clearFor s c st hi]; exact List.length_replicate
    words := fun i hi w hw => by rw [hline hi hw]; exact List.length_replicate
    unique := fun i hi w hw _ _ hv => absurd hv (hinvalid hi hw)
    invalidClean := fun i hi w hw _ => by rw [hline hi hw]; rfl
    validPrefix := fun i hi w hw _ _ hv => absurd hv (hinvalid hi hw)
    inside := fun i hi w hw hv => absurd hv (hinvalid hi hw)
    invalidCounter := fun i hi w hw _ => by rw [hline hi hw]; rfl
    validCounter := fun i hi w hw hv => absurd hv (hinvalid hi hw)
    countersApart := fun i hi w hw _ _ _ _ hv => absurd hv (hinvalid hi hw)
    cleanMatches := fun i hi w hw hv => absurd hv (hinvalid hi hw) }

/-- Reset into a status that is `Ready` for a legal configuration only meets the invariant. -/
theorem inv_clearFor (hm : s.mem.wf = true) (henc : s.enc.Legal) (hst : st = .ready → LegalGeometry c) :
    Inv (s.clearFor c st) :=
  { memory := hm
    legal := hst
    cache := fun _ => cacheInv_clearFor s c st
    faulted := fun h => by cases h
    encoding := henc }

end

/-! ### The statements -/

/-- Settles O22: the step is `State.holdReset`. -/
theorem resetHeldGivesResetValues : Obligations.ResetHeldGivesResetValues := by
  intro s hi
  refine ⟨s.holdReset, by simp [step, State.nextAction, hi], rfl, rfl, rfl, rfl, rfl, rfl, rfl, rfl, rfl, rfl,
    State.reg_clearFor s _ _, rfl, List.length_replicate, fun i hi => ⟨?_, fun w hw => State.line_clearFor s _ _ hi hw⟩⟩
  rw [State.holdReset, State.ways_clearFor s _ _ hi, List.length_replicate]

/-- Settles O23: the step is `State.releaseReset`, whose status is that of the sampled configuration. -/
theorem resetReleaseChecksTheConfiguration : Obligations.ResetReleaseChecksTheConfiguration := by
  intro s hi hr
  refine ⟨s.releaseReset, step_of_inReset hr hi, rfl, rfl, rfl, rfl, rfl, fun hc => ?_, fun hc => ?_, rfl, rfl, rfl,
    State.reg_clearFor s _ _, rfl, fun i hi w hw => State.line_clearFor s _ _ hi hw⟩
  · exact ((statusFor_cases _).resolve_right fun h => h.1 hc).2
  · exact ((statusFor_cases _).resolve_left fun h => hc h.1).2

/-- Settles O24: the releasing step samples `Config.inputs`, which give `Config.geometry`, a legal configuration. -/
theorem resetStateIsAReleasedReset : Obligations.ResetStateIsAReleasedReset := by
  intro s henc hin hi hr hmem hreq
  have hconfig : sampleConfig s.cfgIn = Config.geometry := by rw [hin]; decide
  have hstatus : statusFor Config.geometry = .ready := by decide
  rw [step_of_inReset hr hi, State.releaseReset, hconfig, hstatus, State.clearFor, henc, hin, hi, hmem, hreq]
  rfl

/-- Settles O25: the reset state is one that reset leaves, with a legal configuration. -/
theorem resetMeetsTheInvariant : Obligations.ResetMeetsTheInvariant := by
  have hlegal : LegalGeometry Config.geometry := (configFault_eq_none_iff _).1 (by decide)
  exact inv_clearFor State.reset Config.geometry .ready rfl Laws.RoundTrip.defaultEncoding_legal fun _ => hlegal

end Sys2Proof.Machine
end

section
/-! SUPPORT and PROOFS. What every step keeps: the invariant, the meaning of the counters, the valid lines (10_state.md R19, R30 to
R34; 42_replacement_engine.md R100; 44_access_controller.md R128). -/

namespace Sys2Proof.Machine

open Sys2Proof.Safety

section
variable {s t : State} {a : Nat}

/-! ### The invariant -/

theorem wf_locate_mem (h : s.mem.wf = true) (a : Nat) : (s.locate a).1.mem.wf = true := by
  cases hx : s.lookup (setIndex s.cfg a) (tagOf s.cfg a) with
  | some w => rwa [State.locate_hit hx]
  | none =>
    rw [State.locate_miss hx, missService_mem, State.evict_mem]
    split
    · exact Memory.wf_writeBlock _ _ _ h
    · exact h

/-- The invariant reads neither the pc, the registers nor the request stream, and of the run state only whether it is `Faulted`. -/
theorem inv_with_requester (h : Safety.Inv s) (pc : Word) (regs : Vector Word 8) (run : RunState) (q : List RequestBits)
    (hrun : run = .faulted → s.run = .faulted ∨ ∃ f, s.status = .faulted f) :
    Safety.Inv { s with pc := pc, regs := regs, run := run, requests := q } :=
  { memory := h.memory
    legal := h.legal
    cache := fun hc => cacheOk_congr (h.cache hc) rfl rfl rfl
    faulted := fun hx => (hrun hx).elim h.faulted id
    encoding := h.encoding }

/-- An access that keeps the memory's form, the Cache Store and the rest of the block keeps the invariant. -/
theorem inv_of_access (h : Safety.Inv s) (hmem : t.mem.wf = true) (hcache : CacheInv t) (hcfg : t.cfg = s.cfg)
    (hstatus : t.status = s.status) (hrun : t.run = s.run) (henc : t.enc = s.enc) : Safety.Inv t :=
  { memory := hmem
    legal := by rw [hcfg, hstatus]; exact h.legal
    cache := fun _ => hcache
    faulted := by rw [hrun, hstatus]; exact h.faulted
    encoding := by rw [henc]; exact h.encoding }

/-- Every move keeps the invariant. -/
theorem Move.inv (hmove : Move s t) (h : Safety.Inv s) : Safety.Inv t := by
  cases hmove with
  | requester pc regs run hrun => exact inv_with_requester h pc regs run s.requests hrun
  | fatal hr f => exact ⟨h.memory, nofun, fun hc => cacheOk_congr (h.cache hc) rfl rfl rfl, fun _ => ⟨f, rfl⟩, h.encoding⟩
  | read hr a hb =>
    have hc := h.legal hr
    obtain ⟨hcache, -⟩ := serveRead_spec hc (h.cache hc) ((inBounds_iff hc a).1 hb)
    exact inv_of_access h (wf_locate_mem h.memory _) hcache (by simp) (by simp) (by simp) (by simp)
  | write hr a v hb =>
    have hc := h.legal hr
    obtain ⟨hcache, -⟩ := serveWrite_spec hc (h.cache hc) ((inBounds_iff hc a).1 hb) v
    exact inv_of_access h (wf_locate_mem h.memory _) hcache (by simp) (by simp) (by simp) (by simp)

/-- What reset leaves and taking a request and every move keep, every step keeps: the induction of the invariants. -/
theorem step_keeps {P : State → Prop}
    (hreset : ∀ u c, Safety.Inv u → P (u.clearFor c .inReset) ∧ P (u.clearFor c (statusFor c)))
    (hrequests : ∀ u q, Safety.Inv u → P u → P { u with requests := q })
    (hmove : ∀ u v, Move u v → Safety.Inv u → P u → P v)
    (hinv : Safety.Inv s) (hs : P s) (hstep : step s = .next t) : P t := by
  rcases step_next_cases hstep with ⟨-, rfl⟩ | ⟨-, rfl⟩ | ⟨-, hmoves⟩
  · exact (hreset s _ hinv).1
  · exact (hreset s _ hinv).2
  · refine (hmoves.keep (P := fun u => Safety.Inv u ∧ P u) (fun u v hm hu => ⟨hm.inv hu.1, hmove u v hm hu.1 hu.2⟩) ?_).2
    exact ⟨inv_with_requester hinv s.pc s.regs s.run _ .inl, hrequests s _ hinv hs⟩

/-- Settles O26: reset meets the invariant and every move keeps it. -/
theorem stepKeepsTheInvariant : Obligations.StepKeepsTheInvariant := by
  intro s t hinv hstep
  refine step_keeps (P := Safety.Inv) (fun u c hu => ⟨?_, ?_⟩) (fun u q hu _ => inv_with_requester hu u.pc u.regs u.run q .inl)
    (fun u v hm hu _ => hm.inv hu) hinv hinv hstep
  · exact inv_clearFor u c _ hu.memory hu.encoding nofun
  · refine inv_clearFor u c _ hu.memory hu.encoding fun hready => ?_
    rcases statusFor_cases c with ⟨hc, -⟩ | ⟨-, p, hp⟩
    · exact hc
    · cases hp.symm.trans hready

/-! ### A served access, read or write -/

/-- What the invariants need to know of an access of `a` served from `s` on the way to `t`: the Cache Store stays well-formed, the
touched line holds the block of `a`, the frame, and one event at `a` that ends the access after others that end none. -/
structure Served (s t : State) (a : Nat) : Prop where
  cfg : t.cfg = s.cfg
  cache : CacheInv t
  frame : ServedFrame s t a
  way : touchedWay s a < s.cfg.ways
  valid : (t.line (setIndex s.cfg a) (touchedWay s a)).valid = true
  tag : (t.line (setIndex s.cfg a) (touchedWay s a)).tag = tagOf s.cfg a
  trace : ∃ l e, t.trace = s.trace ++ l ++ [e] ∧ (∀ x ∈ l, endsAccess x = false) ∧ endsAccess e = true ∧ e.addr = a

theorem serveRead_served (hc : LegalGeometry s.cfg) (h : CacheInv s) (ha : a < s.cfg.memWords) :
    Served s (s.serveRead a).1 a := by
  have hL := located hc h ha
  have hline := located_line_setLine hc hL { (s.locate a).1.line (setIndex s.cfg a) (s.locate a).2.1 with rc := 0 }
  have hread := State.line_congr (congrArg State.lines (serveRead_eq s a)) (setIndex s.cfg a) (s.locate a).2.1
  replace hread := hread.trans hline
  obtain ⟨l, htrace, hl⟩ := serveRead_trace s a
  rw [State.locate_way] at hL hread
  exact ⟨by simp, (serveRead_spec hc h ha).1, serveRead_frame hc h ha, hL.way, by rw [hread]; exact hL.valid,
    by rw [hread]; exact hL.tag, l, _, htrace, hl, rfl, rfl⟩

theorem serveWrite_served (hc : LegalGeometry s.cfg) (h : CacheInv s) (ha : a < s.cfg.memWords) (v : Word) :
    Served s (s.serveWrite a v).1 a := by
  have hL := located hc h ha
  have hwrite := State.line_congr (congrArg State.lines (serveWrite_eq (located_way_lt_length hc hL) v)) (setIndex s.cfg a)
    (s.locate a).2.1
  replace hwrite := hwrite.trans (located_line_setLine hc hL _)
  obtain ⟨l, htrace, hl⟩ := serveWrite_trace s a v
  rw [State.locate_way] at hL hwrite
  exact ⟨by simp, (serveWrite_spec hc h ha v).1, serveWrite_frame hc h ha v, hL.way, by rw [hwrite]; exact hL.valid,
    by rw [hwrite]; exact hL.tag, l, _, htrace, hl, rfl, rfl⟩

/-- What a move does to the lines and the trace: nothing, or what a served access does. -/
theorem Move.block_cases (hmove : Move s t) (h : Safety.Inv s) :
    (t.cfg = s.cfg ∧ t.lines = s.lines ∧ t.trace = s.trace) ∨ LegalGeometry s.cfg ∧ ∃ a, Served s t a := by
  cases hmove with
  | requester | fatal => exact .inl ⟨rfl, rfl, rfl⟩
  | read hr a hb =>
    have hc := h.legal hr
    exact .inr ⟨hc, _, serveRead_served hc (h.cache hc) ((inBounds_iff hc a).1 hb)⟩
  | write hr a v hb =>
    have hc := h.legal hr
    exact .inr ⟨hc, _, serveWrite_served hc (h.cache hc) ((inBounds_iff hc a).1 hb) v⟩

/-! ### The counters -/

/-- The meaning of the counters depends on the configuration, the lines and the trace alone. -/
theorem counterMeaning_congr (h : CounterMeaning s) (hc : t.cfg = s.cfg) (hl : t.lines = s.lines)
    (ht : t.trace = s.trace) : CounterMeaning t := by
  have hln := State.line_congr hl
  simpa only [CounterMeaning, staleness, State.lineBase, hc, hln, ht] using h

/-- Events that end no access do not count (R100, R130). -/
theorem sinceTouch_append_of_no_end {b n : Nat} {l : List Event} (hl : ∀ e ∈ l, endsAccess e = false) (es : List Event) :
    sinceTouch b n (l ++ es) = sinceTouch b n es := by
  induction l with
  | nil => rfl
  | cons e l ih =>
    rw [List.forall_mem_cons] at hl
    simp [sinceTouch, touchesBlock, hl.1, ih hl.2]

/-- The last event of an access touches the block of its address. -/
theorem touchesBlock_blockBase {c : Geometry} (hc : LegalGeometry c) {e : Event} (he : endsAccess e = true) :
    touchesBlock (blockBase c (tagOf c e.addr) (setIndex c e.addr)) c.wpb e = true := by
  have hsplit := address_split hc e.addr
  have hoffset := blockOffset_lt hc e.addr
  simp only [touchesBlock, he, Bool.true_and, Bool.and_eq_true, decide_eq_true_eq]
  omega

/-- An event in a block has the tag and the set of that block (R79). -/
theorem fields_of_touchesBlock {c : Geometry} (hc : LegalGeometry c) {g i : Nat} (hi : i < c.sets) {e : Event}
    (h : touchesBlock (blockBase c g i) c.wpb e = true) : tagOf c e.addr = g ∧ setIndex c e.addr = i := by
  simp only [touchesBlock, Bool.and_eq_true, decide_eq_true_eq] at h
  obtain ⟨⟨-, hlow⟩, hhigh⟩ := h
  have hfields := fields_of_block hc (t := g) hi (o := e.addr - blockBase c g i) (by omega)
  rw [Nat.add_sub_cancel' hlow] at hfields
  exact ⟨hfields.1, hfields.2.1⟩

/-- An access keeps the meaning of the counters: it ages every line, adds one ending event to the trace, and sets the counter of the
one line whose block that event touches to 0 (R93, R95, R100). -/
theorem Served.counterMeaning (hc : LegalGeometry s.cfg) (hserved : Served s t a) (h : CounterMeaning s) :
    CounterMeaning t := by
  obtain ⟨hcfg, hcache, hframe, hway, hvalid, htag, l, e, htrace, hl, he, rfl⟩ := hserved
  have hstale (b : Nat) : sinceTouch b s.cfg.wpb t.trace.reverse =
      if touchesBlock b s.cfg.wpb e = true then 0 else 1 + sinceTouch b s.cfg.wpb s.trace.reverse := by
    rw [htrace, List.reverse_append, List.reverse_append, List.reverse_singleton, List.singleton_append, sinceTouch, he,
      sinceTouch_append_of_no_end fun x hx => hl x (List.mem_reverse.1 hx)]
    rfl
  intro i hi w hw hv
  rw [hcfg] at hi hw
  rw [staleness, hcfg, hstale]
  by_cases hsame : i = setIndex s.cfg e.addr ∧ w = touchedWay s e.addr
  · obtain ⟨rfl, rfl⟩ := hsame
    have htouch := touchesBlock_blockBase hc he
    rw [State.lineBase, hcfg, htag, if_pos htouch]
    exact ⟨hframe.touched, e, by simp [htrace], htouch⟩
  · have hline := hframe.others i hi w hw hsame
    have hbase : t.lineBase i w = s.lineBase i w := by rw [State.lineBase, State.lineBase, hline, hcfg]
    have hnot : ¬ touchesBlock (s.lineBase i w) s.cfg.wpb e = true := by
      intro htouch
      obtain ⟨hg, rfl⟩ := fields_of_touchesBlock hc hi htouch
      refine hsame ⟨rfl, hcache.unique _ (hi.trans_eq (by rw [hcfg])) w (by rwa [hcfg]) _ (by rwa [hcfg]) hv hvalid ?_⟩
      rw [htag, hg, hline]
    obtain ⟨hrc, x, hx, hxtouch⟩ := h i hi w hw (by rwa [hline] at hv)
    rw [hbase, if_neg hnot, hline]
    exact ⟨(congrArg (· + 1) hrc).trans (Nat.add_comm _ _), x, by simp [htrace, hx], hxtouch⟩

/-- An access keeps every valid line valid: the touched one is valid after it, and the others keep their flags (R19). -/
theorem Served.valid_of_valid (h : Served s t a) {i w : Nat} (hi : i < s.cfg.sets) (hw : w < s.cfg.ways)
    (hv : (s.line i w).valid = true) : (t.line i w).valid = true := by
  by_cases hsame : i = setIndex s.cfg a ∧ w = touchedWay s a
  · rw [hsame.1, hsame.2]
    exact h.valid
  · rwa [h.frame.others i hi w hw hsame]

end

/-! ### The statements -/

/-- Settles O27: after reset no line is valid, and every move keeps the meaning of the counters. -/
theorem stepKeepsTheCounterMeaning : Obligations.StepKeepsTheCounterMeaning := by
  intro s t hinv hs hstep
  have hfresh (u : State) (c : Geometry) (st : Status) : CounterMeaning (u.clearFor c st) :=
    fun i hi w hw hv => absurd hv (not_valid_clearFor u c st hi hw)
  refine step_keeps (P := fun u => LegalGeometry u.cfg → CounterMeaning u)
    (fun u c _ => ⟨fun _ => hfresh u c _, fun _ => hfresh u c _⟩)
    (fun u q _ hu hc => counterMeaning_congr (hu hc) rfl rfl rfl) (fun u v hm hinv hu => ?_) hinv hs hstep
  rcases hm.block_cases hinv with ⟨hcfg, hl, ht⟩ | ⟨hc, a, hserved⟩
  · rw [hcfg]
    exact fun hc => counterMeaning_congr (hu hc) hcfg hl ht
  · exact fun _ => hserved.counterMeaning hc (hu hc)

/-- Settles O30: no move of a ready block makes a valid line invalid. -/
theorem validLinesStayValid : Obligations.ValidLinesStayValid := by
  intro s t hinv hi hr hstep i hset w hway hv
  rcases step_next_cases hstep with ⟨hi', -⟩ | ⟨hr', -⟩ | ⟨-, hmoves⟩
  · cases hi.symm.trans hi'
  · cases hr.symm.trans hr'
  · have hkeep := hmoves.keep (P := fun u => Safety.Inv u ∧ u.cfg = s.cfg ∧ (u.line i w).valid = true) ?_
      ⟨inv_with_requester hinv s.pc s.regs s.run _ .inl, rfl, hv⟩
    · exact hkeep.2.2
    · rintro u v hm ⟨hu, hcfg, hvalid⟩
      refine ⟨hm.inv hu, hm.extendsTrace.cfg.trans hcfg, ?_⟩
      rcases hm.block_cases hu with ⟨-, hl, -⟩ | ⟨-, a, hserved⟩
      · rwa [State.line_congr hl]
      · exact hserved.valid_of_valid (by rwa [hcfg]) (by rwa [hcfg]) hvalid

end Sys2Proof.Machine
end

section
/-! SUPPORT and PROOFS. Accesses: the write miss, the fatal conditions, and what a read sees of the writes before it
(20_memory.md R53; 43_writeback_controller.md R112; 44_access_controller.md R120, R125; 60_exceptions.md R164, R165, R168). -/

namespace Sys2Proof.Machine

open Sys2Proof.Safety

section
variable {s t : State} {a v : Word}

/-! ### Requests that are not served -/

theorem inBounds_eq_false_of_toInt (h : a.toInt < 0 ∨ (s.cfg.memWords : Int) ≤ a.toInt) : inBounds s.cfg a = false := by
  rw [inBounds, Bool.and_eq_false_iff, decide_eq_false_iff_not, decide_eq_false_iff_not]
  omega

/-- A READ or WRITE out of bounds takes the fatal condition `OutOfBounds` (R164). -/
theorem runRequest_outOfBounds (hr : s.status = .ready) {op : ReqOp} (hop : op = opRead ∨ op = opWrite)
    (hb : inBounds s.cfg a = false) (v : Word) : runRequest op a v s = .next (s.raiseFatal (.outOfBounds a)) := by
  rw [runRequest, State.access_outOfBounds hr hop hb]
  rfl

/-- A reserved operation code takes the fatal condition `InvalidMode` (R165, R169). -/
theorem runRequest_reserved (hr : s.status = .ready) {op : ReqOp} (hop : op ≠ opRead ∧ op ≠ opWrite) (a v : Word) :
    runRequest op a v s = .next (s.raiseFatal (.invalidMode op)) := by
  rw [runRequest, State.access, if_neg (not_not_intro hr), if_pos hop]
  rfl

/-- A block that is not ready takes no request (R168). -/
theorem runRequest_notReady (hr : s.status ≠ .ready) (op : ReqOp) (a v : Word) :
    runRequest op a v s = .fault .blockNotReady := by
  rw [runRequest, State.access_notReady hr]

/-! ### Served READs and WRITEs one after another -/

/-- A ready block under the configuration `c` with a well-formed Cache Store: it serves every access in bounds. -/
structure Serving (c : Geometry) (s : State) : Prop where
  cfg : s.cfg = c
  ready : s.status = .ready
  cache : CacheInv s

/-- A READ in bounds answers `VIEW`, changes it nowhere, and leaves a block that serves (R53). -/
theorem Serving.exec_read {c : Geometry} (hc : LegalGeometry c) (h : Serving c s) (hb : inBounds c a = true) (d : Word) :
    ∃ t x, exec (.read a d) s = .next t ∧ Serving c t ∧ t.resp = some (.readOk x (s.view a.toNat)) ∧
      ∀ b, t.view b = s.view b := by
  obtain ⟨rfl, hr, hcache⟩ := h
  obtain ⟨hcache', hview, hresp, -⟩ := serveRead_spec hc hcache ((inBounds_iff hc a).1 hb)
  exact ⟨_, _, exec_read_served hr hb d, ⟨by simp, by simp [hr], hcache'⟩, congrArg some hresp, hview⟩

/-- A WRITE in bounds sets `VIEW` at its address alone, and leaves a block that serves (R53). -/
theorem Serving.exec_write {c : Geometry} (hc : LegalGeometry c) (h : Serving c s) (hb : inBounds c a = true) (v : Word) :
    ∃ t x, exec (.write a v) s = .next t ∧ Serving c t ∧ t.resp = some (.writeOk x) ∧
      ∀ b, t.view b = if b = a.toNat then v else s.view b := by
  obtain ⟨rfl, hr, hcache⟩ := h
  obtain ⟨hcache', hview, hresp, -⟩ := serveWrite_spec hc hcache ((inBounds_iff hc a).1 hb) v
  exact ⟨_, _, exec_write_served hr hb v, ⟨by simp, by simp [hr], hcache'⟩, congrArg some hresp, hview⟩

theorem execAll_cons {i : Instr} (h : exec i s = .next t) (is : List Instr) : execAll (i :: is) s = execAll is t := by
  rw [execAll, h]

/-- A word in `VIEW` is read after any in-bounds reads, and writes to other addresses (R125). -/
theorem execAll_read_back {c : Geometry} (hc : LegalGeometry c) (ha : inBounds c a = true) (d : Word) {between : List Instr}
    (hbetween : ∀ i ∈ between, ∃ b x, inBounds c b = true ∧ (i = .read b x ∨ (i = .write b x ∧ b ≠ a)))
    (hs : Serving c s) (hview : s.view a.toNat = v) :
    ∃ t h, execAll (between ++ [.read a d]) s = .next t ∧ t.resp = some (.readOk h v) := by
  induction between generalizing s with
  | nil =>
    obtain ⟨t, x, hexec, -, hresp, -⟩ := hs.exec_read hc ha d
    exact ⟨t, x, execAll_cons hexec [], by rw [hresp, hview]⟩
  | cons i is ih =>
    obtain ⟨⟨b, x, hb, hi⟩, his⟩ := List.forall_mem_cons.1 hbetween
    obtain ⟨u, hexec, hserving, hkept⟩ : ∃ u, exec i s = .next u ∧ Serving c u ∧ u.view a.toNat = v := by
      rcases hi with rfl | ⟨rfl, hne⟩
      · obtain ⟨u, -, hexec, hserving, -, hu⟩ := hs.exec_read hc hb x
        exact ⟨u, hexec, hserving, (hu _).trans hview⟩
      · obtain ⟨u, -, hexec, hserving, -, hu⟩ := hs.exec_write hc hb x
        have hne' : a.toNat ≠ b.toNat := fun heq => hne (BitVec.eq_of_toNat_eq heq.symm)
        exact ⟨u, hexec, hserving, (hu _).trans ((if_neg hne').trans hview)⟩
    rw [List.cons_append, execAll_cons hexec]
    exact ih his hserving hkept

/-! ### The write miss -/

/-- The line a write miss leaves: the filled one with the word written, dirty (R120). -/
theorem serveWrite_line_of_miss {a n : Nat} (hc : LegalGeometry s.cfg) (h : CacheOk n s) (ha : a < s.cfg.memWords)
    (hx : s.lookup (setIndex s.cfg a) (tagOf s.cfg a) = none) (v : Word) :
    (s.serveWrite a v).1.line (setIndex s.cfg a) (s.selectVictim (setIndex s.cfg a)) =
      { valid := true, dirty := true, tag := tagOf s.cfg a, rc := 0
        data := (s.mem.readBlock (blockBaseOf s.cfg a) s.cfg.wpb).set (blockOffset s.cfg a) v } := by
  have hL := located hc h ha
  have hway : (s.locate a).2.1 = s.selectVictim (setIndex s.cfg a) := by
    rw [State.locate_miss hx, State.selectVictim_ageAll]
  have hline := located_line_setLine hc hL
  rw [serveWrite_eq (located_way_lt_length hc hL), hway]
  rw [hway] at hline
  refine (hline _).trans ?_
  rw [locate_miss_line hc h hx]

end

/-! ### The statements -/

/-- Settles O16: the miss service changes `mem` by the eviction, and the write arm the filled line and the trace. -/
theorem writeMissFetchesThenWrites : Obligations.WriteMissFetchesThenWrites := by
  intro s a v hr hc h hb hx
  have ha := (inBounds_iff hc a).1 hb
  have hmiss : (s.locate a.toNat).2.2 = false := by rw [State.locate_miss hx]
  have hway : touchedWay s a.toNat = s.selectVictim (setIndex s.cfg a.toNat) := by rw [touchedWay, hx]; rfl
  obtain ⟨-, -, -, hothers⟩ := serveWrite_frame hc h ha v
  refine ⟨_, exec_write_served hr hb v, ?_, fun i' hi' w' hw' => ?_⟩
  · rw [serveWrite_eq (located_way_lt_length hc (located hc h ha)), hmiss, List.append_cons _ _ [_], locate_miss_eq hc h hx]
    rfl
  · rw [hway] at hothers
    split_ifs with hvictim
    · obtain ⟨rfl, rfl⟩ := hvictim
      exact serveWrite_line_of_miss hc h ha hx v
    · exact hothers i' hi' w' hw' hvictim

/-- Settles O17: both requests fail the bounds check. -/
theorem outOfBoundsRequestTakesTheFault : Obligations.OutOfBoundsRequestTakesTheFault := by
  intro s a v hr ha
  have hb := inBounds_eq_false_of_toInt ha
  exact ⟨runRequest_outOfBounds hr (.inl rfl) hb v, runRequest_outOfBounds hr (.inr rfl) hb v⟩

/-- Settles O18: both codes fail the check of the operation code, which comes before the bounds. -/
theorem reservedOpTakesTheFault : Obligations.ReservedOpTakesTheFault := by
  intro s a v hr
  exact ⟨runRequest_reserved hr (by decide) a v, runRequest_reserved hr (by decide) a v⟩

/-- Settles O19: the four requests are `ACCESS`, and `lw` and `sw` issue one. -/
theorem notReadyTakesNoRequest : Obligations.NotReadyTakesNoRequest := by
  intro s a v f0 f1 imm hr
  have hrequest (op : ReqOp) := runRequest_notReady hr op a v
  refine ⟨hrequest _, hrequest _, hrequest _, hrequest _, ?_, ?_⟩
  · rcases execLw_cases f0 f1 imm s with ⟨-, e⟩ | ⟨hr', -⟩ | ⟨hr', -⟩
    · exact e
    · exact absurd hr' hr
    · exact absurd hr' hr
  · rcases execSw_cases f0 f1 imm s with ⟨-, e⟩ | ⟨hr', -⟩ | ⟨hr', -⟩
    · exact e
    · exact absurd hr' hr
    · exact absurd hr' hr

/-- Settles O31: what a served read does. -/
theorem readReturnsViewAndKeepsIt : Obligations.ReadReturnsViewAndKeepsIt := by
  intro s a d hr hc h hb
  obtain ⟨t, x, hexec, -, hresp, hview⟩ := Serving.exec_read hc ⟨rfl, hr, h⟩ hb d
  exact ⟨t, x, hexec, hresp, fun b _ => hview b⟩

/-- Settles O32: what a served write does. -/
theorem writeSetsViewAtItsAddressOnly : Obligations.WriteSetsViewAtItsAddressOnly := by
  intro s a v hr hc h hb
  obtain ⟨t, x, hexec, -, hresp, hview⟩ := Serving.exec_write hc ⟨rfl, hr, h⟩ hb v
  exact ⟨t, x, hexec, hresp, (hview _).trans (if_pos rfl), fun b _ hne => (hview b).trans (if_neg hne)⟩

/-- Settles O34: the write puts the word in `VIEW`, and what comes between leaves it there. -/
theorem writtenWordIsReadBack : Obligations.WrittenWordIsReadBack := by
  intro s a v d between hr hc h ha hbetween
  obtain ⟨t, -, hexec, hserving, -, hview⟩ := Serving.exec_write hc ⟨rfl, hr, h⟩ ha v
  rw [List.cons_append, execAll_cons hexec]
  exact execAll_read_back hc ha d hbetween hserving ((hview _).trans (if_pos rfl))

/-- Settles O35: `mem` changes by the eviction of a miss alone, and the eviction by the write-back of a valid dirty victim alone. -/
theorem memChangesOnlyByWriteback : Obligations.MemChangesOnlyByWriteback := by
  intro s t a v i hc h hi hexec hmem
  have hset := setIndex_lt hc a.toNat
  have hlen := h.ways _ hset
  have hlocate : t.mem = (s.locate a.toNat).1.mem := by
    rcases exec_request_next (hi.imp_right .inl) hexec with ⟨-, -, rfl⟩ | ⟨-, -, rfl⟩ | ⟨-, f, rfl⟩
    · rfl
    · rfl
    · exact absurd rfl hmem
  have hmiss : s.resident a.toNat = false := by
    rw [← Bool.not_eq_true]
    exact fun hres => hmem (by rw [hlocate, State.locate_mem hc h, if_pos hres])
  have hevict : t.mem = (s.evict (setIndex s.cfg a.toNat) (s.selectVictim (setIndex s.cfg a.toNat))).mem := by
    rw [hlocate, State.locate_mem hc h, if_neg (by simp [hmiss])]
  obtain ⟨hvalid, hdirty⟩ : (s.line (setIndex s.cfg a.toNat) (s.selectVictim (setIndex s.cfg a.toNat))).valid = true ∧
      (s.line (setIndex s.cfg a.toNat) (s.selectVictim (setIndex s.cfg a.toNat))).dirty = true := by
    by_contra hno
    exact hmem (by rw [hevict, State.evict_mem, if_neg hno])
  refine ⟨hmiss, fun w hw => ?_, hdirty, ?_⟩
  · by_contra hw'
    obtain ⟨hinvalid, -⟩ := State.selectVictim_of_invalid ⟨w, hw.trans_eq hlen.symm, Bool.eq_false_of_not_eq_true hw'⟩
    exact Bool.false_ne_true (hinvalid.symm.trans hvalid)
  · rw [hlocate]
    exact locate_miss_readWord hc h (by simpa [State.resident] using hmiss)

end Sys2Proof.Machine
end

section
/-! SUPPORT and PROOFS. The requester: the step, the results and the frame of its instructions, and the accesses an iteration serves
(45_execution_engine.md R135 to R155). -/

namespace Sys2Proof.Machine

open Sys2Proof.Safety

/-! ### The accesses of an instruction -/

section
variable {s t : State} {i : Instr}

/-- A word instruction that does not end `Faulted` serves the one access of `lw` and `sw`, or none (R138). -/
theorem served_of_exec_word (hc : LegalGeometry s.cfg) (hcache : CacheInv s) (h : exec i s = .next t)
    (hrun : t.run ≠ .faulted) (hi : classOf i ≠ .request) :
    served t = served s + (classOf i).dataAccesses := by
  cases hclass : classOf i with
  | request => exact absurd hclass hi
  | register =>
    rw [served, (exec_register_frame hclass h).block]
    rfl
  | loadStore =>
    obtain ⟨f0, f1, imm, hls⟩ := loadStore_of_classOf hclass
    rcases exec_loadStore_next hls h with ⟨-, hb, w, rfl⟩ | ⟨-, hb, rfl⟩ | ⟨-, rfl⟩
    · obtain ⟨-, -, -, hserved⟩ := serveRead_spec hc hcache ((inBounds_iff hc _).1 hb)
      exact hserved
    · obtain ⟨-, -, -, hserved⟩ := serveWrite_spec hc hcache ((inBounds_iff hc _).1 hb) (s.reg f0)
      exact hserved
    · exact absurd rfl hrun

end

/-! ### The statements -/

/-- Settles O21: by what the step does next. -/
theorem stoppedRequesterHasNoStep : Obligations.StoppedRequesterHasNoStep := by
  intro s hi
  refine ⟨fun hr hq hn => ?_, fun hr hq hn => ?_, fun hinv _ hn => ?_⟩
  · simp [step, State.nextAction, State.nextWhenReady, State.nextOfRequester, hi, hr, hq, hn]
  · simp [step, State.nextAction, State.nextWhenReady, State.nextOfRequester, hi, hr, hq, hn]
  · obtain ⟨f, hf⟩ := hinv.faulted hn
    exact (faultedIsAbsorbing s f hf).1 hi

/-- Settles O38: a waiting request comes first; else the fetch is the READ of the pc. -/
theorem stepRunsTheDecodedInstruction : Obligations.StepRunsTheDecodedInstruction := by
  intro s hi hr
  refine ⟨fun r rest hq => ?_, fun hq hn t h w hread => step_of_access_readOk hi hr hq hn hread⟩
  simp [step, State.nextAction, State.nextWhenReady, hi, hr, hq, decodeWith]

/-- Settles O40: the fetch takes the fatal condition, then the run state becomes `Faulted`. -/
theorem fetchOutOfBoundsFaults : Obligations.FetchOutOfBoundsFaults := by
  intro s hi hr hq hn hb
  exact step_fetch_outOfBounds hi hr hq hn hb

/-- Settles O37: the fetch serves one access, and the instruction its own. -/
theorem accessesPerInstruction : Obligations.AccessesPerInstruction := by
  intro s t hinv hi hr hq hn hstep hrun
  have hc := hinv.legal hr
  have hcache := hinv.cache hc
  cases hb : inBounds s.cfg s.pc with
  | false =>
    cases (step_fetch_outOfBounds hi hr hq hn hb).symm.trans hstep
    exact absurd rfl hrun
  | true =>
    obtain ⟨hcache', -, -, hserved⟩ := serveRead_spec hc hcache ((inBounds_iff hc _).1 hb)
    rw [step_fetch hi hr hq hn hc hcache hb] at hstep
    have hword := classOf_decodeWordWith s.enc (s.view s.pc.toNat)
    rw [served_of_exec_word (by simpa using hc) hcache' hstep hrun hword, hserved, Nat.add_assoc]
    cases decodeWordWith s.enc (s.view s.pc.toNat) <;> rfl

/-- Settles O43: the sum is written to the register the immediate names. -/
theorem addWritesTheSum : Obligations.AddWritesTheSum := by
  intro s f0 f1 d imm hd
  have hreg (r : RegNum) := State.reg_setReg s.advancePc d r (s.reg f0 + s.reg f1)
  refine ⟨_, writeDestination_of hd _ _, rfl, ?_, fun r hne => (hreg r).trans (if_neg hne)⟩
  exact (congrArg BitVec.toNat ((hreg d).trans (if_pos rfl))).trans (BitVec.toNat_add _ _)

/-- Settles O45: such a field names no register. -/
theorem destinationAboveSevenIsRefused : Obligations.DestinationAboveSevenIsRefused := by
  intro s f0 f1 imm himm
  have hrefused (v : Word) : writeDestination imm v s.advancePc = .refused (.destinationNamesNoRegister imm) := by
    rw [writeDestination, destination_none himm]
  exact ⟨hrefused _, hrefused _⟩

/-- Settles O48: the data access takes the fatal condition on the advanced pc. -/
theorem dataAccessOutOfBoundsFaults : Obligations.DataAccessOutOfBoundsFaults := by
  intro s f0 f1 imm hr hb
  constructor
  · rcases execLw_cases f0 f1 imm s with ⟨hr', -⟩ | ⟨-, -, e⟩ | ⟨-, hb', -⟩
    · exact absurd hr hr'
    · exact e
    · cases hb.symm.trans hb'
  · rcases execSw_cases f0 f1 imm s with ⟨hr', -⟩ | ⟨-, -, e⟩ | ⟨-, hb', -⟩
    · exact absurd hr hr'
    · exact e
    · cases hb.symm.trans hb'

/-- Settles O49: by whether the registers are equal; the target is the advanced pc plus the offset as integers modulo `2^32`. -/
theorem beqBranchesWhenEqual : Obligations.BeqBranchesWhenEqual := by
  intro s f0 f1 imm
  have htarget : branchTarget s.advancePc imm = BitVec.ofInt 32 (s.pc.toInt + 1 + signedOffset imm) := by
    refine (add_offsetOf (s.pc + 1) imm).trans ?_
    rw [BitVec.ofInt_add, BitVec.ofInt_add, BitVec.ofInt_add, BitVec.ofInt_toInt, BitVec.ofInt_toInt]
    rfl
  by_cases heq : s.reg f0 = s.reg f1
  · rw [if_pos heq, ← htarget]
    exact if_pos heq
  · rw [if_neg heq]
    exact if_neg heq

/-- Settles O51: `halt` is the change of the run state. -/
theorem haltChangesTheRunStateOnly : Obligations.HaltChangesTheRunStateOnly := by
  intro s f0 f1 imm
  rfl

end Sys2Proof.Machine
end

section
/-! SUPPORT and PROOFS. A program cannot see the cache: two machines that look the same to it take steps that look the same,
whatever their geometries (44_access_controller.md R129). -/

namespace Sys2Proof.Machine

open Sys2Proof.Safety

/-- A request decodes to the instruction that runs it (R58, R59). -/
theorem exec_decodeRequest (r : RequestBits) (s : State) :
    exec (decodeRequest r) s = runRequest (requestOp r) (requestAddr r) (requestData r) s := by
  rcases reqOp_cases (requestOp r) with h | h | h | h <;> rw [h, decodeRequest, h] <;> rfl

/-- The states look the same to a program, and so do their responses. -/
def Alike (s t : State) : Prop := SameView s t ∧ s.resp.bind responseData = t.resp.bind responseData

section
variable {s t : State}

theorem inBounds_eq_of_sameView (h : SameView s t) (a : Word) : inBounds s.cfg a = inBounds t.cfg a := by
  rw [inBounds, inBounds, h.capacity]

theorem reg_eq_of_sameView (h : SameView s t) (r : RegNum) : s.reg r = t.reg r := by
  rw [State.reg, State.reg, h.regs]

/-! ### Moves that both machines make -/

theorem alike_setPc (h : Alike s t) (v : Word) : Alike (s.setPc v) (t.setPc v) := by
  obtain ⟨hview, hresp⟩ := h
  exact ⟨⟨hview.capacity, hview.enc, hview.status, hview.requests, rfl, hview.regs, hview.run, hview.view⟩, hresp⟩

theorem alike_advancePc (h : Alike s t) : Alike s.advancePc t.advancePc := by
  rw [State.advancePc, State.advancePc, h.1.pc]
  exact alike_setPc h _

theorem alike_setReg (h : Alike s t) (r : RegNum) (v : Word) : Alike (s.setReg r v) (t.setReg r v) := by
  obtain ⟨hview, hresp⟩ := h
  exact ⟨⟨hview.capacity, hview.enc, hview.status, hview.requests, hview.pc, by simp [hview.regs], hview.run, hview.view⟩,
    hresp⟩

theorem alike_setRun (h : Alike s t) (r : RunState) : Alike (s.setRun r) (t.setRun r) := by
  obtain ⟨hview, hresp⟩ := h
  exact ⟨⟨hview.capacity, hview.enc, hview.status, hview.requests, hview.pc, hview.regs, rfl, hview.view⟩, hresp⟩

/-- Two blocks that take the same fatal condition still look the same. -/
theorem alike_raiseFatal (h : SameView s t) (f : Fatal) : Alike (s.raiseFatal f) (t.raiseFatal f) :=
  ⟨⟨h.capacity, h.enc, rfl, h.requests, h.pc, h.regs, h.run, h.view⟩, rfl⟩

section
variable (hs : Safety.Inv s) (ht : Safety.Inv t) (h : SameView s t) (hr : s.status = .ready) {a : Word}
  (hb : inBounds s.cfg a = true)
include hs ht h hr hb

/-- Reads of the same address answer the same word and keep both views (R53). -/
theorem alike_serveRead : Alike (s.serveRead a.toNat).1 (t.serveRead a.toNat).1 := by
  have hcs := hs.legal hr
  have hct := ht.legal (h.status.symm.trans hr)
  have ha := (inBounds_iff hcs a).1 hb
  obtain ⟨-, hviews, hresps, -⟩ := serveRead_spec hcs (hs.cache hcs) ha
  obtain ⟨-, hviewt, hrespt, -⟩ := serveRead_spec hct (ht.cache hct) (ha.trans_eq h.capacity)
  refine ⟨⟨by simp [h.capacity], by simp [h.enc], by simp [h.status], by simp [h.requests], by simp [h.pc], by simp [h.regs],
    by simp [h.run], fun b hb => ?_⟩, ?_⟩
  · rw [hviews, hviewt]
    exact h.view b (hb.trans_eq (by simp))
  · show responseData (s.serveRead a.toNat).2 = responseData (t.serveRead a.toNat).2
    rw [hresps, hrespt, h.view _ ha]
    rfl

/-- Writes of the same word to the same address change both views alike (R53). -/
theorem alike_serveWrite (v : Word) : Alike (s.serveWrite a.toNat v).1 (t.serveWrite a.toNat v).1 := by
  have hcs := hs.legal hr
  have hct := ht.legal (h.status.symm.trans hr)
  have ha := (inBounds_iff hcs a).1 hb
  obtain ⟨-, hviews, -, -⟩ := serveWrite_spec hcs (hs.cache hcs) ha v
  obtain ⟨-, hviewt, -, -⟩ := serveWrite_spec hct (ht.cache hct) (ha.trans_eq h.capacity) v
  refine ⟨⟨by simp [h.capacity], by simp [h.enc], by simp [h.status], by simp [h.requests], by simp [h.pc], by simp [h.regs],
    by simp [h.run], fun b hb => ?_⟩, rfl⟩
  rw [hviews, hviewt, h.view b (hb.trans_eq (by simp))]

end

/-! ### Instructions on machines that look the same -/

/-- Requests: the checks of `ACCESS` read the status, the operation code and the bounds, on which the machines agree. -/
theorem sameOutcome_runRequest (hs : Safety.Inv s) (ht : Safety.Inv t) (h : SameView s t) (op : ReqOp) (a v : Word) :
    SameOutcome (runRequest op a v s) (runRequest op a v t) := by
  by_cases hr : s.status = .ready
  · have hr' := h.status.symm.trans hr
    by_cases hop : op = opRead ∨ op = opWrite
    · cases hb : inBounds s.cfg a with
      | false =>
        rw [runRequest_outOfBounds hr hop hb, runRequest_outOfBounds hr' hop ((inBounds_eq_of_sameView h a).symm.trans hb)]
        exact alike_raiseFatal h _
      | true =>
        have hb' := (inBounds_eq_of_sameView h a).symm.trans hb
        rcases hop with rfl | rfl
        · rw [runRequest, runRequest, State.access_read hr hb, State.access_read hr' hb']
          exact alike_serveRead hs ht h hr hb
        · rw [runRequest, runRequest, State.access_write hr hb, State.access_write hr' hb']
          exact alike_serveWrite hs ht h hr hb v
    · rw [runRequest_reserved hr (not_or.1 hop), runRequest_reserved hr' (not_or.1 hop)]
      exact alike_raiseFatal h _
  · rw [runRequest_notReady hr, runRequest_notReady fun hr' => hr (h.status.trans hr')]
    rfl

/-- A result goes to the same register in both machines, or to none (R141, R142, R154). -/
theorem sameOutcome_writeDestination (h : Alike s t) (imm : Imm) (v : Word) :
    SameOutcome (writeDestination imm v s) (writeDestination imm v t) := by
  unfold writeDestination
  cases destination imm with
  | none => rfl
  | some d => exact alike_setReg h d v

/-- Register instructions read the pc and the registers alone. -/
theorem sameOutcome_register (h : Alike s t) {i : Instr} (hi : classOf i = .register) :
    SameOutcome (exec i s) (exec i t) := by
  have hpc := h.1.pc
  have hreg := reg_eq_of_sameView h.1
  cases i with
  | read | write | reservedOp10 | reservedOp11 | lw | sw => cases hi
  | add f0 f1 imm | nand f0 f1 imm =>
    simp only [exec, execAdd, execNand, regA, regB, hreg]
    exact sameOutcome_writeDestination (alike_advancePc h) imm _
  | beq f0 f1 imm =>
    rw [beqBranchesWhenEqual s, beqBranchesWhenEqual t, hreg, hreg, hpc]
    exact alike_setPc h _
  | jalr f0 f1 imm =>
    by_cases heq : f0 = f1
    · rw [exec_jalr_of_eq heq, exec_jalr_of_eq heq]
      exact alike_advancePc h
    · rw [exec_jalr_of_ne heq, exec_jalr_of_ne heq, hreg, hpc]
      exact alike_setPc (alike_setReg (alike_advancePc h) f0 _) _
  | halt f0 f1 imm => exact alike_setRun h .halted
  | noop f0 f1 imm | otherOpcode op f0 f1 imm => exact alike_advancePc h

section
variable {f0 f1 : RegNum} {imm : Imm}

theorem dataAddress_eq_of_sameView (h : SameView s t) (f1 : RegNum) (imm : Imm) :
    dataAddress s f1 imm = dataAddress t f1 imm := by
  rw [dataAddress, dataAddress, regB, regB, reg_eq_of_sameView h]

/-- Two data accesses in bounds look the same (R143, R144). -/
theorem sameOutcome_loadStore_served (hs : Safety.Inv s) (ht : Safety.Inv t) (h : Alike s t) (hr : s.status = .ready)
    (hb : inBounds s.cfg (dataAddress s f1 imm) = true) :
    SameOutcome (exec (.lw f0 f1 imm) s) (exec (.lw f0 f1 imm) t) ∧
      SameOutcome (exec (.sw f0 f1 imm) s) (exec (.sw f0 f1 imm) t) := by
  have haddr := dataAddress_eq_of_sameView h.1 f1 imm
  have hr' := h.1.status.symm.trans hr
  have hb' : inBounds t.cfg (dataAddress t f1 imm) = true := by rw [← haddr, ← inBounds_eq_of_sameView h.1, hb]
  have hcs := hs.legal hr
  have hct := ht.legal hr'
  have hs' := (move_advancePc s).inv hs
  have ht' := (move_advancePc t).inv ht
  have hadvance := alike_advancePc h
  constructor
  · rw [exec_lw_served hr hcs (hs.cache hcs) hb, exec_lw_served hr' hct (ht.cache hct) hb', ← haddr,
      h.1.view _ ((inBounds_iff hcs _).1 hb)]
    exact alike_setReg (alike_serveRead hs' ht' hadvance.1 hr hb) f0 _
  · rw [exec_sw_served hr hb, exec_sw_served hr' hb', ← haddr, reg_eq_of_sameView h.1]
    exact alike_serveWrite hs' ht' hadvance.1 hr hb _

/-- Two data accesses out of bounds look the same (R153). -/
theorem sameOutcome_loadStore_outOfBounds (h : Alike s t) (hr : s.status = .ready)
    (hb : inBounds s.cfg (dataAddress s f1 imm) = false) :
    SameOutcome (exec (.lw f0 f1 imm) s) (exec (.lw f0 f1 imm) t) ∧
      SameOutcome (exec (.sw f0 f1 imm) s) (exec (.sw f0 f1 imm) t) := by
  have haddr := dataAddress_eq_of_sameView h.1 f1 imm
  have hb' : inBounds t.cfg (dataAddress t f1 imm) = false := by rw [← haddr, ← inBounds_eq_of_sameView h.1, hb]
  obtain ⟨hlw, hsw⟩ := dataAccessOutOfBoundsFaults s f0 f1 imm hr hb
  obtain ⟨hlw', hsw'⟩ := dataAccessOutOfBoundsFaults t f0 f1 imm (h.1.status.symm.trans hr) hb'
  rw [← haddr] at hlw' hsw'
  have hfatal := alike_setRun (alike_raiseFatal (alike_advancePc h).1 (.outOfBounds (dataAddress s f1 imm))) .faulted
  rw [hlw, hlw', hsw, hsw']
  exact ⟨hfatal, hfatal⟩

/-- Two blocks that are not ready take no data access (R168). -/
theorem sameOutcome_loadStore_notReady (h : SameView s t) (hr : s.status ≠ .ready) :
    SameOutcome (exec (.lw f0 f1 imm) s) (exec (.lw f0 f1 imm) t) ∧
      SameOutcome (exec (.sw f0 f1 imm) s) (exec (.sw f0 f1 imm) t) := by
  obtain ⟨-, -, -, -, hlw, hsw⟩ := notReadyTakesNoRequest s 0 0 f0 f1 imm hr
  obtain ⟨-, -, -, -, hlw', hsw'⟩ := notReadyTakesNoRequest t 0 0 f0 f1 imm fun hr' => hr (h.status.trans hr')
  rw [hlw, hlw', hsw, hsw']
  exact ⟨rfl, rfl⟩

end

/-- `lw` and `sw` read of the cache only what `VIEW` shows (R143, R144). -/
theorem sameOutcome_loadStore (hs : Safety.Inv s) (ht : Safety.Inv t) (h : Alike s t) {i : Instr}
    (hi : classOf i = .loadStore) : SameOutcome (exec i s) (exec i t) := by
  obtain ⟨f0, f1, imm, hls⟩ := loadStore_of_classOf hi
  obtain ⟨hlw, hsw⟩ : SameOutcome (exec (.lw f0 f1 imm) s) (exec (.lw f0 f1 imm) t) ∧
      SameOutcome (exec (.sw f0 f1 imm) s) (exec (.sw f0 f1 imm) t) := by
    by_cases hr : s.status = .ready
    · cases hb : inBounds s.cfg (dataAddress s f1 imm) with
      | true => exact sameOutcome_loadStore_served hs ht h hr hb
      | false => exact sameOutcome_loadStore_outOfBounds h hr hb
    · exact sameOutcome_loadStore_notReady h.1 hr
  rcases hls with rfl | rfl
  · exact hlw
  · exact hsw

/-- An iteration of two running requesters: the fetches return the same word and leave states that look the same (R54, R136). -/
theorem sameOutcome_fetch (hs : Safety.Inv s) (ht : Safety.Inv t) (hi : s.resetIn = false) (hi' : t.resetIn = false)
    (h : SameView s t) (hr : s.status = .ready) (hq : s.requests = []) (hn : s.run = .running) :
    SameOutcome (step s) (step t) := by
  have hr' := h.status.symm.trans hr
  have hq' := h.requests.symm.trans hq
  have hn' := h.run.symm.trans hn
  have hbounds : inBounds s.cfg s.pc = inBounds t.cfg t.pc := by rw [inBounds_eq_of_sameView h, h.pc]
  cases hb : inBounds s.cfg s.pc with
  | false =>
    rw [step_fetch_outOfBounds hi hr hq hn hb, step_fetch_outOfBounds hi' hr' hq' hn' (hbounds.symm.trans hb), h.pc]
    exact alike_setRun (alike_raiseFatal h _) .faulted
  | true =>
    have hcs := hs.legal hr
    have hct := ht.legal hr'
    have hword := h.view _ ((inBounds_iff hcs _).1 hb)
    have hfetch := alike_serveRead hs ht h hr hb
    have hs' := (Move.read hr s.pc hb).inv hs
    have ht' := (Move.read hr' t.pc (hbounds.symm.trans hb)).inv ht
    rw [step_fetch hi hr hq hn hcs (hs.cache hcs) hb,
      step_fetch hi' hr' hq' hn' hct (ht.cache hct) (hbounds.symm.trans hb), ← h.enc, ← h.pc, ← hword]
    rw [← h.pc] at ht'
    cases hclass : classOf (decodeWordWith s.enc (s.view s.pc.toNat)) with
    | request => exact absurd hclass (classOf_decodeWordWith _ _)
    | loadStore => exact sameOutcome_loadStore hs' ht' hfetch hclass
    | register => exact sameOutcome_register hfetch hclass

end

/-! ### The statement -/

/-- Settles O36: the two machines do the same next, and every part of it looks the same. -/
theorem cacheIsInvisibleToPrograms : Obligations.CacheIsInvisibleToPrograms := by
  intro s t hs ht hi hi' hreset h
  cases hr : s.status with
  | inReset => exact absurd hr hreset
  | faulted f =>
    rw [(faultedIsAbsorbing s f hr).1 hi, (faultedIsAbsorbing t f (h.status.symm.trans hr)).1 hi']
    rfl
  | ready =>
    have hr' := h.status.symm.trans hr
    cases hq : s.requests with
    | cons r rest =>
      have hq' := h.requests.symm.trans hq
      rw [(stepRunsTheDecodedInstruction s hi hr).1 r rest hq, (stepRunsTheDecodedInstruction t hi' hr').1 r rest hq']
      simp only [decodeWith, exec_decodeRequest]
      refine sameOutcome_runRequest (inv_with_requester hs s.pc s.regs s.run rest .inl)
        (inv_with_requester ht t.pc t.regs t.run rest .inl) ?_ _ _ _
      exact ⟨h.capacity, h.enc, h.status, rfl, h.pc, h.regs, h.run, h.view⟩
    | nil =>
      have hq' := h.requests.symm.trans hq
      obtain ⟨hhalted, hfaulted, -⟩ := stoppedRequesterHasNoStep s hi
      obtain ⟨hhalted', hfaulted', -⟩ := stoppedRequesterHasNoStep t hi'
      cases hn : s.run with
      | running => exact sameOutcome_fetch hs ht hi hi' h hr hq hn
      | halted =>
        rw [hhalted hr hq hn, hhalted' hr' hq' (h.run.symm.trans hn)]
        rfl
      | faulted =>
        rw [hfaulted hr hq hn, hfaulted' hr' hq' (h.run.symm.trans hn)]
        rfl

end Sys2Proof.Machine
end
